-- ==== Sys2Proof/Word.lean ====
section
/-! DEFINITION. The word, byte and symbol types of the block (00_scope R7, R12). -/

namespace Sys2Proof

/-- A 32-bit register or port word; bit 0 is the least significant (00_scope R12). -/
abbrev Word := BitVec 32

/-- An 8-bit cell of INBUF, OUTBUF or PKBUF (10_state R42, R43, R47). -/
abbrev Byte := BitVec 8

/-- A symbol of the fixed 128-symbol alphabet (00_scope R7). -/
abbrev Sym := BitVec 7

/-- A byte offset into the block's 1 MiB window (20_memory R60). -/
abbrev Offset := BitVec 20

end Sys2Proof
end

