-- ==== Sys2Proof/Config.lean ====
section
/-! DEFINITION. What an implementation fixes (the parameters of 00_scope R8 to R11) and the one free value of the
model: the data an undetermined host read returns (20_memory R78, 40_control R111). -/

namespace Sys2Proof

/-- The parameter `WEIGHT_MODE` (00_scope R10). -/
inductive WeightMode where
  /-- `COUNT_EXACT`, code 0: the key of a node is its exact integer count-weight. -/
  | countExact
  /-- `BINARY64`, code 1: the key of a node is an IEEE 754 binary64 value. -/
  | binary64
  deriving DecidableEq, Repr

/-- The configuration of one block (00_scope R11): constant for its life, readable in PARAM0 to PARAM2. -/
structure Params where
  /-- `MAX_SYMS`, the capacity in symbols of INBUF and OUTBUF (00_scope R8). -/
  maxSyms : Nat
  /-- `MAX_BITS`, the capacity in bits of BITBUF (00_scope R9). -/
  maxBits : Nat
  /-- `WEIGHT_MODE` (00_scope R10). -/
  weightMode : WeightMode
  deriving DecidableEq, Repr

/-- The configuration of the spec's examples (00_scope R8 to R10): MAX_SYMS = 4096, MAX_BITS = 65536, COUNT_EXACT. -/
def Params.examples : Params :=
  { maxSyms := 4096, maxBits := 65536, weightMode := .countExact }

/-- FREE VALUE: the bits an undetermined host read may show at the n-th host read (20_memory R78 "an undetermined
value drawn afresh at each read"; 40_control R111 "a free input of the read"). It has no body, so no proof can know
any of its values. Safe; notes/assumptions/4.md. -/
opaque Config.freeWord : Nat → Word

end Sys2Proof
end

