-- ==== Sys2Proof/Syntax.lean ====
section
/-! DEFINITION. The ten commands of the opcode map (30_encoding R92). -/

namespace Sys2Proof

/-- One constructor per row of spec/opcode_table.json. Only FREQ_LOAD has an operand in the word; every other operand
is a register or a buffer read when the command executes (30_encoding R91, R93). -/
inductive Instr where
  /-- NOP, OP 0x00 (40_control R113). -/
  | nop
  /-- CLEAR, OP 0x01 (40_control R114). -/
  | clear
  /-- FREQ_SCAN, OP 0x02 (41_frequency R121). -/
  | freqScan
  /-- FREQ_LOAD SYM, OP 0x03 (41_frequency R125). -/
  | freqLoad (sym : Sym)
  /-- BUILD, OP 0x04 (42_tree_builder R141). -/
  | build
  /-- GEN_CODES, OP 0x05 (43_code_table R161). -/
  | genCodes
  /-- ENCODE, OP 0x06 (44_bit_packing R176). -/
  | encode
  /-- PACK, OP 0x07 (44_bit_packing R180). -/
  | pack
  /-- UNPACK, OP 0x08 (44_bit_packing R184). -/
  | unpack
  /-- DECODE, OP 0x09 (45_decoder R196). -/
  | decode
  deriving DecidableEq, Repr

end Sys2Proof
end

