-- ==== Sys2Proof/WellFormed.lean ====
section
/-! DEFINITION. The checks on what reaches the block from outside: command words (30_encoding R95), instructions and
the configuration (00_scope R8, R9). The check on host programs is beside the host statements
(Sys2Proof/Machine/HostAgent.lean), whose type is state. -/

namespace Sys2Proof

/-- The OP field `w[7:0]` (30_encoding R90). -/
def Word.opField (w : Word) : BitVec 8 := w.extractLsb' 0 8

/-- The SYM field `w[14:8]` (30_encoding R90). -/
def Word.symField (w : Word) : Sym := w.extractLsb' 8 7

/-- Bits 31:8 of the word, all reserved in format F0 (30_encoding R91). -/
def Word.reservedF0 (w : Word) : BitVec 24 := w.extractLsb' 8 24

/-- Bits 31:15 of the word, all reserved in format F1 (30_encoding R91). -/
def Word.reservedF1 (w : Word) : BitVec 17 := w.extractLsb' 15 17

/-- A command word is legal exactly when its OP is 0x00 to 0x09 and its format's reserved bits are 0: the words that
30_encoding R95 does not list as illegal, said by fields, with no use of the decoder's masks. -/
def Word.legalCommand (w : Word) : Bool :=
  if w.opField = 0x03#8 then w.reservedF1 == 0#17
  else decide (w.opField ≤ 0x09#8) && w.reservedF0 == 0#24

/-- Every term of `Instr` is a command of the opcode map. The one check, on the symbol of FREQ_LOAD, always passes:
SYM "cannot name a symbol outside the alphabet" (30_encoding R93), and the type says so. -/
def Instr.wellFormed : Instr → Bool
  | .nop => true
  | .clear => true
  | .freqScan => true
  | .freqLoad sym => decide (sym.toNat < 128)
  | .build => true
  | .genCodes => true
  | .encode => true
  | .pack => true
  | .unpack => true
  | .decode => true

/-- The limits of 00_scope R8 and R9: 1 <= MAX_SYMS <= 65536; MAX_BITS a multiple of 32 with
32 <= MAX_BITS <= 2^21 - 32. -/
def Params.wellFormed (p : Params) : Bool :=
  decide (1 ≤ p.maxSyms) && decide (p.maxSyms ≤ 65536) &&
    decide (p.maxBits % 32 = 0) && decide (32 ≤ p.maxBits) && decide (p.maxBits ≤ 2 ^ 21 - 32)

end Sys2Proof
end

