-- ==== Sys2Proof/Decode.lean ====
section
/-! DEFINITION. The command decoder (30_encoding R94), total on every 32-bit word, and the encoder beside it.
The word a host writes to CMD is read with 00_scope R12's bit numbering (30_encoding R90, 20_memory R71). -/

namespace Sys2Proof

/-- Why a word is ILLEGAL (30_encoding R95). -/
inductive IllegalWord where
  /-- OP is 0x0A to 0xFF. -/
  | unknownOp (op : BitVec 8)
  /-- OP is 0x00 to 0x09 and a reserved bit is set. -/
  | reservedBit (op : BitVec 8)
  deriving DecidableEq, Repr

/-- One row of the opcode map (30_encoding R92): a word selects the row when `(w & mask) = pattern`. -/
structure OpcodeRow where
  pattern : Word
  mask : Word
  build : Word → Instr

/-- The opcode map of 30_encoding R92, in its order. -/
def opcodeRows : List OpcodeRow :=
  [ ⟨0x00000000#32, 0xFFFFFFFF#32, fun _ => .nop⟩,
    ⟨0x00000001#32, 0xFFFFFFFF#32, fun _ => .clear⟩,
    ⟨0x00000002#32, 0xFFFFFFFF#32, fun _ => .freqScan⟩,
    ⟨0x00000003#32, 0xFFFF80FF#32, fun w => .freqLoad w.symField⟩,
    ⟨0x00000004#32, 0xFFFFFFFF#32, fun _ => .build⟩,
    ⟨0x00000005#32, 0xFFFFFFFF#32, fun _ => .genCodes⟩,
    ⟨0x00000006#32, 0xFFFFFFFF#32, fun _ => .encode⟩,
    ⟨0x00000007#32, 0xFFFFFFFF#32, fun _ => .pack⟩,
    ⟨0x00000008#32, 0xFFFFFFFF#32, fun _ => .unpack⟩,
    ⟨0x00000009#32, 0xFFFFFFFF#32, fun _ => .decode⟩ ]

/-- Whether a word selects a row (30_encoding R92, R94). -/
def OpcodeRow.selects (r : OpcodeRow) (w : Word) : Bool := w &&& r.mask == r.pattern

/-- The name of the rejection of a word that no row selects (30_encoding R95). -/
def illegalReason (w : Word) : IllegalWord :=
  if w.opField ≤ 0x09#8 then .reservedBit w.opField else .unknownOp w.opField

/-- `decode(w)` of 30_encoding R94: the first row that selects the word, else ILLEGAL, by name. -/
def decode (w : Word) : Except IllegalWord Instr :=
  match opcodeRows.find? (fun r => r.selects w) with
  | some r => .ok (r.build w)
  | none => .error (illegalReason w)

/-- The command word of an instruction (30_encoding R91, R92, R97). -/
def encode : Instr → Word
  | .nop => 0x00000000#32
  | .clear => 0x00000001#32
  | .freqScan => 0x00000002#32
  | .freqLoad sym => 0x00000003#32 ||| (sym.setWidth 32 <<< 8)
  | .build => 0x00000004#32
  | .genCodes => 0x00000005#32
  | .encode => 0x00000006#32
  | .pack => 0x00000007#32
  | .unpack => 0x00000008#32
  | .decode => 0x00000009#32

/-- The command word whose low `nbits` bits are those of `w` and whose other bits are 0, numbered as
spec/opcode_table.json numbers them. A command is one 32-bit word (30_encoding R96), so the table's rows have 32 bits.
DESIGN CHOICE: fewer bits are extended with zeros and bits from 32 on are dropped (notes/assumptions/22.md). -/
def commandWord (nbits w : Nat) : Word := BitVec.ofNat 32 (w % 2 ^ nbits)

/-- What the decoder reads from a word of the opcode table; `nbits` other than 32: notes/assumptions/22.md. -/
def decodeTableWord (nbits w : Nat) : Option Instr :=
  match decode (commandWord nbits w) with
  | .ok i => some i
  | .error _ => none

end Sys2Proof
end

