-- ==== Sys2Proof/Machine/State.lean ====
section
/-! DEFINITION. The state of the block and of the agents around it, as plain data (10_state), and the state after
power-on reset (10_state R53, 70_reset R240). -/

namespace Sys2Proof.Machine

/-! ## Names the state uses -/

/-- The complete error-code table (60_exceptions R210). Codes 0x0D to 0xFF are "reserved and never written", so
they have no constructor (93_implementation_defined item 10; notes/assumptions/24.md). -/
inductive ErrCode where
  /-- 0x00, success. -/
  | none
  /-- 0x01, EMPTY_INPUT. -/
  | emptyInput
  /-- 0x02, MALFORMED_FREQ_LIST. -/
  | malformedFreqList
  /-- 0x03, EMPTY_TREE. -/
  | emptyTree
  /-- 0x04, INVALID_BIT_CHAR: assigned and never written (44_bit_packing R178). -/
  | invalidBitChar
  /-- 0x05, TRUNCATED_STREAM. -/
  | truncatedStream
  /-- 0x06, CORRUPT_TREE_WALK: unreachable (43_code_table R165, 45_decoder R200). -/
  | corruptTreeWalk
  /-- 0x07, FILE_IO: assigned and never written (60_exceptions R218). -/
  | fileIo
  /-- 0x08, ILLEGAL_COMMAND. -/
  | illegalCommand
  /-- 0x09, CAPACITY. -/
  | capacity
  /-- 0x0A, UNMAPPED_SYMBOL. -/
  | unmappedSymbol
  /-- 0x0B, SYMBOL_RANGE. -/
  | symbolRange
  /-- 0x0C, CODE_TABLE_ABSENT. -/
  | codeTableAbsent
  deriving DecidableEq, Repr

/-- The three buffers a command reads (20_memory R79). -/
inductive Buf where
  | inbuf
  | bitbuf
  | pkbuf
  deriving DecidableEq, Repr

/-- How the machine stops with a fault. -/
inductive Fault where
  /-- `UNINIT`: raised by FREQ_SCAN, ENCODE, PACK, UNPACK and DECODE when the engine needs the value of an unwritten
  buffer cell; "the model gives the command no meaning" (20_memory R79, 60_exceptions R216). Safe. -/
  | uninit (buf : Buf) (cell : Nat)
  /-- `BUS_ERROR`: raised by a host access that the port answers with SLVERR; "a model makes it a host fault"
  (20_memory R63, 60_exceptions R216). Safe. -/
  | busError
  /-- Raised by GEN_CODES when the walk of its pseudocode would never end, which needs a NODE array with a cycle: no
  reachable state has one. A stuck state. Safe; notes/assumptions/13.md. -/
  | codeWalkStuck
  deriving DecidableEq, Repr

/-- How the machine refuses a step. -/
inductive Refusal where
  /-- Raised only by an arm of `exec` whose command has no meaning yet. Safe. -/
  | notModelled (mnemonic : String)
  /-- Raised by a host statement that uses a name no earlier read of the program bound: 30_encoding R97 gives such a
  program no meaning. Safe; notes/assumptions/15.md. -/
  | unboundName (name : Nat)
  deriving DecidableEq, Repr

/-! ## Storage -/

/-- A sparse array of cells: the written ones, with their values, at strictly rising indexes. A cell that is not listed
is unwritten and has no value (10_state R42 to R44, R47; notes/assumptions/23.md). `Memory Byte` is a list of
`Host.Cell`. -/
abbrev Memory (α : Type) := List (Nat × α)

/-- One entry of NODE (10_state R39). -/
structure Node where
  used : Bool
  leaf : Bool
  sym : Sym
  left : BitVec 8
  right : BitVec 8
  cw : Word
  pw : BitVec 64
  deriving DecidableEq, Repr

/-- The entry with every field 0 (10_state R39, R45). -/
def Node.zero : Node :=
  { used := false, leaf := false, sym := 0, left := 0, right := 0, cw := 0, pw := 0 }

/-- One entry of CODE (10_state R41). Code bit j is bit `126 - j` of `bits`, the bit order of CODEW (20_memory R76). -/
structure CodeEntry where
  valid : Bool
  len : BitVec 8
  bits : BitVec 127
  deriving DecidableEq, Repr

/-- The absent entry: VALID = 0, LEN = 0, BITS = 0 (10_state R46). -/
def CodeEntry.absent : CodeEntry := { valid := false, len := 0, bits := 0 }

/-! ## The block -/

/-- Everything the spec gives the block. STATUS.BUSY follows `pending` and STATUS.ERR follows `error`, "not separately
stored" (10_state R20, R23, R51). -/
structure Block where
  /-- The configuration, constant for the life of the block (00_scope R11; notes/assumptions/1.md). -/
  cfg : Params
  /-- PENDING (10_state R20). -/
  pending : Option Word
  /-- STATUS.OVERRUN (10_state R23). -/
  overrun : Bool
  /-- STATUS.ANOMALY (10_state R23). -/
  anomaly : Bool
  /-- STATUS.TREE_VALID (10_state R23). -/
  treeValid : Bool
  /-- STATUS.CODES_VALID (10_state R23). -/
  codesValid : Bool
  /-- ERROR.CODE (10_state R24). -/
  error : ErrCode
  /-- ARG (10_state R26). -/
  arg : Word
  /-- RESULT0 (10_state R27). -/
  result0 : Word
  /-- RESULT1 (10_state R27). -/
  result1 : Word
  /-- IN_LEN (10_state R28). -/
  inLen : Word
  /-- OUT_LEN (10_state R29). -/
  outLen : Word
  /-- BIT_LEN (10_state R30). -/
  bitLen : Word
  /-- PK_LEN (10_state R31). -/
  pkLen : Word
  /-- TOTAL (10_state R32). -/
  total : Word
  /-- NDIST (10_state R33). -/
  ndist : BitVec 8
  /-- NLEAF (10_state R34). -/
  nleaf : BitVec 8
  /-- ROOT (10_state R35). -/
  root : BitVec 8
  /-- SYNTH: the synthetic symbol, when PRESENT (10_state R36; notes/assumptions/25.md). -/
  synth : Option Sym
  /-- COUNT[0..127] (10_state R37). -/
  count : Vector Word 128
  /-- ORDER[0..127] (10_state R38). -/
  order : Vector Sym 128
  /-- NODE[0..255] (10_state R39). -/
  node : Vector Node 256
  /-- CODE[0..127] (10_state R41). -/
  code : Vector CodeEntry 128
  /-- INBUF (10_state R42). -/
  inbuf : Memory Byte
  /-- OUTBUF (10_state R43). -/
  outbuf : Memory Byte
  /-- BITBUF (10_state R44). -/
  bitbuf : Memory Bool
  /-- PKBUF (10_state R47). -/
  pkbuf : Memory Byte
  deriving DecidableEq, Repr

/-- The state of 10_state R53's "after power-on reset" column, for a configuration. -/
def Block.powerOn (cfg : Params) : Block :=
  { cfg := cfg
    pending := none
    overrun := false, anomaly := false, treeValid := false, codesValid := false
    error := .none
    arg := 0, result0 := 0, result1 := 0
    inLen := 0, outLen := 0, bitLen := 0, pkLen := 0
    total := 0, ndist := 0, nleaf := 0, root := 0, synth := none
    count := Vector.replicate 128 0
    order := Vector.replicate 128 0
    node := Vector.replicate 256 Node.zero
    code := Vector.replicate 128 CodeEntry.absent
    inbuf := [], outbuf := [], bitbuf := [], pkbuf := [] }

/-! ## The agents around the block -/

/-- `<value>` of a statement: a number, or a value an earlier read named (30_encoding R97). -/
inductive HostVal where
  | lit (w : Word)
  | name (n : Nat)
  deriving DecidableEq, Repr

/-- One statement of a host program: one port access each (30_encoding R97, R98; 70_reset R263). The byte lanes an
access enables stand in it, because 20_memory R61 says what the port does with fewer than four. -/
inductive HostStmt where
  /-- `W <loc>, <value>`, and `C` when the location is CMD. -/
  | write (off : Offset) (lanes : BitVec 4) (v : HostVal)
  /-- `R <loc>`, or `R <loc> -> name`. -/
  | read (off : Offset) (lanes : BitVec 4) (name : Option Nat)
  /-- `WAIT`: read STATUS until bit 0 is 0. The `t` of its expansion is no name (notes/assumptions/27.md). -/
  | wait
  /-- `CHECK <loc> = <value>`, with any `<value>` a `W` can have. The `t` of its expansion is no name
  (notes/assumptions/27.md). -/
  | check (off : Offset) (v : HostVal)
  deriving DecidableEq, Repr

/-- The host agent (70_reset R263): its program is no state of the block (10_state R20). -/
structure HostAgent where
  /-- The statements still to execute, in order. -/
  prog : List HostStmt
  /-- The values named by reads so far, by name. -/
  vars : Memory Word
  /-- The data of the latest read; none before the first. -/
  rdata : Option Word
  /-- Whether some CHECK so far read another value than it expected. -/
  checkFailed : Bool
  deriving DecidableEq, Repr

/-- One move of the interleaving (20_memory R82), or a reset, which "may be taken at any time" (70_reset R242). -/
inductive Move where
  | host
  | engine
  | reset
  deriving DecidableEq, Repr

/-- The block, the host, the moves an interleaving has fixed so far, and the number of host reads made. -/
structure State where
  blk : Block
  host : HostAgent
  sched : List Move
  draws : Nat
  deriving DecidableEq, Repr

/-- The machine right after power-on reset: the block as 10_state R53 says, a host with no program, nothing scheduled.
Configuration: notes/assumptions/1.md; host and schedule: notes/assumptions/2.md; draws: notes/assumptions/4.md. -/
def State.reset : State :=
  { blk := Block.powerOn Params.examples
    host := { prog := [], vars := [], rdata := none, checkFailed := false }
    sched := []
    draws := 0 }

end Sys2Proof.Machine
end

