-- ==== Sys2Proof/Machine/Ops.lean ====
section
/-! DEFINITION. The named operations over cells and tables, the end of a command (40_control R112) and the shared
invalidations (10_state R45, R46). Everything a command or the port does to storage goes through these. -/

namespace Sys2Proof.Machine

/-! ## Buffer cells -/

/-- The value of cell `i`, or none when it is unwritten (10_state R42). -/
def Memory.get {α : Type} : Memory α → Nat → Option α
  | [], _ => none
  | (k, v) :: m, i => if k = i then some v else Memory.get m i

/-- Write cell `i`, keeping the indexes strictly rising. -/
def Memory.set {α : Type} : Memory α → Nat → α → Memory α
  | [], i, v => [(i, v)]
  | (k, w) :: m, i, v =>
    if i < k then (i, v) :: (k, w) :: m
    else if i = k then (i, v) :: m
    else (k, w) :: Memory.set m i v

/-- Write the cells `i`, `i + 1`, ... with the values of a list, in order. -/
def Memory.setRange {α : Type} (m : Memory α) (i : Nat) : List α → Memory α
  | [] => m
  | v :: vs => Memory.setRange (Memory.set m i v) (i + 1) vs

/-- The canonical form of a memory: indexes strictly rising. -/
def Memory.wf {α : Type} : Memory α → Bool
  | [] => true
  | (k, _) :: m => m.all (fun c => decide (k < c.1)) && Memory.wf m

/-- Every written cell is one of the first `cap` (20_memory R77). -/
def Memory.within {α : Type} (cap : Nat) (m : Memory α) : Bool :=
  m.all (fun c => decide (c.1 < cap))

/-! ## Tables indexed by a symbol or a node number -/

/-- `COUNT[s]`, `CODE[s]`, `ORDER[i]` (00_scope R14). -/
def atSym {α : Type} (t : Vector α 128) (s : Sym) : α := t[s.toNat]'s.isLt

/-- `COUNT[s] <- v`, `CODE[s] <- v`. -/
def setSym {α : Type} (t : Vector α 128) (s : Sym) (v : α) : Vector α 128 := t.set s.toNat v s.isLt

/-- `NODE[k]` (10_state R39). -/
def atNode (t : Vector Node 256) (k : BitVec 8) : Node := t[k.toNat]'k.isLt

/-! ## How a command ends -/

/-- Why a command's pseudocode stops before its `commit`. -/
inductive Stop where
  /-- `raise E(r0, r1)` (60_exceptions R215). -/
  | raise (code : ErrCode) (r0 r1 : Word)
  /-- A model fault (20_memory R79): the command does not complete. -/
  | fault (f : Fault)
  deriving DecidableEq, Repr

/-- What a successful command hands to `complete`: the block with its writes, and the two results. -/
structure Commit where
  blk : Block
  r0 : Word
  r1 : Word
  deriving DecidableEq, Repr

/-- `complete(code, r0, r1)` of 40_control R112: the one way a command ends. -/
def complete (b : Block) (code : ErrCode) (r0 r1 : Word) : Block :=
  { b with error := code, result0 := r0, result1 := r1, pending := none }

/-- The end of `engine_step` for every command but DECODE (40_control R112, 60_exceptions R215): the writes of a success
take effect together; an error drops them all; a fault completes nothing. -/
def finish (s : State) : Except Stop Commit → Host.Outcome State Fault Refusal
  | .ok c => .next { s with blk := complete c.blk .none c.r0 c.r1 }
  | .error (.raise code r0 r1) => .next { s with blk := complete s.blk code r0 r1 }
  | .error (.fault f) => .fault f

/-- The end of `engine_step` for DECODE, whose errors set OUT_LEN to 0 first (40_control R112, 45_decoder R202). -/
def finishDecode (s : State) : Except Stop Commit → Host.Outcome State Fault Refusal
  | .ok c => .next { s with blk := complete c.blk .none c.r0 c.r1 }
  | .error (.raise code r0 r1) => .next { s with blk := complete { s.blk with outLen := 0 } code r0 r1 }
  | .error (.fault f) => .fault f

/-! ## Invalidation and reset -/

/-- `invalidate_codes()` (10_state R46). -/
def invalidateCodes (b : Block) : Block :=
  { b with code := Vector.replicate 128 CodeEntry.absent, codesValid := false }

/-- `invalidate_tree()` (10_state R45). -/
def invalidateTree (b : Block) : Block :=
  invalidateCodes
    { b with
      node := Vector.replicate 256 Node.zero
      nleaf := 0
      root := 0
      synth := none
      treeValid := false }

/-- Power-on or asserted reset (70_reset R240, R242): the block takes its power-on values, buffer cells become
unwritten, a latched command is aborted; the host and its program are not the block's. -/
def assertReset (s : State) : State :=
  { s with blk := Block.powerOn s.blk.cfg }

end Sys2Proof.Machine
end

