-- ==== Sys2Proof/Machine/Operands.lean ====
section
/-! DEFINITION. The operand forms of the commands: capacities, bit and byte order, symbols and bits read from buffers,
codes, and the buffer writes with their tail fill. -/

namespace Sys2Proof.Machine

/-! ## Capacities -/

/-- `ceil(n / d)`. -/
def ceilDiv (n d : Nat) : Nat := (n + (d - 1)) / d

/-- `MAX_PK`, the capacity in bytes of PKBUF (00_scope R9). -/
def maxPk (p : Params) : Nat := p.maxBits / 8 + 4

/-- How many byte cells INBUF and OUTBUF hold (20_memory R77). -/
def symCells (p : Params) : Nat := 4 * ceilDiv p.maxSyms 4

/-! ## Bit order -/

/-- The `n`-bit value whose stream bit `j` (counted from the most significant bit) is `f j`: "most-significant bit
first" (20_memory R68, R69). -/
def msbBits (n : Nat) (f : Nat → Bool) : BitVec n :=
  (BitVec.ofBoolListBE ((List.range n).map f)).setWidth n

/-- The bits of a value, most significant first (00_scope R13). -/
def bitsOf {n : Nat} (v : BitVec n) : List Bool := (List.range n).map v.getMsbD

/-- The 32-bit word of four bytes in big-endian lanes: byte 0 is bits 31:24 (20_memory R67). -/
def wordOfBytes (b0 b1 b2 b3 : Byte) : Word := b0 ++ b1 ++ b2 ++ b3

/-- Byte lane `t` of a word, lane 0 being bits 31:24 (20_memory R67). -/
def laneOf (w : Word) (t : Nat) : Byte := w.extractLsb' (24 - 8 * t) 8

/-! ## Reading buffers in stream order

Each element is read, and checked where the command checks it, before the next is read (60_exceptions R212). -/

/-- Cell `i` of a buffer; an unwritten cell is the model fault UNINIT (20_memory R79). -/
def readCell {α : Type} (buf : Buf) (m : Memory α) (i : Nat) : Except Stop α :=
  match Memory.get m i with
  | some v => .ok v
  | none => .error (.fault (.uninit buf i))

/-- The elements `i`, `i + 1`, ... (`n` of them) in stream order, stopping at the first that cannot be had. -/
def readFrom {α : Type} (rd : Nat → Except Stop α) (i : Nat) : Nat → Except Stop (List α)
  | 0 => .ok []
  | n + 1 =>
    match rd i with
    | .error e => .error e
    | .ok v =>
      match readFrom rd (i + 1) n with
      | .error e => .error e
      | .ok vs => .ok (v :: vs)

/-- The first `n` cells of a buffer. -/
def readCells {α : Type} (buf : Buf) (m : Memory α) (n : Nat) : Except Stop (List α) :=
  readFrom (readCell buf m) 0 n

/-- `INBUF[i]` as a symbol: an unwritten cell is UNINIT, a byte of 128 or more is SYMBOL_RANGE(i, byte)
(41_frequency R122). -/
def readSym (m : Memory Byte) (i : Nat) : Except Stop Sym :=
  match readCell .inbuf m i with
  | .error e => .error e
  | .ok v =>
    if 128 ≤ v.toNat then .error (.raise .symbolRange (BitVec.ofNat 32 i) (v.setWidth 32))
    else .ok (v.setWidth 7)

/-- `INBUF[0..n)` as symbols. -/
def readSyms (m : Memory Byte) (n : Nat) : Except Stop (List Sym) :=
  readFrom (readSym m) 0 n

/-! ## Writing buffers from cell 0, with the tail fill -/

/-- `tail_fill_bits(L)`: cells L up to the end of the last word touched become 0 (44_bit_packing R183). -/
def tailFillBits (m : Memory Bool) (len : Nat) : Memory Bool :=
  Memory.setRange m len (List.replicate (32 * ceilDiv len 32 - len) false)

/-- `tail_fill_bytes(BUF, P)` (44_bit_packing R183). -/
def tailFillBytes (m : Memory Byte) (len : Nat) : Memory Byte :=
  Memory.setRange m len (List.replicate (4 * ceilDiv len 4 - len) 0)

/-- Write a bitstring to BITBUF from bit 0, with its tail fill. -/
def putBits (m : Memory Bool) (bs : List Bool) : Memory Bool :=
  tailFillBits (Memory.setRange m 0 bs) bs.length

/-- Write bytes to PKBUF or OUTBUF from byte 0, with their tail fill. DESIGN CHOICE: the fill goes to the end of the word
(44_bit_packing R183, 45_decoder R196) also where that is at or beyond MAX_SYMS in OUTBUF, against the last sentence of
20_memory R77 (notes/assumptions/26.md). -/
def putBytes (m : Memory Byte) (bs : List Byte) : Memory Byte :=
  tailFillBytes (Memory.setRange m 0 bs) bs.length

/-! ## Codes -/

/-- The table entry of a leaf with this path (43_code_table R162). Paths of reachable trees have 1 to 127 bits
(notes/assumptions/14.md). -/
def CodeEntry.ofPath (path : List Bool) : CodeEntry :=
  { valid := true
    len := BitVec.ofNat 8 path.length
    bits := msbBits 127 (fun j => path.getD j false) }

/-- `CODE[s].BITS[0 .. CODE[s].LEN)` (44_bit_packing R175). -/
def CodeEntry.path (e : CodeEntry) : List Bool := (List.range e.len.toNat).map e.bits.getMsbD

end Sys2Proof.Machine
end

