-- ==== Sys2Proof/Machine/BitPacking.lean ====
section
/-! DEFINITION. ENCODE, PACK and UNPACK (44_bit_packing). -/

namespace Sys2Proof.Machine

/-! ## ENCODE -/

/-- The encoding loop from symbol `i` on, `n` symbols left, with the bitstring so far: per symbol UNINIT,
SYMBOL_RANGE, UNMAPPED_SYMBOL, CAPACITY, in that order (44_bit_packing R176). -/
def encodeLoop (b : Block) (i : Nat) (out : List Bool) : Nat → Except Stop (List Bool)
  | 0 => .ok out
  | n + 1 =>
    match readSym b.inbuf i with
    | .error e => .error e
    | .ok s =>
      let e := atSym b.code s
      if e.valid = false then .error (.raise .unmappedSymbol (BitVec.ofNat 32 i) (s.setWidth 32))
      else if b.cfg.maxBits < out.length + e.len.toNat then
        .error (.raise .capacity (BitVec.ofNat 32 i) (s.setWidth 32))
      else encodeLoop b (i + 1) (out ++ e.path) n

/-- The writes that leave a bitstring in BITBUF[0..BIT_LEN) (44_bit_packing R176, R184). -/
def bitsCommit (b : Block) (bs : List Bool) : Block :=
  { b with bitbuf := putBits b.bitbuf bs, bitLen := BitVec.ofNat 32 bs.length }

/-- The pseudocode of ENCODE (44_bit_packing R176). -/
def encodeSyms (b : Block) : Except Stop Commit :=
  let n := b.inLen.toNat
  if b.codesValid = false then .error (.raise .codeTableAbsent 0 0)
  else if n = 0 then .error (.raise .emptyInput 0 0)
  else if b.cfg.maxSyms < n then .error (.raise .capacity 0 0)
  else
    match encodeLoop b 0 [] n with
    | .error e => .error e
    | .ok out => .ok ⟨bitsCommit b out, BitVec.ofNat 32 out.length, BitVec.ofNat 32 n⟩

/-- ENCODE (44_bit_packing R176). -/
def execEncode (s : State) : Host.Outcome State Fault Refusal :=
  finish s (encodeSyms s.blk)

/-! ## PACK -/

/-- `pad = 8 - (L mod 8)`, always 1 to 8 (44_bit_packing R179). -/
def padLen (len : Nat) : Nat := 8 - len % 8

/-- The padding and the bitstring: `0^(pad-1) ++ [1] ++ bits` (44_bit_packing R179). -/
def padded (bs : List Bool) : List Bool :=
  List.replicate (padLen bs.length - 1) false ++ true :: bs

/-- Byte `k` of a stream: `sum over t in 0..7 of (x[8k + t] << (7 - t))` (44_bit_packing R180). -/
def streamByte (x : List Bool) (k : Nat) : Byte := msbBits 8 (fun t => x.getD (8 * k + t) false)

/-- The bytes of a stream of whole bytes, most significant bit first (44_bit_packing R180). -/
def packBytes (x : List Bool) : List Byte := (List.range (x.length / 8)).map (streamByte x)

/-- The writes PACK commits (44_bit_packing R180). -/
def packCommit (b : Block) (bytes : List Byte) : Block :=
  { b with pkbuf := putBytes b.pkbuf bytes, pkLen := BitVec.ofNat 32 bytes.length }

/-- The pseudocode of PACK (44_bit_packing R180). -/
def packBits (b : Block) : Except Stop Commit :=
  let len := b.bitLen.toNat
  if b.cfg.maxBits < len then .error (.raise .capacity 0 0)
  else
    match readCells .bitbuf b.bitbuf len with
    | .error e => .error e
    | .ok bs =>
      let bytes := packBytes (padded bs)
      .ok ⟨packCommit b bytes, BitVec.ofNat 32 (padLen len), BitVec.ofNat 32 bytes.length⟩

/-- PACK (44_bit_packing R180). -/
def execPack (s : State) : Host.Outcome State Fault Refusal :=
  finish s (packBits s.blk)

/-! ## UNPACK -/

/-- "expand each byte to 8 bits (MSB first)" (44_bit_packing R184). -/
def expandBytes (bytes : List Byte) : List Bool := bytes.flatMap bitsOf

/-- `p`: the least index among the first 8 bits that holds a 1, or none (44_bit_packing R184). -/
def markerIndex (bits : List Bool) : Option Nat := (bits.take 8).findIdx? (fun b => b)

/-- What the padding search leaves: the bitstring, ANOMALY, and the padding length found (44_bit_packing R184). -/
structure Unpadded where
  out : List Bool
  anomaly : Bool
  pad : Nat
  deriving DecidableEq, Repr

/-- "return everything after that '1'", else the fallback "return the substring after position 8"
(44_bit_packing R184, R186). -/
def unpad (bits : List Bool) : Unpadded :=
  match markerIndex bits with
  | some p => { out := bits.drop (p + 1), anomaly := false, pad := p + 1 }
  | none => { out := bits.drop 8, anomaly := true, pad := 0 }

/-- The pseudocode of UNPACK (44_bit_packing R184, R185). -/
def unpackBytes (b : Block) : Except Stop Commit :=
  let n := b.pkLen.toNat
  if maxPk b.cfg < n then .error (.raise .capacity 0 0)
  else
    match readCells .pkbuf b.pkbuf n with
    | .error e => .error e
    | .ok bytes =>
      let u := unpad (expandBytes bytes)
      if b.cfg.maxBits < u.out.length then .error (.raise .capacity 0 0)
      else
        .ok ⟨{ bitsCommit b u.out with anomaly := u.anomaly }, BitVec.ofNat 32 u.pad,
          BitVec.ofNat 32 u.out.length⟩

/-- UNPACK (44_bit_packing R184). -/
def execUnpack (s : State) : Host.Outcome State Fault Refusal :=
  finish s (unpackBytes s.blk)

end Sys2Proof.Machine
end

