-- ==== Sys2Proof/Machine/CodeTable.lean ====
section
/-! DEFINITION. GEN_CODES: the preorder walk that derives the code table (43_code_table R161 to R168). -/

namespace Sys2Proof.Machine

/-- The walk's locals besides the stack: `ct` and `maxlen` (43_code_table R161). -/
structure CodeAcc where
  ct : Vector CodeEntry 128
  maxLen : Nat
  deriving DecidableEq, Repr

/-- The locals before the walk. -/
def CodeAcc.start : CodeAcc := { ct := Vector.replicate 128 CodeEntry.absent, maxLen := 0 }

/-- Record a leaf's code: its path (43_code_table R162). -/
def CodeAcc.record (acc : CodeAcc) (sym : Sym) (path : List Bool) : CodeAcc :=
  { ct := setSym acc.ct sym (CodeEntry.ofPath path), maxLen := max acc.maxLen path.length }

/-- The walk with an explicit stack, top first: a leaf is recorded, an internal node pushes its right child and then
its left one, which is popped first (43_code_table R161, R163). `none` when `fuel` pops do not empty the stack. -/
def codeWalk (nodes : Vector Node 256) : Nat → List (BitVec 8 × List Bool) → CodeAcc → Option CodeAcc
  | _, [], acc => some acc
  | 0, _ :: _, _ => none
  | fuel + 1, (v, path) :: stack, acc =>
    let nd := atNode nodes v
    if nd.leaf then codeWalk nodes fuel stack (acc.record nd.sym path)
    else codeWalk nodes fuel ((nd.left, path ++ [false]) :: (nd.right, path ++ [true]) :: stack) acc

/-- More pops than a walk that ends can make: it meets no node twice on one path, so no path is longer than 256 nodes
and the walk pops fewer than 2^256 stack entries. A walk this fuel does not finish is one that never ends
(notes/assumptions/13.md). -/
def codeWalkFuel : Nat := 2 ^ 256

/-- The writes GEN_CODES commits (43_code_table R161). -/
def codesCommit (b : Block) (acc : CodeAcc) : Block :=
  { b with code := acc.ct, codesValid := true }

/-- The pseudocode of GEN_CODES (43_code_table R161, R165). -/
def genCodes (b : Block) : Except Stop Commit :=
  if b.treeValid = false then .error (.raise .emptyTree 0 0)
  else if (atNode b.node b.root).leaf then .error (.raise .corruptTreeWalk (b.root.setWidth 32) 0)
  else
    match codeWalk b.node codeWalkFuel [(b.root, [])] CodeAcc.start with
    | none => .error (.fault .codeWalkStuck)
    | some acc => .ok ⟨codesCommit b acc, b.nleaf.setWidth 32, BitVec.ofNat 32 acc.maxLen⟩

/-- GEN_CODES (43_code_table R161). -/
def execGenCodes (s : State) : Host.Outcome State Fault Refusal :=
  finish s (genCodes s.blk)

end Sys2Proof.Machine
end

