-- ==== Sys2Proof/Machine/Control.lean ====
section
/-! DEFINITION. NOP, CLEAR and illegal command words (40_control). -/

namespace Sys2Proof.Machine

/-- NOP "does nothing but report success" (40_control R113). -/
def execNop (s : State) : Host.Outcome State Fault Refusal :=
  finish s (.ok ⟨s.blk, 0, 0⟩)

/-- The writes CLEAR commits (40_control R114): every register and table, no buffer. -/
def clearBlock (b : Block) : Block :=
  invalidateTree
    { b with
      overrun := false
      anomaly := false
      arg := 0
      inLen := 0
      outLen := 0
      bitLen := 0
      pkLen := 0
      total := 0
      ndist := 0
      count := Vector.replicate 128 0
      order := Vector.replicate 128 0 }

/-- CLEAR (40_control R114). -/
def execClear (s : State) : Host.Outcome State Fault Refusal :=
  finish s (.ok ⟨clearBlock s.blk, 0, 0⟩)

/-- An illegal command word completes with ILLEGAL_COMMAND and changes nothing else (40_control R115). -/
def execIllegal (s : State) : Host.Outcome State Fault Refusal :=
  finish s (.error (.raise .illegalCommand 0 0))

end Sys2Proof.Machine
end

