-- ==== Sys2Proof/Machine/Decoder.lean ====
section
/-! DEFINITION. DECODE: the tree-walk decoder (45_decoder). -/

namespace Sys2Proof.Machine

/-- What a walk that emits every symbol leaves: `out` and `i`, the bits consumed (45_decoder R196). -/
structure Decoded where
  out : List Sym
  consumed : Nat
  deriving DecidableEq, Repr

/-- The child a bit selects: "descend left on '0' / right on '1'" (45_decoder R197). -/
def childOf (nd : Node) (bit : Bool) : BitVec 8 := if bit then nd.right else nd.left

/-- The walk (45_decoder R196) with `cnt` symbols to emit: the cursor is `cur`, bit `i` is next, `out` is emitted so far
and `left` bits remain (`i + left = L`). The count is tested before each bit (R198), the end of the bitstring only when
another bit is needed (R199). -/
def decodeLoop (b : Block) (cnt : Nat) (cur : BitVec 8) (i : Nat) (out : List Sym) : Nat → Except Stop Decoded
  | 0 =>
    if out.length < cnt then
      .error (.raise .truncatedStream (BitVec.ofNat 32 out.length) (BitVec.ofNat 32 i))
    else .ok ⟨out, i⟩
  | left + 1 =>
    if out.length < cnt then
      match readCell .bitbuf b.bitbuf i with
      | .error e => .error e
      | .ok bit =>
        let nd := atNode b.node cur
        let nxt := childOf nd bit
        if nd.leaf then .error (.raise .corruptTreeWalk (cur.setWidth 32) (BitVec.ofNat 32 (i + 1)))
        else if (atNode b.node nxt).used = false then
          .error (.raise .corruptTreeWalk (cur.setWidth 32) (BitVec.ofNat 32 (i + 1)))
        else if (atNode b.node nxt).leaf then
          decodeLoop b cnt b.root (i + 1) (out ++ [(atNode b.node nxt).sym]) left
        else decodeLoop b cnt nxt (i + 1) out left
    else .ok ⟨out, i⟩

/-- The writes DECODE commits (45_decoder R196), its tail fill to the end of the last word (notes/assumptions/26.md). -/
def decodeCommit (b : Block) (out : List Sym) : Block :=
  { b with
    outbuf := putBytes b.outbuf (out.map (fun s => s.setWidth 8))
    outLen := BitVec.ofNat 32 out.length }

/-- The pseudocode of DECODE (45_decoder R196). -/
def decodeBits (b : Block) : Except Stop Commit :=
  let cnt := b.arg.toNat
  let len := b.bitLen.toNat
  if b.treeValid = false then .error (.raise .emptyTree 0 0)
  else if b.cfg.maxSyms < cnt then .error (.raise .capacity 0 0)
  else if b.cfg.maxBits < len then .error (.raise .capacity 0 0)
  else
    match decodeLoop b cnt b.root 0 [] len with
    | .error e => .error e
    | .ok d => .ok ⟨decodeCommit b d.out, BitVec.ofNat 32 d.consumed, BitVec.ofNat 32 (len - d.consumed)⟩

/-- DECODE (45_decoder R196): on any error OUT_LEN <- 0 and OUTBUF is not written (R202). -/
def execDecode (s : State) : Host.Outcome State Fault Refusal :=
  finishDecode s (decodeBits s.blk)

end Sys2Proof.Machine
end

