-- ==== Sys2Proof/Machine/Frequency.lean ====
section
/-! DEFINITION. The frequency table: FREQ_SCAN and FREQ_LOAD (41_frequency R121 to R126). -/

namespace Sys2Proof.Machine

/-- The scan's locals: `cnt[0..127]` and `ord` (41_frequency R121). -/
structure Tally where
  cnt : Vector Nat 128
  ord : List Sym
  deriving DecidableEq, Repr

/-- The locals before the first symbol. -/
def Tally.start : Tally := { cnt := Vector.replicate 128 0, ord := [] }

/-- One symbol: it joins `ord` at its first occurrence, and its count goes up by one (41_frequency R121, R123). -/
def Tally.add (t : Tally) (s : Sym) : Tally :=
  { cnt := setSym t.cnt s (atSym t.cnt s + 1)
    ord := if atSym t.cnt s = 0 then t.ord ++ [s] else t.ord }

/-- The scan of a whole stream, left to right. -/
def tally (ss : List Sym) : Tally := ss.foldl Tally.add Tally.start

/-- ORDER as committed: `ORDER[i] <- (i < |ord|) ? ord[i] : 0` (41_frequency R121). -/
def orderTable (ord : List Sym) : Vector Sym 128 := Vector.ofFn (fun i => ord.getD i.val 0)

/-- The writes FREQ_SCAN commits for the stream `ss` (41_frequency R121). -/
def scanCommit (b : Block) (ss : List Sym) : Block :=
  let t := tally ss
  invalidateTree
    { b with
      count := t.cnt.map (BitVec.ofNat 32)
      order := orderTable t.ord
      ndist := BitVec.ofNat 8 t.ord.length
      total := BitVec.ofNat 32 ss.length }

/-- The pseudocode of FREQ_SCAN (41_frequency R121). -/
def freqScan (b : Block) : Except Stop Commit :=
  let n := b.inLen.toNat
  if n = 0 then .error (.raise .emptyInput 0 0)
  else if b.cfg.maxSyms < n then .error (.raise .capacity 0 0)
  else
    match readSyms b.inbuf n with
    | .error e => .error e
    | .ok ss => .ok ⟨scanCommit b ss, BitVec.ofNat 32 (tally ss).ord.length, BitVec.ofNat 32 n⟩

/-- FREQ_SCAN (41_frequency R121). -/
def execFreqScan (s : State) : Host.Outcome State Fault Refusal :=
  finish s (freqScan s.blk)

/-- The writes FREQ_LOAD commits (41_frequency R125). `ORDER[R[NDIST]]` exists in every reachable state; a state with
NDIST >= 128 has no such slot and ORDER stays (notes/assumptions/9.md). -/
def loadCommit (b : Block) (sym : Sym) : Block :=
  invalidateTree
    { b with
      count := setSym b.count sym b.arg
      order := b.order.setIfInBounds b.ndist.toNat sym
      ndist := b.ndist + 1
      total := b.total + b.arg }

/-- The pseudocode of FREQ_LOAD (41_frequency R125, R126). -/
def freqLoad (sym : Sym) (b : Block) : Except Stop Commit :=
  if b.arg = 0 then .error (.raise .malformedFreqList (sym.setWidth 32) 0)
  else if atSym b.count sym ≠ 0 then .error (.raise .malformedFreqList (sym.setWidth 32) 0)
  else if 2 ^ 32 - 1 < b.total.toNat + b.arg.toNat then .error (.raise .capacity (sym.setWidth 32) 0)
  else .ok ⟨loadCommit b sym, (loadCommit b sym).ndist.setWidth 32, (loadCommit b sym).total⟩

/-- FREQ_LOAD (41_frequency R125). -/
def execFreqLoad (sym : Sym) (s : State) : Host.Outcome State Fault Refusal :=
  finish s (freqLoad sym s.blk)

end Sys2Proof.Machine
end

