-- ==== Sys2Proof/Machine/Binary64.lean ====
section
/-! DEFINITION. IEEE 754 binary64 values that are finite and non-negative, as 64-bit patterns (00_scope R14 `bits64`,
`real`; R15 `RNE`, `/`, `+`, `<=`). Every such value is a whole multiple of 2^-1074, so exact arithmetic on it is
arithmetic on naturals. The format is the spec's own general knowledge (93_implementation_defined G1 to G3;
notes/assumptions/12.md). -/

namespace Sys2Proof.Machine

/-- `real(p)` in units of 2^-1074: a subnormal pattern is its fraction field, a normal one is
`(2^52 + fraction) * 2^(exponent - 1)`. -/
def f64Scaled (p : BitVec 64) : Nat :=
  let e := (p.extractLsb' 52 11).toNat
  let f := (p.extractLsb' 0 52).toNat
  if e = 0 then f else (2 ^ 52 + f) * 2 ^ (e - 1)

/-- The unit of `f64Scaled`: 1.0 is this many units. -/
def f64Unit : Nat := 2 ^ 1074

/-- The integer nearest to `x / d`, ties to even. -/
def roundHalfEven (x d : Nat) : Nat :=
  let q := x / d
  let r := x % d
  if d < 2 * r then q + 1
  else if 2 * r = d then q + q % 2
  else q

/-- How many low bits of a value of `q` units a binary64 significand (53 bits) cannot hold. -/
def f64Shift (q : Nat) : Nat := q.log2 - 52

/-- `bits64(RNE(num / den))` (00_scope R15): the 53-bit significand nearest to the quotient in its own binade, ties to
even, with its exponent; a significand that rounds up to 2^53 carries into the exponent. A denominator of 0, which no
command reaches, gives +0.0 (notes/assumptions/11.md). -/
def rne (num den : Nat) : BitVec 64 :=
  if den = 0 then 0
  else
    let x := num * f64Unit
    let k := f64Shift (x / den)
    BitVec.ofNat 64 (k * 2 ^ 52 + roundHalfEven x (den * 2 ^ k))

/-- `bits64(RNE(real(a) + real(b)))` (42_tree_builder R143). -/
def f64Add (a b : BitVec 64) : BitVec 64 := rne (f64Scaled a + f64Scaled b) f64Unit

end Sys2Proof.Machine
end

