-- ==== Sys2Proof/Machine/TreeBuilder.lean ====
section
/-! DEFINITION. BUILD: the sorted frequency list and the two-queue merge (41_frequency R127 to R132,
42_tree_builder R140 to R150). Weights are exact naturals inside the command and narrow to 32 bits when NODE is written
(40_control R119; notes/assumptions/11.md). -/

namespace Sys2Proof.Machine

/-! ## The sorted list -/

/-- One entry of the frequency list: a symbol and its count. -/
structure Leaf where
  sym : Sym
  cnt : Nat
  deriving DecidableEq, Repr

/-- `bits64` of a leaf's binary64 key in BINARY64 mode, 0 in COUNT_EXACT (41_frequency R129, 42_tree_builder R141). -/
def leafPw (mode : WeightMode) (total c : Nat) : BitVec 64 :=
  match mode with
  | .countExact => 0
  | .binary64 => rne c total

/-- The ordering key by WEIGHT_MODE, as an exact natural: the count-weight, or the binary64 value in units of 2^-1074
(00_scope R10, 42_tree_builder R142). -/
def weightKey (mode : WeightMode) (cw : Nat) (pw : BitVec 64) : Nat :=
  match mode with
  | .countExact => cw
  | .binary64 => f64Scaled pw

/-- `key_leaf` (41_frequency R129). -/
def leafKey (mode : WeightMode) (total : Nat) (l : Leaf) : Nat :=
  weightKey mode l.cnt (leafPw mode total l.cnt)

/-- `stable_sort_asc` by `key_leaf` (00_scope R16): an insertion sort that puts an entry before every later entry of
an equal or greater key, so equal keys keep their order. -/
def sortLeaves (mode : WeightMode) (total : Nat) (ls : List Leaf) : List Leaf :=
  ls.insertionSort (fun x y => leafKey mode total x ≤ leafKey mode total y)

/-- The real entries in creation order: ORDER[0..NDIST) with their counts (41_frequency R127). A state with
NDIST > 128, which no run reaches, has the 128 entries ORDER holds (notes/assumptions/10.md). -/
def realLeaves (b : Block) : List Leaf :=
  (b.order.toList.take b.ndist.toNat).map (fun s => ⟨s, (atSym b.count s).toNat⟩)

/-- The synthetic symbol: `(ORDER[0] + 1) mod 128` when NDIST = 1, else none (41_frequency R127, R128). -/
def synthSym (b : Block) : Option Sym :=
  if b.ndist = 1 then some (atSym b.order 0 + 1) else none

/-- `E` with the synthetic entry appended before sorting (41_frequency R127, R128). -/
def listEntries (b : Block) : List Leaf :=
  match synthSym b with
  | some t => realLeaves b ++ [⟨t, 0⟩]
  | none => realLeaves b

/-- `L` of `freq_list()` (41_frequency R127). -/
def freqList (b : Block) : List Leaf :=
  sortLeaves b.cfg.weightMode b.total.toNat (listEntries b)

/-! ## The merge -/

/-- A node on a queue: its NODE index and the weights its key is taken from. -/
structure QEntry where
  idx : Nat
  cw : Nat
  pw : BitVec 64
  deriving DecidableEq, Repr

/-- `key(x)` (42_tree_builder R142). -/
def QEntry.key (mode : WeightMode) (q : QEntry) : Nat := weightKey mode q.cw q.pw

/-- The two FIFO queues, fronts first (42_tree_builder R140). -/
structure Queues where
  src : List QEntry
  mrg : List QEntry
  deriving DecidableEq, Repr

/-- `select()`: the front with the lower-or-equal key leaves its queue, ties favour SRC; with one queue empty, the
other's (42_tree_builder R142). None when both are empty. -/
def selectFront (mode : WeightMode) (q : Queues) : Option (QEntry × Queues) :=
  match q.src, q.mrg with
  | [], [] => none
  | x :: src, [] => some (x, { src := src, mrg := [] })
  | [], y :: mrg => some (y, { src := [], mrg := mrg })
  | x :: src, y :: mrg =>
    if x.key mode ≤ y.key mode then some (x, { src := src, mrg := y :: mrg })
    else some (y, { src := x :: src, mrg := mrg })

/-- A leaf as NODE holds it (42_tree_builder R141). -/
def leafNode (mode : WeightMode) (total : Nat) (l : Leaf) : Node :=
  { used := true, leaf := true, sym := l.sym, left := 0, right := 0
    cw := BitVec.ofNat 32 l.cnt, pw := leafPw mode total l.cnt }

/-- The PW of a merged node (42_tree_builder R143). -/
def mergedPw (mode : WeightMode) (a b : QEntry) : BitVec 64 :=
  match mode with
  | .countExact => 0
  | .binary64 => f64Add a.pw b.pw

/-- The queue entry of the node that merges `a` and `b` at index `k`: "the exact sum" (42_tree_builder R143). -/
def mergedEntry (mode : WeightMode) (k : Nat) (a b : QEntry) : QEntry :=
  { idx := k, cw := a.cw + b.cw, pw := mergedPw mode a b }

/-- `combine(a, b)`: the first-selected node becomes LEFT, the second RIGHT (42_tree_builder R143). -/
def combineNode (mode : WeightMode) (a b : QEntry) : Node :=
  { used := true, leaf := false, sym := 0, left := BitVec.ofNat 8 a.idx, right := BitVec.ofNat 8 b.idx
    cw := BitVec.ofNat 32 (a.cw + b.cw), pw := mergedPw mode a b }

/-- One merge: two separate selections, each on the fronts the one before left, and the new node on MRG
(42_tree_builder R142, R143). -/
def mergeOnce (mode : WeightMode) (k : Nat) (q : Queues) : Option (Node × Queues) :=
  match selectFront mode q with
  | none => none
  | some (a, q1) =>
    match selectFront mode q1 with
    | none => none
    | some (b, q2) =>
      some (combineNode mode a b, { src := q2.src, mrg := q2.mrg ++ [mergedEntry mode k a b] })

/-- The merge loop: at most `fuel` merges, from node index `k` on, ending when one node is left; the nodes written, in
order. With n leaves exactly n - 1 merges happen (42_tree_builder R144), so a fuel of n never runs out. -/
def mergeLoop (mode : WeightMode) : Nat → Nat → Queues → List Node
  | 0, _, _ => []
  | fuel + 1, k, q =>
    match mergeOnce mode k q with
    | none => []
    | some (nd, q') => nd :: mergeLoop mode fuel (k + 1) q'

/-- The leaves as SRC holds them at the start: indexes 0, 1, ... in sorted order (42_tree_builder R140, R146). -/
def startQueues (mode : WeightMode) (total : Nat) (ls : List Leaf) : Queues :=
  { src := ls.mapIdx (fun i l => ⟨i, l.cnt, leafPw mode total l.cnt⟩), mrg := [] }

/-- The nodes of the whole tree, by index: the leaves, then the merged nodes in creation order (42_tree_builder R146). -/
def treeNodes (mode : WeightMode) (total : Nat) (ls : List Leaf) : List Node :=
  ls.map (leafNode mode total) ++ mergeLoop mode ls.length ls.length (startQueues mode total ls)

/-- NODE as committed: entries not used hold all fields 0 (10_state R39, 42_tree_builder R146). -/
def nodeTable (nds : List Node) : Vector Node 256 := Vector.ofFn (fun i => nds.getD i.val Node.zero)

/-- The writes BUILD commits (42_tree_builder R141). -/
def buildCommit (b : Block) : Block :=
  let nds := treeNodes b.cfg.weightMode b.total.toNat (freqList b)
  { invalidateCodes b with
    node := nodeTable nds
    nleaf := BitVec.ofNat 8 (freqList b).length
    root := BitVec.ofNat 8 (nds.length - 1)
    synth := synthSym b
    treeValid := true }

/-- The pseudocode of BUILD (42_tree_builder R141). -/
def buildTree (b : Block) : Except Stop Commit :=
  let n := (freqList b).length
  if b.ndist = 0 then .error (.raise .emptyInput 0 0)
  else if n < 2 then .error (.raise .malformedFreqList (BitVec.ofNat 32 n) 0)
  else
    .ok ⟨buildCommit b, BitVec.ofNat 32 n,
      BitVec.ofNat 32 (treeNodes b.cfg.weightMode b.total.toNat (freqList b)).length⟩

/-- BUILD (42_tree_builder R141). -/
def execBuild (s : State) : Host.Outcome State Fault Refusal :=
  finish s (buildTree s.blk)

end Sys2Proof.Machine
end

