-- ==== Sys2Proof/Machine/Engine.lean ====
section
/-! DEFINITION. The engine's step (40_control R112): decode the latched word, execute it whole. -/

namespace Sys2Proof.Machine

/-- `engine_step()`: enabled exactly while PENDING holds a word; a word no row selects completes as illegal
(40_control R112, R115). With PENDING empty the engine has no step and nothing changes. -/
def engineStep (s : State) : Host.Outcome State Fault Refusal :=
  match s.blk.pending with
  | none => .next s
  | some w =>
    match decode w with
    | .error _ => execIllegal s
    | .ok i => exec i s

/-- Whose move is next: the front of the schedule; with nothing scheduled, the engine while it is busy, else the host
(20_memory R82, 40_control R117; notes/assumptions/2.md). -/
def nextMove (s : State) : Move :=
  match s.sched with
  | m :: _ => m
  | [] => if s.blk.pending.isSome then .engine else .host

/-- The state with the front of the schedule taken. -/
def popMove (s : State) : State := { s with sched := s.sched.tail }

/-- Latch a command as the host's write to CMD does (40_control R110), with nothing scheduled before the engine. -/
def latchCommand (s : State) (w : Word) : State :=
  { s with blk := { s.blk with pending := some w }, sched := [] }

end Sys2Proof.Machine
end

