-- ==== Sys2Proof/Machine/Flags.lean ====
section
/-! DEFINITION. The error codes as numbers and the STATUS flags (10_state R23, R24, R51; 60_exceptions R210). -/

namespace Sys2Proof.Machine

/-- The number of an error code (60_exceptions R210). -/
def ErrCode.code : ErrCode → BitVec 8
  | .none => 0x00
  | .emptyInput => 0x01
  | .malformedFreqList => 0x02
  | .emptyTree => 0x03
  | .invalidBitChar => 0x04
  | .truncatedStream => 0x05
  | .corruptTreeWalk => 0x06
  | .fileIo => 0x07
  | .illegalCommand => 0x08
  | .capacity => 0x09
  | .unmappedSymbol => 0x0A
  | .symbolRange => 0x0B
  | .codeTableAbsent => 0x0C

/-- STATUS.BUSY: "1 exactly when PENDING is not empty" (10_state R20). -/
def busy (b : Block) : Bool := b.pending.isSome

/-- STATUS.ERR: "reads as 1 exactly when ERROR.CODE != 0" (10_state R23). -/
def errFlag (b : Block) : Bool := b.error.code != 0

/-- A STATUS word from its six fields; bits 31:6 are reserved and read 0 (10_state R23). -/
def statusBits (busy err overrun anomaly treeValid codesValid : Bool) : Word :=
  0#26 ++ BitVec.ofBool codesValid ++ BitVec.ofBool treeValid ++ BitVec.ofBool anomaly ++ BitVec.ofBool overrun ++
    BitVec.ofBool err ++ BitVec.ofBool busy

/-- STATUS as read with BUSY = 0 (10_state R23). -/
def statusWord (b : Block) : Word :=
  statusBits (busy b) (errFlag b) b.overrun b.anomaly b.treeValid b.codesValid

/-- STATUS as read with BUSY = 1: BUSY and OVERRUN are defined, "bits 1 and 3 to 5 undetermined" (40_control R111), so
they come from the free value of the read; the reserved bits read 0 (notes/assumptions/8.md). -/
def statusWordBusy (b : Block) (draw : Word) : Word :=
  statusBits true (draw.getLsbD 1) b.overrun (draw.getLsbD 3) (draw.getLsbD 4) (draw.getLsbD 5)

end Sys2Proof.Machine
end

