-- ==== Sys2Proof/Machine/Port.lean ====
section
/-! DEFINITION. The host port: address map, window layouts, and what one 32-bit access does (20_memory R60 to R88,
40_control R110, R111). -/

namespace Sys2Proof.Machine

/-! ## The address map -/

/-- The control registers (20_memory R73). -/
inductive Reg where
  | id | param0 | param1 | param2 | status | error | cmd | arg | result0 | result1
  | inLen | outLen | bitLen | pkLen | total | ndist | nleaf | root | synth
  deriving DecidableEq, Repr

/-- The control registers in offset order, 0x000, 0x004, ..., 0x048 (20_memory R73). -/
def Reg.all : List Reg :=
  [.id, .param0, .param1, .param2, .status, .error, .cmd, .arg, .result0, .result1,
   .inLen, .outLen, .bitLen, .pkLen, .total, .ndist, .nleaf, .root, .synth]

/-- The byte offset of a control register (20_memory R73). -/
def Reg.offset : Reg → Nat
  | .id => 0x000
  | .param0 => 0x004
  | .param1 => 0x008
  | .param2 => 0x00C
  | .status => 0x010
  | .error => 0x014
  | .cmd => 0x018
  | .arg => 0x01C
  | .result0 => 0x020
  | .result1 => 0x024
  | .inLen => 0x028
  | .outLen => 0x02C
  | .bitLen => 0x030
  | .pkLen => 0x034
  | .total => 0x038
  | .ndist => 0x03C
  | .nleaf => 0x040
  | .root => 0x044
  | .synth => 0x048

/-- The register at an offset; offsets 0x04C to 0xFFC are reserved (20_memory R73). -/
def Reg.ofOffset (a : Nat) : Option Reg := Reg.all.find? (fun r => r.offset == a)

/-- What an aligned offset names (20_memory R72): a register, or a word of a window. -/
inductive Target where
  | reg (r : Reg)
  /-- COUNTW word `s` (20_memory R74). -/
  | countw (s : Sym)
  /-- ORDERW word `i` (20_memory R74). -/
  | orderw (i : BitVec 7)
  /-- NODEW entry `k`, word `w` of 4 (20_memory R75). -/
  | nodew (k : BitVec 8) (w : BitVec 2)
  /-- CODEW entry `s`, word `w` of 8 (20_memory R76). -/
  | codew (s : Sym) (w : BitVec 3)
  /-- INBUF word `n` (20_memory R77). -/
  | inbuf (n : Nat)
  /-- OUTBUF word `n` (20_memory R77). -/
  | outbuf (n : Nat)
  /-- BITBUF word `n` (20_memory R77). -/
  | bitbuf (n : Nat)
  /-- PKBUF word `n` (20_memory R77). -/
  | pkbuf (n : Nat)
  deriving DecidableEq, Repr

/-- Word `n` of a window, if the buffer's storage has it (20_memory R77). -/
def windowWord (words : Nat) (mk : Nat → Target) (n : Nat) : Option Target :=
  if n < words then some (mk n) else none

/-- The address map of 20_memory R72 with the checks of R62, R73 and R77: none for a misaligned offset, a reserved one,
and one beyond a buffer's capacity. -/
def decodeOffset (p : Params) (off : Offset) : Option Target :=
  let a := off.toNat
  if a % 4 ≠ 0 then none
  else if a < 0x01000 then (Reg.ofOffset a).map Target.reg
  else if a < 0x01200 then some (.countw (BitVec.ofNat 7 ((a - 0x01000) / 4)))
  else if a < 0x01400 then some (.orderw (BitVec.ofNat 7 ((a - 0x01200) / 4)))
  else if a < 0x02000 then none
  else if a < 0x03000 then some (.nodew (BitVec.ofNat 8 ((a - 0x02000) / 16)) (BitVec.ofNat 2 (a / 4)))
  else if a < 0x04000 then some (.codew (BitVec.ofNat 7 ((a - 0x03000) / 32)) (BitVec.ofNat 3 (a / 4)))
  else if a < 0x10000 then none
  else if a < 0x20000 then windowWord (ceilDiv p.maxSyms 4) .inbuf ((a - 0x10000) / 4)
  else if a < 0x30000 then windowWord (ceilDiv p.maxSyms 4) .outbuf ((a - 0x20000) / 4)
  else if a < 0x40000 then none
  else if a < 0x80000 then windowWord (p.maxBits / 32) .bitbuf ((a - 0x40000) / 4)
  else if a < 0xC0000 then windowWord (maxPk p / 4) .pkbuf ((a - 0x80000) / 4)
  else none

/-! ## Reads with BUSY = 0 -/

/-- `WEIGHT_MODE` as PARAM2 shows it (10_state R22). -/
def weightModeBit : WeightMode → Word
  | .countExact => 0
  | .binary64 => 1

/-- SYNTH: bit 8 PRESENT, bits 6:0 SYM; 0 when absent (10_state R36). -/
def synthWord : Option Sym → Word
  | none => 0
  | some t => 0x100#32 ||| t.setWidth 32

/-- A control register as read with BUSY = 0 (10_state R21 to R36). CMD reads 0 (R25). -/
def readReg (b : Block) : Reg → Word
  | .id => 0x48554646
  | .param0 => BitVec.ofNat 32 b.cfg.maxSyms
  | .param1 => BitVec.ofNat 32 b.cfg.maxBits
  | .param2 => weightModeBit b.cfg.weightMode
  | .status => statusWord b
  | .error => b.error.code.setWidth 32
  | .cmd => 0
  | .arg => b.arg
  | .result0 => b.result0
  | .result1 => b.result1
  | .inLen => b.inLen
  | .outLen => b.outLen
  | .bitLen => b.bitLen
  | .pkLen => b.pkLen
  | .total => b.total
  | .ndist => b.ndist.setWidth 32
  | .nleaf => b.nleaf.setWidth 32
  | .root => b.root.setWidth 32
  | .synth => synthWord b.synth

/-- Word `w` of a NODEW entry (20_memory R75). -/
def nodeWord (nd : Node) (w : BitVec 2) : Word :=
  match w.toNat with
  | 0 => BitVec.ofBool nd.used ++ BitVec.ofBool nd.leaf ++ 0#7 ++ nd.sym ++ nd.left ++ nd.right
  | 1 => nd.cw
  | 2 => nd.pw.extractLsb' 32 32
  | _ => nd.pw.extractLsb' 0 32

/-- Word `w` of a CODEW entry (20_memory R76): word 0 is VALID and LEN, words 1 to 4 are BITS with bit 0 of word 4
zero, words 5 to 7 are 0. -/
def codeWord (e : CodeEntry) (w : BitVec 3) : Word :=
  let bits : BitVec 128 := e.bits ++ 0#1
  match w.toNat with
  | 0 => BitVec.ofBool e.valid ++ 0#23 ++ e.len
  | 1 => bits.extractLsb' 96 32
  | 2 => bits.extractLsb' 64 32
  | 3 => bits.extractLsb' 32 32
  | 4 => bits.extractLsb' 0 32
  | _ => 0

/-- Byte cell `4n + t` as a host read shows it: its value, or the free bits of that lane when it is unwritten
(20_memory R78). -/
def byteLane (m : Memory Byte) (n t : Nat) (draw : Word) : Byte :=
  (Memory.get m (4 * n + t)).getD (laneOf draw t)

/-- Word `n` of a byte buffer, big-endian lanes (20_memory R67, R78). -/
def readByteWord (m : Memory Byte) (n : Nat) (draw : Word) : Word :=
  wordOfBytes (byteLane m n 0 draw) (byteLane m n 1 draw) (byteLane m n 2 draw) (byteLane m n 3 draw)

/-- Word `n` of BITBUF, most significant bit first; an unwritten cell shows the free bit at its place
(20_memory R68, R78). -/
def readBitWord (m : Memory Bool) (n : Nat) (draw : Word) : Word :=
  msbBits 32 (fun j => (Memory.get m (32 * n + j)).getD (draw.getMsbD j))

/-- A location as read with BUSY = 0; `draw` is the free value of the read. -/
def readTarget (b : Block) (draw : Word) : Target → Word
  | .reg r => readReg b r
  | .countw s => atSym b.count s
  | .orderw i => (atSym b.order i).setWidth 32
  | .nodew k w => nodeWord (atNode b.node k) w
  | .codew s w => codeWord (atSym b.code s) w
  | .inbuf n => readByteWord b.inbuf n draw
  | .outbuf n => readByteWord b.outbuf n draw
  | .bitbuf n => readBitWord b.bitbuf n draw
  | .pkbuf n => readByteWord b.pkbuf n draw

/-! ## Reads with BUSY = 1 -/

/-- A location as read with BUSY = 1: the constants, the two defined STATUS bits, and the free value everywhere else
(40_control R111; CMD: notes/assumptions/8.md). -/
def readTargetBusy (b : Block) (draw : Word) : Target → Word
  | .reg .id => readReg b .id
  | .reg .param0 => readReg b .param0
  | .reg .param1 => readReg b .param1
  | .reg .param2 => readReg b .param2
  | .reg .status => statusWordBusy b draw
  | _ => draw

/-! ## Writes -/

/-- Write the four byte cells of word `n` (20_memory R66, R67). -/
def writeByteWord (m : Memory Byte) (n : Nat) (v : Word) : Memory Byte :=
  Memory.setRange m (4 * n) [laneOf v 0, laneOf v 1, laneOf v 2, laneOf v 3]

/-- Write the 32 bit cells of word `n` (20_memory R66, R68). -/
def writeBitWord (m : Memory Bool) (n : Nat) (v : Word) : Memory Bool :=
  Memory.setRange m (32 * n) (bitsOf v)

/-- What a write with BUSY = 0 does to a writable location; none for a read-only one (20_memory R63, R64, R72, R73).
A write to CMD latches the word, unchecked (40_control R110). -/
def writeTarget (b : Block) (v : Word) : Target → Option Block
  | .reg .cmd => some { b with pending := some v }
  | .reg .arg => some { b with arg := v }
  | .reg .inLen => some { b with inLen := v }
  | .reg .bitLen => some { b with bitLen := v }
  | .reg .pkLen => some { b with pkLen := v }
  | .inbuf n => some { b with inbuf := writeByteWord b.inbuf n v }
  | .bitbuf n => some { b with bitbuf := writeBitWord b.bitbuf n v }
  | .pkbuf n => some { b with pkbuf := writeByteWord b.pkbuf n v }
  | _ => none

/-! ## Accesses -/

/-- The two responses of the port (20_memory R63). -/
inductive Response (α : Type) where
  | okay (a : α)
  | slverr
  deriving DecidableEq, Repr

/-- All four byte lanes, the only access width (20_memory R61). -/
def allLanes : BitVec 4 := 0xF

/-- What an access reaches, if the port accepts its lanes and its offset (20_memory R61 to R63). -/
def accessTarget (b : Block) (off : Offset) (lanes : BitVec 4) : Option Target :=
  if lanes = allLanes then decodeOffset b.cfg off else none

/-- A host read (20_memory R63, R64, 40_control R111): its data or SLVERR. It has no block to return, since reads have
no side effects. -/
def busRead (b : Block) (off : Offset) (lanes : BitVec 4) (draw : Word) : Response Word :=
  match accessTarget b off lanes with
  | none => .slverr
  | some t => .okay (if busy b then readTargetBusy b draw t else readTarget b draw t)

/-- A host write (20_memory R63, 40_control R110, R111): with BUSY = 1 a write to a writable location is discarded and
sets OVERRUN; SLVERR has no effect on any state. -/
def busWrite (b : Block) (off : Offset) (lanes : BitVec 4) (v : Word) : Response Block :=
  match accessTarget b off lanes with
  | none => .slverr
  | some t =>
    match writeTarget b v t with
    | none => .slverr
    | some b' => .okay (if busy b then { b with overrun := true } else b')

end Sys2Proof.Machine
end

