-- ==== Sys2Proof/Machine/HostAgent.lean ====
section
/-! DEFINITION. The host agent (70_reset R263): one statement, one port access, one step; and the notation its programs
are written in (30_encoding R97, R98). -/

namespace Sys2Proof.Machine

/-! ## Executing one statement -/

/-- `<value>` of a `W` or a CHECK, or the name that no read has bound (30_encoding R97, R98). -/
def hostValue (h : HostAgent) : HostVal → Except Nat Word
  | .lit w => .ok w
  | .name n =>
    match Memory.get h.vars n with
    | some w => .ok w
    | none => .error n

/-- The free value of the next host read. Every read has one of its own (20_memory R78). -/
def nextDraw (s : State) : Word := Config.freeWord s.draws

/-- After a read of `data`: it is the latest read, and the read's free value is spent. -/
def afterRead (s : State) (data : Word) : State :=
  { s with host := { s.host with rdata := some data }, draws := s.draws + 1 }

/-- Go on with the rest of the program. -/
def withProg (s : State) (prog : List HostStmt) : State :=
  { s with host := { s.host with prog := prog } }

/-- `R <loc> -> v` names the value read, in place of an earlier value of the name (30_encoding R97;
notes/assumptions/15.md). -/
def bindName (s : State) (data : Word) : Option Nat → State
  | none => s
  | some n => { s with host := { s.host with vars := Memory.set s.host.vars n data } }

/-- CHECK records a mismatch (30_encoding R98; notes/assumptions/16.md). -/
def noteCheck (s : State) (ok : Bool) : State :=
  { s with host := { s.host with checkFailed := s.host.checkFailed || !ok } }

/-- One step of the host: the front statement makes its one access. SLVERR is the fault BUS_ERROR (60_exceptions R216).
WAIT stays in front until the STATUS it reads has bit 0 clear (30_encoding R98). WAIT and CHECK bind no name
(notes/assumptions/27.md). A host with no statement left has nothing to do. -/
def hostStep (s : State) : Host.Outcome State Fault Refusal :=
  match s.host.prog with
  | [] => .next s
  | .write off lanes v :: rest =>
    match hostValue s.host v with
    | .error n => .refused (.unboundName n)
    | .ok w =>
      match busWrite s.blk off lanes w with
      | .slverr => .fault .busError
      | .okay b => .next (withProg { s with blk := b } rest)
  | .read off lanes name :: rest =>
    match busRead s.blk off lanes (nextDraw s) with
    | .slverr => .fault .busError
    | .okay data => .next (withProg (bindName (afterRead s data) data name) rest)
  | .wait :: rest =>
    match busRead s.blk (BitVec.ofNat 20 Reg.status.offset) allLanes (nextDraw s) with
    | .slverr => .fault .busError
    | .okay data =>
      if data.getLsbD 0 then .next (afterRead s data) else .next (withProg (afterRead s data) rest)
  | .check off v :: rest =>
    match hostValue s.host v with
    | .error n => .refused (.unboundName n)
    | .ok w =>
      match busRead s.blk off allLanes (nextDraw s) with
      | .slverr => .fault .busError
      | .okay data => .next (withProg (noteCheck (afterRead s data) (data == w)) rest)

/-! ## Programs

A program uses a name only after a read of the same program bound it. -/

/-- Whether a value can be had when the names `bound` are bound. -/
def HostVal.isBound (bound : List Nat) : HostVal → Bool
  | .lit _ => true
  | .name n => bound.contains n

/-- Whether every named value a program uses is bound when it is used; `bound` are the names bound before it. -/
def namesBound (bound : List Nat) : List HostStmt → Bool
  | [] => true
  | .write _ _ v :: rest => v.isBound bound && namesBound bound rest
  | .read _ _ none :: rest => namesBound bound rest
  | .read _ _ (some n) :: rest => namesBound (n :: bound) rest
  | .wait :: rest => namesBound bound rest
  | .check _ v :: rest => v.isBound bound && namesBound bound rest

/-- A host's remaining program is well-formed with the names it has bound so far. -/
def HostAgent.wellFormed (h : HostAgent) : Bool := namesBound (h.vars.map Prod.fst) h.prog

/-! ## Notation (30_encoding R97) -/

/-- A window word in the notation's form, `INBUF.w[n]` and so on (30_encoding R97). -/
inductive Window where
  | inbuf | outbuf | bitbuf | pkbuf | countw | orderw | nodew | codew
  deriving DecidableEq, Repr

/-- The base offset of a window (20_memory R72). -/
def Window.base : Window → Nat
  | .inbuf => 0x10000
  | .outbuf => 0x20000
  | .bitbuf => 0x40000
  | .pkbuf => 0x80000
  | .countw => 0x01000
  | .orderw => 0x01200
  | .nodew => 0x02000
  | .codew => 0x03000

/-- `<loc>`: a register name or a window word (30_encoding R97). -/
inductive Loc where
  | reg (r : Reg)
  | word (w : Window) (n : Nat)
  deriving DecidableEq, Repr

/-- Whether the offset of a location is one of the 1 MiB window. The spec gives a window word whose `base + 4n` is not
no meaning. -/
def Loc.fits : Loc → Bool
  | .reg _ => true
  | .word w n => decide (w.base + 4 * n < 2 ^ 20)

/-- `offset(loc)`: "offset base + 4n" (30_encoding R97). DESIGN CHOICE: where `Loc.fits` fails the sum is taken modulo
2^20 (notes/assumptions/28.md). -/
def Loc.offset : Loc → Offset
  | .reg r => BitVec.ofNat 20 r.offset
  | .word w n => BitVec.ofNat 20 (w.base + 4 * n)

/-- `W <loc>, <value>` with any value (30_encoding R97). -/
def stWVal (l : Loc) (v : HostVal) : HostStmt := .write l.offset allLanes v

/-- `W <loc>, <value>` with a number (30_encoding R97). -/
def stW (l : Loc) (v : Word) : HostStmt := stWVal l (.lit v)

/-- `W <loc>, v` with `v` the name of an earlier read (30_encoding R97). -/
def stWName (l : Loc) (n : Nat) : HostStmt := stWVal l (.name n)

/-- `R <loc>` (30_encoding R97). -/
def stR (l : Loc) : HostStmt := .read l.offset allLanes none

/-- `R <loc> -> v` (30_encoding R97). -/
def stRName (l : Loc) (n : Nat) : HostStmt := .read l.offset allLanes (some n)

/-- `C <MNEMONIC>` and `C FREQ_LOAD <sym>` (30_encoding R97). -/
def stC (i : Instr) : HostStmt := stW (.reg .cmd) (encode i)

/-- `X <MNEMONIC> [sym]`: C and then WAIT (30_encoding R98). -/
def stX (i : Instr) : List HostStmt := [stC i, .wait]

/-- `CHECK <loc> = <value>` (30_encoding R98). -/
def stCheck (l : Loc) (v : HostVal) : HostStmt := .check l.offset v

/-- The word of bytes 4n to 4n + 3 of a list, "0 in lanes past the end" (30_encoding R98). -/
def bytesWord (bs : List Byte) (n : Nat) : Word :=
  wordOfBytes (bs.getD (4 * n) 0) (bs.getD (4 * n + 1) 0) (bs.getD (4 * n + 2) 0) (bs.getD (4 * n + 3) 0)

/-- `LOADSYMS "<text>"` (30_encoding R98). -/
def loadSyms (text : List Byte) : List HostStmt :=
  (List.range (ceilDiv text.length 4)).map (fun n => stW (.word .inbuf n) (bytesWord text n)) ++
    [stW (.reg .inLen) (BitVec.ofNat 32 text.length)]

/-- `LOADBYTES b0 b1 ...` (30_encoding R98). -/
def loadBytes (bs : List Byte) : List HostStmt :=
  (List.range (ceilDiv bs.length 4)).map (fun n => stW (.word .pkbuf n) (bytesWord bs n)) ++
    [stW (.reg .pkLen) (BitVec.ofNat 32 bs.length)]

/-- `LOADBITS "<bits>"` (30_encoding R98). -/
def loadBits (bs : List Bool) : List HostStmt :=
  (List.range (ceilDiv bs.length 32)).map
      (fun n => stW (.word .bitbuf n) (msbBits 32 (fun j => bs.getD (32 * n + j) false))) ++
    [stW (.reg .bitLen) (BitVec.ofNat 32 bs.length)]

/-- `LOADFREQ (s0,c0) (s1,c1) ...`, each count a number or a named value (30_encoding R98). -/
def loadFreq (pairs : List (Sym × HostVal)) : List HostStmt :=
  pairs.flatMap (fun p => stWVal (.reg .arg) p.2 :: stX (.freqLoad p.1))

/-! ## The two sequences of 70_reset_and_hazards

The reads whose locations depend on values read before (how many words a file has, which symbols a table has) take these
values as arguments. -/

/-- A command with "an ERROR check" after it (70_reset R245, R253). -/
def stXChecked (i : Instr) : List HostStmt := stX i ++ [stCheck (.reg .error) (.lit 0)]

/-- The encode sequence up to the compressed file's length (70_reset R245). -/
def encodeSequence (text : List Byte) : List HostStmt :=
  stXChecked .clear ++ loadSyms text ++ stXChecked .freqScan ++ stXChecked .build ++ stXChecked .genCodes ++
    stXChecked .encode ++ stXChecked .pack ++ [stR (.reg .pkLen)]

/-- Read the compressed file of `len` bytes (70_reset R245). -/
def readFile (len : Nat) : List HostStmt := (List.range (ceilDiv len 4)).map (fun n => stR (.word .pkbuf n))

/-- Read the table to transmit, whose ORDER list is `order` (70_reset R245, R255). -/
def readTable (order : List Sym) : List HostStmt :=
  stR (.reg .ndist) :: (List.range order.length).map (fun n => stR (.word .orderw n)) ++
    order.map (fun s => stR (.word .countw s.toNat))

/-- The decode sequence of `m` symbols from a transmitted table and a file (70_reset R246). -/
def decodeSequence (table : List (Sym × HostVal)) (file : List Byte) (m : Word) : List HostStmt :=
  stXChecked .clear ++ loadFreq table ++ stXChecked .build ++ loadBytes file ++ stXChecked .unpack ++
    [stR (.reg .status), stW (.reg .arg) m] ++ stXChecked .decode ++
    (List.range (ceilDiv m.toNat 4)).map (fun n => stR (.word .outbuf n))

end Sys2Proof.Machine
end

