-- ==== Sys2Proof/Machine/Step.lean ====
section
/-! DEFINITION. One step of the machine: one atomic step of the interleaving of host accesses and whole commands
(20_memory R82), or a reset (70_reset R242). -/

namespace Sys2Proof.Machine

/-- One step. -/
def step (s : State) : Host.Outcome State Fault Refusal :=
  match nextMove s with
  | .engine => engineStep (popMove s)
  | .host => hostStep (popMove s)
  | .reset => .next (assertReset (popMove s))

/-- `s` with the table's word latched in PENDING, so that the next step executes it. The block fetches nothing
(10_state R20): a command comes from the host's write to CMD, which this stands for (notes/assumptions/3.md). -/
def State.withFetchWord (s : State) (nbits w : Nat) : State :=
  latchCommand s (commandWord nbits w)

end Sys2Proof.Machine
end

