-- ==== Sys2Proof/Safety.lean ====
section
/-! DEFINITION. What counts as a good state: the invariants of 10_state and 42_tree_builder, and the terms the claims
use for inputs, paths and merge runs. Every one is over plain data and can be evaluated. -/

namespace Sys2Proof.Safety

open Sys2Proof.Machine

/-! ## Buffers (20_memory R77) -/

/-- The four buffers are in canonical form and hold no cell beyond their storage. -/
def MemoryInv (b : Block) : Prop :=
  Memory.wf b.inbuf = true ∧ Memory.wf b.outbuf = true ∧ Memory.wf b.bitbuf = true ∧ Memory.wf b.pkbuf = true ∧
  Memory.within (symCells b.cfg) b.inbuf = true ∧ Memory.within (symCells b.cfg) b.outbuf = true ∧
  Memory.within b.cfg.maxBits b.bitbuf = true ∧ Memory.within (maxPk b.cfg) b.pkbuf = true

/-- OUT_LEN never passes the capacity of OUTBUF (10_state R29, 45_decoder R196). -/
def OutLenInv (b : Block) : Prop := b.outLen.toNat ≤ b.cfg.maxSyms

/-! ## The frequency table (10_state R32, R33, R37, R38) -/

/-- `ORDER[0..NDIST)`. -/
def ordered (b : Block) : List Sym := b.order.toList.take b.ndist.toNat

/-- The sum of all COUNT entries. -/
def countSum (b : Block) : Nat := (b.count.toList.map BitVec.toNat).sum

/-- NDIST is at most 128; ORDER[0..NDIST) lists, each once, exactly the symbols with a non-zero count; the slots after
it hold 0; TOTAL is the sum of all counts. -/
def TableInv (b : Block) : Prop :=
  b.ndist.toNat ≤ 128 ∧
  (ordered b).Nodup ∧
  (∀ s : Sym, atSym b.count s ≠ 0 ↔ s ∈ ordered b) ∧
  (∀ i : BitVec 7, b.ndist.toNat ≤ i.toNat → atSym b.order i = 0) ∧
  b.total.toNat = countSum b

/-! ## The tree (10_state R34 to R36, R39, R40, R45; 42_tree_builder R146) -/

/-- The internal nodes that have `k` as a child. -/
def parents (b : Block) (k : BitVec 8) : List Nat :=
  (List.range 256).filter (fun p =>
    let nd := atNode b.node (BitVec.ofNat 8 p)
    nd.used && !nd.leaf && (nd.left == k || nd.right == k))

/-- Whether `s` is the symbol of a leaf of the current tree: a symbol of the table, or the synthetic one. -/
def isLeafSym (b : Block) (s : Sym) : Bool := decide (s ∈ ordered b) || b.synth == some s

/-- The numbering of 42_tree_builder R146: leaves 0 to NLEAF-1, internal nodes NLEAF to 2*NLEAF-2, the rest all-zero;
ROOT is the last node. -/
def TreeNumbering (b : Block) : Prop :=
  2 ≤ b.nleaf.toNat ∧ b.nleaf.toNat ≤ 128 ∧ b.root.toNat = 2 * b.nleaf.toNat - 2 ∧
  (∀ k : BitVec 8, (atNode b.node k).used = decide (k.toNat < 2 * b.nleaf.toNat - 1)) ∧
  (∀ k : BitVec 8, (atNode b.node k).leaf = decide (k.toNat < b.nleaf.toNat)) ∧
  (∀ k : BitVec 8, 2 * b.nleaf.toNat - 1 ≤ k.toNat → atNode b.node k = Node.zero)

/-- The structure of 10_state R40: a leaf has no children; an internal node has no symbol and two different children
with smaller indexes; every used node but the root is the child of exactly one internal node. -/
def TreeStructure (b : Block) : Prop :=
  (∀ k : BitVec 8, (atNode b.node k).leaf = true → (atNode b.node k).left = 0 ∧ (atNode b.node k).right = 0) ∧
  (∀ k : BitVec 8, (atNode b.node k).used = true → (atNode b.node k).leaf = false →
    (atNode b.node k).sym = 0 ∧ (atNode b.node k).left.toNat < k.toNat ∧ (atNode b.node k).right.toNat < k.toNat ∧
      (atNode b.node k).left ≠ (atNode b.node k).right) ∧
  (∀ k : BitVec 8, k.toNat < b.root.toNat → (parents b k).length = 1)

/-- The leaves are the symbols of the table and the synthetic one, each once (10_state R34, R36, R40;
41_frequency R128, R132). -/
def TreeLeaves (b : Block) : Prop :=
  b.ndist ≠ 0 ∧ b.synth = synthSym b ∧
  b.nleaf.toNat = b.ndist.toNat + (if b.synth.isSome then 1 else 0) ∧
  (∀ j k : BitVec 8, (atNode b.node j).leaf = true → (atNode b.node k).leaf = true →
    (atNode b.node j).sym = (atNode b.node k).sym → j = k) ∧
  (∀ k : BitVec 8, (atNode b.node k).leaf = true → isLeafSym b (atNode b.node k).sym = true) ∧
  (∀ s : Sym, isLeafSym b s = true → ∃ k : BitVec 8, (atNode b.node k).leaf = true ∧ (atNode b.node k).sym = s)

/-- The count-weights (10_state R39, 42_tree_builder R147): a leaf's is its COUNT, an internal node's the exact sum of
its children's, the root's TOTAL. -/
def TreeWeights (b : Block) : Prop :=
  (∀ k : BitVec 8, (atNode b.node k).leaf = true → (atNode b.node k).cw = atSym b.count (atNode b.node k).sym) ∧
  (∀ k : BitVec 8, (atNode b.node k).used = true → (atNode b.node k).leaf = false →
    (atNode b.node k).cw.toNat =
      (atNode b.node (atNode b.node k).left).cw.toNat + (atNode b.node (atNode b.node k).right).cw.toNat) ∧
  (atNode b.node b.root).cw = b.total

/-- What `invalidate_tree()` leaves (10_state R45). -/
def NoTree (b : Block) : Prop :=
  b.node = Vector.replicate 256 Node.zero ∧ b.nleaf = 0 ∧ b.root = 0 ∧ b.synth = none

/-- With TREE_VALID = 1 NODE holds a complete tree of the current table; with TREE_VALID = 0 nothing. -/
def TreeInv (b : Block) : Prop :=
  if b.treeValid then TreeNumbering b ∧ TreeStructure b ∧ TreeLeaves b ∧ TreeWeights b else NoTree b

/-! ## The code table (10_state R41, R46; 43_code_table R162, R166) -/

/-- The symbol a path leads to: from node `k`, each bit descends one level through a used node, and the path ends
exactly at the first leaf it meets (43_code_table R162, 45_decoder R197). -/
def leadsTo (nodes : Vector Node 256) (k : BitVec 8) : List Bool → Option Sym
  | [] => if (atNode nodes k).leaf then some (atNode nodes k).sym else none
  | bit :: path =>
    if (atNode nodes k).leaf then none
    else
      let nxt := Sys2Proof.Machine.childOf (atNode nodes k) bit
      if (atNode nodes nxt).used then leadsTo nodes nxt path else none

/-- The entry of a leaf symbol is its path from the root, 1 to 127 bits long; any other symbol's entry is absent. -/
def EntryOk (b : Block) (s : Sym) : Prop :=
  if isLeafSym b s then
    atSym b.code s = CodeEntry.ofPath (atSym b.code s).path ∧
    leadsTo b.node b.root (atSym b.code s).path = some s ∧
    1 ≤ (atSym b.code s).path.length ∧ (atSym b.code s).path.length ≤ 127
  else atSym b.code s = CodeEntry.absent

/-- With CODES_VALID = 1 there is a tree and CODE is its code table; with CODES_VALID = 0 every entry is absent. -/
def CodesInv (b : Block) : Prop :=
  if b.codesValid then b.treeValid = true ∧ ∀ s : Sym, EntryOk b s
  else b.code = Vector.replicate 128 CodeEntry.absent

/-! ## Error codes (60_exceptions R220) -/

/-- The codes no reachable state holds: INVALID_BIT_CHAR, CORRUPT_TREE_WALK and FILE_IO. -/
def ErrorInv (b : Block) : Prop :=
  b.error ≠ .invalidBitChar ∧ b.error ≠ .corruptTreeWalk ∧ b.error ≠ .fileIo

/-- Everything together: what every state reached from reset is. -/
def BlockInv (b : Block) : Prop :=
  b.cfg.wellFormed = true ∧ MemoryInv b ∧ OutLenInv b ∧ TableInv b ∧ TreeInv b ∧ CodesInv b ∧ ErrorInv b

/-! ## Inputs and outputs of commands -/

/-- The first cells of a memory hold the values of a list, in order. -/
def Holds {α : Type} (m : Memory α) (vs : List α) : Prop :=
  ∀ i : Nat, i < vs.length → Memory.get m i = vs[i]?

/-- `INBUF[0..IN_LEN)` is the symbol stream `ss`, of 1 to MAX_SYMS symbols. -/
def InputIs (b : Block) (ss : List Sym) : Prop :=
  b.inLen.toNat = ss.length ∧ 1 ≤ ss.length ∧ ss.length ≤ b.cfg.maxSyms ∧
  Holds b.inbuf (ss.map (fun s => s.setWidth 8))

/-- `BITBUF[0..BIT_LEN)` is the bitstring `bs`, of at most MAX_BITS bits. -/
def BitsAre (b : Block) (bs : List Bool) : Prop :=
  b.bitLen.toNat = bs.length ∧ bs.length ≤ b.cfg.maxBits ∧ Holds b.bitbuf bs

/-- `PKBUF[0..PK_LEN)` is the byte list `bytes`, of at most MAX_PK bytes. -/
def BytesAre (b : Block) (bytes : List Byte) : Prop :=
  b.pkLen.toNat = bytes.length ∧ bytes.length ≤ maxPk b.cfg ∧ Holds b.pkbuf bytes

/-- `bits` are the bits of `bytes`, each byte most significant bit first (44_bit_packing R180, R184). -/
def StreamOf (bytes : List Byte) (bits : List Bool) : Prop :=
  bits.length = 8 * bytes.length ∧
  ∀ k t : Nat, k < bytes.length → t < 8 → bits[8 * k + t]? = (bytes[k]?).map (fun v => v.getLsbD (7 - t))

/-- The bitstring of a stream: the concatenation of its symbols' codes (44_bit_packing R175). -/
def codeString (b : Block) (ss : List Sym) : List Bool := ss.flatMap (fun s => (atSym b.code s).path)

/-- Cells `len` up to the end of the last `w`-cell word hold `v`: the tail fill (44_bit_packing R183). -/
def TailIs {α : Type} (m : Memory α) (w len : Nat) (v : α) : Prop :=
  ∀ j : Nat, len ≤ j → j < w * ceilDiv len w → Memory.get m j = some v

/-- Cells at or after the end of the last `w`-cell word that `len` cells touch are as they were. -/
def LaterKept {α : Type} (m m' : Memory α) (w len : Nat) : Prop :=
  ∀ j : Nat, w * ceilDiv len w ≤ j → Memory.get m' j = Memory.get m j

/-- An error completion changes only ERROR, RESULT0, RESULT1 and PENDING (60_exceptions R211). -/
def failsWith (s : State) (code : ErrCode) (r0 r1 : Word) : Host.Outcome State Fault Refusal :=
  .next { s with blk := { s.blk with error := code, result0 := r0, result1 := r1, pending := none } }

/-- An error completion of DECODE also sets OUT_LEN to 0 (45_decoder R202). -/
def decodeFailsWith (s : State) (code : ErrCode) (r0 r1 : Word) : Host.Outcome State Fault Refusal :=
  .next { s with blk := { s.blk with error := code, result0 := r0, result1 := r1, pending := none, outLen := 0 } }

/-- The end of a run: "the host program has executed its last statement and STATUS.BUSY = 0" (40_control R118); a model
fault ends a run otherwise, as the outcome of a step. -/
def runEnded (s : State) : Bool := s.host.prog.isEmpty && !busy s.blk

/-! ## The port (20_memory R63, R72, R73, R77) -/

/-- The offsets the port accepts for a read, said by ranges: the 19 control registers, the four table windows, and the
words the buffers' storage has. -/
def readable (p : Params) (off : Offset) : Bool :=
  let a := off.toNat
  decide (a % 4 = 0) &&
    (decide (a ≤ 0x048) ||
      (decide (0x01000 ≤ a) && decide (a < 0x01400)) ||
      (decide (0x02000 ≤ a) && decide (a < 0x04000)) ||
      (decide (0x10000 ≤ a) && decide (a < 0x10000 + symCells p)) ||
      (decide (0x20000 ≤ a) && decide (a < 0x20000 + symCells p)) ||
      (decide (0x40000 ≤ a) && decide (a < 0x40000 + p.maxBits / 8)) ||
      (decide (0x80000 ≤ a) && decide (a < 0x80000 + maxPk p)))

/-- The offsets the port accepts for a write: CMD, ARG, IN_LEN, BIT_LEN, PK_LEN and the words of INBUF, BITBUF and
PKBUF. -/
def writable (p : Params) (off : Offset) : Bool :=
  let a := off.toNat
  readable p off &&
    (a == 0x018 || a == 0x01C || a == 0x028 || a == 0x030 || a == 0x034 ||
      (decide (0x10000 ≤ a) && decide (a < 0x20000)) || decide (0x40000 ≤ a))

/-! ## Merge runs (42_tree_builder R140 to R147) -/

/-- The queues after `m` merges that started with node index `k`; none when a merge found fewer than two nodes. -/
def queuesAfter (mode : WeightMode) : Nat → Nat → Queues → Option Queues
  | 0, _, q => some q
  | m + 1, k, q =>
    match mergeOnce mode k q with
    | none => none
    | some (_, q') => queuesAfter mode m (k + 1) q'

/-- The sum of the count-weights queued (42_tree_builder R147). -/
def queuedWeight (q : Queues) : Nat := ((q.src ++ q.mrg).map QEntry.cw).sum

end Sys2Proof.Safety
end

