-- ==== Sys2Proof/Certificates/Slice0/Obligations.lean ====
section
/-! DEFINITION. The statements for the provers: what the numbered rules of the spec say, over every state. -/

open Sys2Proof Sys2Proof.Machine Sys2Proof.Safety

/-! ## Encoding -/

/-- The example encodings of 30_encoding R99, legal and illegal. -/
def Obligations.SpecExampleWordsDecode : Prop :=
  decode 0x00000000 = .ok .nop ∧
  decode 0x00000004 = .ok .build ∧
  decode 0x00000009 = .ok .decode ∧
  decode 0x00006103 = .ok (.freqLoad 0x61) ∧
  decode 0x00007F03 = .ok (.freqLoad 127) ∧
  decode 0x0000000A = .error (.unknownOp 0x0A) ∧
  decode 0x00000104 = .error (.reservedBit 0x04) ∧
  decode 0x00008003 = .error (.reservedBit 0x03)

/-- The decoder accepts exactly the encoder's words, each as the instruction it encodes (30_encoding R92, R94): no bit
of an encoding is dropped, no word has two readings, no other word is accepted. -/
def Obligations.DecodeIsInverseOfEncode : Prop :=
  ∀ (w : Word) (i : Instr), decode w = .ok i ↔ w = encode i

/-- "at most one row selects a word; a word no row selects is ILLEGAL" (30_encoding R94). -/
def Obligations.OpcodeRowsSelectAtMostOne : Prop :=
  (∀ (w : Word) (i j : Fin opcodeRows.length),
    opcodeRows[i].selects w = true → opcodeRows[j].selects w = true → i = j) ∧
  (∀ (w : Word), (∀ i : Fin opcodeRows.length, opcodeRows[i].selects w = false) →
    ∃ e, decode w = .error e) ∧
  (∀ (w : Word) (i : Fin opcodeRows.length), opcodeRows[i].selects w = true →
    decode w = .ok (opcodeRows[i].build w)) ∧
  (∀ (w : Word) (x : Sym), decode w = .ok (.freqLoad x) → x = w.extractLsb' 8 7)

/-- The illegal words are those with OP 0x0A to 0xFF and those with a reserved bit set, said by fields (30_encoding
R95); executing one completes with ILLEGAL_COMMAND, RESULT0 = RESULT1 = 0, and changes nothing else (40_control R115).
-/
def Obligations.IllegalWordsCompleteAsIllegal : Prop :=
  (∀ w : Word, (∃ e, decode w = .error e) ↔ Word.legalCommand w = false) ∧
  (∀ (s : State) (w : Word), nextMove s = .engine → s.blk.pending = some w → Word.legalCommand w = false →
    step s = failsWith (popMove s) .illegalCommand 0 0)

/-! ## The step -/

/-- When it is the engine's move and the latched word decodes to `i`, a step is `exec i`; all the step adds is that the
move is taken from the schedule (40_control R112). At the host's move a step is the host's step in the same way
(20_memory R82, 70_reset R263). That moves come from a schedule, and that with nothing scheduled it is the engine's move
whenever a command is latched, are the model's choices (notes/assumptions/2.md). -/
def Obligations.StepRunsTheLatchedCommand : Prop :=
  (∀ (s : State) (w : Word) (i : Instr),
    nextMove s = .engine → s.blk.pending = some w → decode w = .ok i → step s = exec i (popMove s)) ∧
  (∀ s : State, nextMove s = .host → step s = hostStep (popMove s)) ∧
  (∀ (s : State) (w : Word), s.sched = [] → s.blk.pending = some w → nextMove s = .engine)

/-- "idle (BUSY = 0) is its only resting state, and all state survives idleness" (60_exceptions R231): with no command
latched, a move of the engine changes nothing but the schedule; after the end of a run (40_control R118) no move but a
reset does. That an agent with nothing to do takes a step, which changes only the schedule, is the model's choice
(notes/assumptions/21.md): the spec has no such step. -/
def Obligations.IdleBlockKeepsItsState : Prop :=
  ∀ s : State,
    (s.blk.pending = none → nextMove s = .engine → step s = .next (popMove s)) ∧
    (runEnded s = true → nextMove s ≠ .reset → step s = .next (popMove s))

/-- A reset, also while BUSY = 1, gives every piece of the block its power-on value: PENDING empty, every register and
table zero, every buffer cell unwritten; the configuration stays (70_reset R242, 10_state R53). That the host's
program, the rest of the schedule and the read counter stay as they are is the model's choice
(notes/assumptions/7.md). -/
def Obligations.ResetAbortsAndEmptiesEverything : Prop :=
  ∀ s : State, nextMove s = .reset →
    ∃ t : State, step s = .next t ∧ t.host = s.host ∧ t.sched = s.sched.tail ∧ t.draws = s.draws ∧
      t.blk.cfg = s.blk.cfg ∧ t.blk.pending = none ∧
      t.blk.overrun = false ∧ t.blk.anomaly = false ∧ t.blk.treeValid = false ∧ t.blk.codesValid = false ∧
      t.blk.error = .none ∧ t.blk.arg = 0 ∧ t.blk.result0 = 0 ∧ t.blk.result1 = 0 ∧
      t.blk.inLen = 0 ∧ t.blk.outLen = 0 ∧ t.blk.bitLen = 0 ∧ t.blk.pkLen = 0 ∧
      t.blk.total = 0 ∧ t.blk.ndist = 0 ∧ t.blk.nleaf = 0 ∧ t.blk.root = 0 ∧ t.blk.synth = none ∧
      (∀ x : Sym, atSym t.blk.count x = 0 ∧ atSym t.blk.order x = 0 ∧ atSym t.blk.code x = CodeEntry.absent) ∧
      (∀ k : BitVec 8, atNode t.blk.node k = Node.zero) ∧
      (∀ j : Nat, Memory.get t.blk.inbuf j = none ∧ Memory.get t.blk.outbuf j = none ∧
        Memory.get t.blk.bitbuf j = none ∧ Memory.get t.blk.pkbuf j = none)

/-- The state right after reset meets every invariant, and so does the power-on state of every configuration within the
limits of 00_scope R8 and R9. (The configuration of `State.reset` is the model's choice, notes/assumptions/1.md.) -/
def Obligations.ResetMeetsTheInvariants : Prop :=
  BlockInv State.reset.blk ∧ ∀ cfg : Params, cfg.wellFormed = true → BlockInv (Block.powerOn cfg)

/-! ## NOP and CLEAR -/

/-- NOP completes from every state, with ERROR, RESULT0 and RESULT1 zero, and changes nothing else
(40_control R113). -/
def Obligations.NopOnlyReportsSuccess : Prop :=
  ∀ s : State, exec .nop s =
    .next { s with blk := { s.blk with error := .none, result0 := 0, result1 := 0, pending := none } }

/-- CLEAR completes from every state; every register and table takes its power-on value, every buffer keeps its cells
and their written marks, the configuration stays (40_control R114). -/
def Obligations.ClearKeepsOnlyBuffers : Prop :=
  ∀ s : State, ∃ t : State, exec .clear s = .next t ∧
    t.blk.overrun = false ∧ t.blk.anomaly = false ∧ t.blk.treeValid = false ∧ t.blk.codesValid = false ∧
    t.blk.error = .none ∧ t.blk.arg = 0 ∧ t.blk.result0 = 0 ∧ t.blk.result1 = 0 ∧
    t.blk.inLen = 0 ∧ t.blk.outLen = 0 ∧ t.blk.bitLen = 0 ∧ t.blk.pkLen = 0 ∧
    t.blk.total = 0 ∧ t.blk.ndist = 0 ∧ t.blk.nleaf = 0 ∧ t.blk.root = 0 ∧ t.blk.synth = none ∧
    (∀ x : Sym, atSym t.blk.count x = 0 ∧ atSym t.blk.order x = 0 ∧ atSym t.blk.code x = CodeEntry.absent) ∧
    (∀ k : BitVec 8, atNode t.blk.node k = Node.zero) ∧
    t = { s with blk := { Block.powerOn s.blk.cfg with
      inbuf := s.blk.inbuf, outbuf := s.blk.outbuf, bitbuf := s.blk.bitbuf, pkbuf := s.blk.pkbuf } }

/-! ## The frequency table -/

/-- FREQ_SCAN of a written stream of 1 to MAX_SYMS symbols completes: COUNT holds each symbol's number of occurrences,
ORDER the distinct symbols in order of first appearance and then zeros, NDIST and TOTAL their numbers, RESULT0 and
RESULT1 the same; tree and codes are invalidated; nothing else changes (41_frequency R121, R123). -/
def Obligations.FreqScanCountsTheStream : Prop :=
  ∀ (s : State) (ss : List Sym), InputIs s.blk ss →
    ∃ t : State, exec .freqScan s = .next t ∧
      (∀ x : Sym, (atSym t.blk.count x).toNat = ss.count x) ∧
      t.blk.ndist.toNat = ss.dedup.length ∧
      (ordered t.blk).Nodup ∧ (∀ x : Sym, x ∈ ordered t.blk ↔ x ∈ ss) ∧
      (ordered t.blk).Pairwise (fun x y => ss.idxOf x < ss.idxOf y) ∧
      (∀ i : BitVec 7, t.blk.ndist.toNat ≤ i.toNat → atSym t.blk.order i = 0) ∧
      t.blk.total.toNat = ss.length ∧
      t.blk.error = .none ∧ t.blk.result0.toNat = t.blk.ndist.toNat ∧ t.blk.result1 = t.blk.total ∧
      t.blk.treeValid = false ∧ NoTree t.blk ∧
      t.blk.codesValid = false ∧ (∀ x : Sym, atSym t.blk.code x = CodeEntry.absent) ∧
      t = { s with blk := { s.blk with
        count := t.blk.count, order := t.blk.order, ndist := t.blk.ndist, total := t.blk.total
        node := t.blk.node, nleaf := t.blk.nleaf, root := t.blk.root, synth := t.blk.synth
        treeValid := t.blk.treeValid, code := t.blk.code, codesValid := t.blk.codesValid
        error := t.blk.error, result0 := t.blk.result0, result1 := t.blk.result1, pending := none } }

/-- FREQ_SCAN's checks in order: EMPTY_INPUT, CAPACITY, then at the first cell that is not a written symbol either the
model fault UNINIT or SYMBOL_RANGE with its index and value (41_frequency R121, R122; 60_exceptions R212;
20_memory R79). -/
def Obligations.FreqScanStopsInOrder : Prop :=
  ∀ s : State,
    (s.blk.inLen = 0 → exec .freqScan s = failsWith s .emptyInput 0 0) ∧
    (s.blk.inLen ≠ 0 → s.blk.cfg.maxSyms < s.blk.inLen.toNat → exec .freqScan s = failsWith s .capacity 0 0) ∧
    (∀ i : Nat, s.blk.inLen.toNat ≤ s.blk.cfg.maxSyms → i < s.blk.inLen.toNat →
      (∀ j : Nat, j < i → ∃ v, Memory.get s.blk.inbuf j = some v ∧ v.toNat < 128) →
      (Memory.get s.blk.inbuf i = none → exec .freqScan s = .fault (.uninit .inbuf i)) ∧
      (∀ v : Byte, Memory.get s.blk.inbuf i = some v → 128 ≤ v.toNat →
        exec .freqScan s = failsWith s .symbolRange (BitVec.ofNat 32 i) (v.setWidth 32)))

/-- FREQ_LOAD of a new symbol with a non-zero count that keeps TOTAL within 32 bits completes: COUNT[SYM] is ARG, SYM is
appended to ORDER at slot NDIST, NDIST and TOTAL grow by 1 and ARG without wrapping, RESULT0 and RESULT1 are the new
values; tree and codes are invalidated; nothing else changes (41_frequency R125, R126). -/
def Obligations.FreqLoadAppendsOneEntry : Prop :=
  ∀ (s : State) (sym : Sym), TableInv s.blk → s.blk.arg ≠ 0 → atSym s.blk.count sym = 0 →
    s.blk.total.toNat + s.blk.arg.toNat ≤ 2 ^ 32 - 1 →
    ∃ t : State, exec (.freqLoad sym) s = .next t ∧
      s.blk.ndist.toNat < 128 ∧
      atSym t.blk.count sym = s.blk.arg ∧ (∀ x : Sym, x ≠ sym → atSym t.blk.count x = atSym s.blk.count x) ∧
      ordered t.blk = ordered s.blk ++ [sym] ∧
      (∀ i : BitVec 7, i.toNat ≠ s.blk.ndist.toNat → atSym t.blk.order i = atSym s.blk.order i) ∧
      t.blk.ndist.toNat = s.blk.ndist.toNat + 1 ∧
      t.blk.total.toNat = s.blk.total.toNat + s.blk.arg.toNat ∧
      t.blk.error = .none ∧ t.blk.result0.toNat = t.blk.ndist.toNat ∧ t.blk.result1 = t.blk.total ∧
      t.blk.treeValid = false ∧ NoTree t.blk ∧
      t.blk.codesValid = false ∧ (∀ x : Sym, atSym t.blk.code x = CodeEntry.absent) ∧
      t = { s with blk := { s.blk with
        count := t.blk.count, order := t.blk.order, ndist := t.blk.ndist, total := t.blk.total
        node := t.blk.node, nleaf := t.blk.nleaf, root := t.blk.root, synth := t.blk.synth
        treeValid := t.blk.treeValid, code := t.blk.code, codesValid := t.blk.codesValid
        error := t.blk.error, result0 := t.blk.result0, result1 := t.blk.result1, pending := none } }

/-- FREQ_LOAD's errors in order, each with RESULT0 = SYM and RESULT1 = 0: a zero count, a symbol already present, a
TOTAL that would pass 2^32 - 1 (41_frequency R125, R126). -/
def Obligations.FreqLoadRefusesInOrder : Prop :=
  ∀ (s : State) (sym : Sym),
    (s.blk.arg = 0 → exec (.freqLoad sym) s = failsWith s .malformedFreqList (sym.setWidth 32) 0) ∧
    (s.blk.arg ≠ 0 → atSym s.blk.count sym ≠ 0 →
      exec (.freqLoad sym) s = failsWith s .malformedFreqList (sym.setWidth 32) 0) ∧
    (s.blk.arg ≠ 0 → atSym s.blk.count sym = 0 → 2 ^ 32 - 1 < s.blk.total.toNat + s.blk.arg.toNat →
      exec (.freqLoad sym) s = failsWith s .capacity (sym.setWidth 32) 0)

/-! ## The sorted frequency list -/

/-- The list BUILD consumes is a stable ascending sort of the entries by `key_leaf`, in both weight modes: the same
entries, ascending keys, and entries of equal keys in their creation order (41_frequency R127, R129). -/
def Obligations.FreqListIsAStableSort : Prop :=
  ∀ b : Block,
    (freqList b).Perm (listEntries b) ∧
    (freqList b).Pairwise
      (fun x y => leafKey b.cfg.weightMode b.total.toNat x ≤ leafKey b.cfg.weightMode b.total.toNat y) ∧
    (∀ x y : Leaf, [x, y].Sublist (listEntries b) →
      leafKey b.cfg.weightMode b.total.toNat x ≤ leafKey b.cfg.weightMode b.total.toNat y →
      [x, y].Sublist (freqList b))

/-- With one distinct symbol r, the list is the synthetic entry ((r + 1) mod 128, count 0, key 0) and then r, whose key
is above 0, and the synthetic symbol is not in the table; with two or more distinct symbols no synthetic entry is added
(41_frequency R128). -/
def Obligations.SyntheticLeafComesFirst : Prop :=
  ∀ b : Block, TableInv b →
    (b.ndist = 1 → ∃ (r t : Sym), ordered b = [r] ∧ t.toNat = (r.toNat + 1) % 128 ∧ t ∉ ordered b ∧
      synthSym b = some t ∧ freqList b = [⟨t, 0⟩, ⟨r, (atSym b.count r).toNat⟩] ∧
      leafKey b.cfg.weightMode b.total.toNat ⟨t, 0⟩ = 0 ∧
      0 < leafKey b.cfg.weightMode b.total.toNat ⟨r, (atSym b.count r).toNat⟩) ∧
    (2 ≤ b.ndist.toNat → synthSym b = none ∧ (freqList b).length = b.ndist.toNat)

/-- The list has NDIST entries, or 2 when NDIST = 1: from 2 to 128, with distinct symbols, and only the synthetic one
has count 0 (41_frequency R132). -/
def Obligations.FreqListHasTwoToAll : Prop :=
  ∀ b : Block, TableInv b → b.ndist ≠ 0 →
    (freqList b).length = (if b.ndist = 1 then 2 else b.ndist.toNat) ∧
    2 ≤ (freqList b).length ∧ (freqList b).length ≤ 128 ∧
    ((freqList b).map Leaf.sym).Nodup ∧
    (∀ l : Leaf, l ∈ freqList b → l.cnt = 0 → synthSym b = some l.sym) ∧
    ((freqList b).map Leaf.cnt).sum = b.total.toNat

/-- The two weight modes give the same sorted list (41_frequency R130): rounding count/TOTAL to binary64 keeps distinct
counts apart and in order. -/
def Obligations.WeightModesSortAlike : Prop :=
  ∀ b : Block, TableInv b →
    sortLeaves .countExact b.total.toNat (listEntries b) = sortLeaves .binary64 b.total.toNat (listEntries b)

/-! ## BUILD -/

/-- BUILD of a table with an entry completes and publishes the tree of the two-queue merge of the sorted list
(42_tree_builder R140 to R146): NODE holds the leaves, then the node of each merge in turn, then nothing. It is a
complete tree: the numbering of 42_tree_builder R146 with
the leaves in the order of the sorted list, the structure of 10_state R40, the exact count-weights with TOTAL at the
root, SYNTH and NLEAF; PW is 0 in COUNT_EXACT, and in BINARY64 RNE(c / TOTAL) of a leaf's count c and RNE of the sum of
the children's values, in units of 2^-1074, of an internal node (IEEE 754 binary64: notes/assumptions/12.md); RESULT0 is
NLEAF and RESULT1 the node count 2n - 1; the codes are invalidated; nothing else changes (42_tree_builder R141, R143,
R146). -/
def Obligations.BuildPublishesACompleteTree : Prop :=
  ∀ s : State, TableInv s.blk → s.blk.ndist ≠ 0 →
    ∃ t : State, exec .build s = .next t ∧
      t.blk.treeValid = true ∧ TreeNumbering t.blk ∧ TreeStructure t.blk ∧ TreeLeaves t.blk ∧ TreeWeights t.blk ∧
      (∀ k : BitVec 8, atNode t.blk.node k =
        (treeNodes s.blk.cfg.weightMode s.blk.total.toNat (freqList s.blk)).getD k.toNat Node.zero) ∧
      (∀ (m : Nat) (q q' : Queues) (nd : Node),
        queuesAfter s.blk.cfg.weightMode m (freqList s.blk).length
          (startQueues s.blk.cfg.weightMode s.blk.total.toNat (freqList s.blk)) = some q →
        mergeOnce s.blk.cfg.weightMode ((freqList s.blk).length + m) q = some (nd, q') →
        atNode t.blk.node (BitVec.ofNat 8 ((freqList s.blk).length + m)) = nd) ∧
      (∀ k : BitVec 8, k.toNat < t.blk.nleaf.toNat →
        (freqList s.blk)[k.toNat]? =
          some ⟨(atNode t.blk.node k).sym, (atNode t.blk.node k).cw.toNat⟩) ∧
      (∀ k : BitVec 8, (atNode t.blk.node k).leaf = true →
        (atNode t.blk.node k).pw = (match s.blk.cfg.weightMode with
          | .countExact => 0
          | .binary64 => rne (atNode t.blk.node k).cw.toNat s.blk.total.toNat)) ∧
      (∀ k : BitVec 8, (atNode t.blk.node k).used = true → (atNode t.blk.node k).leaf = false →
        (atNode t.blk.node k).pw = (match s.blk.cfg.weightMode with
          | .countExact => 0
          | .binary64 => rne (f64Scaled (atNode t.blk.node (atNode t.blk.node k).left).pw +
              f64Scaled (atNode t.blk.node (atNode t.blk.node k).right).pw) (2 ^ 1074))) ∧
      t.blk.codesValid = false ∧ (∀ x : Sym, atSym t.blk.code x = CodeEntry.absent) ∧
      t.blk.error = .none ∧ t.blk.result0.toNat = t.blk.nleaf.toNat ∧
      t.blk.result1.toNat = 2 * t.blk.nleaf.toNat - 1 ∧
      t = { s with blk := { s.blk with
        node := t.blk.node, nleaf := t.blk.nleaf, root := t.blk.root, synth := t.blk.synth
        treeValid := t.blk.treeValid, code := t.blk.code, codesValid := t.blk.codesValid
        error := t.blk.error, result0 := t.blk.result0, result1 := t.blk.result1, pending := none } }

/-- BUILD fails exactly on an empty table, with EMPTY_INPUT; MALFORMED_FREQ_LIST is never its outcome, whatever the
state (41_frequency R127, 42_tree_builder R149). -/
def Obligations.BuildFailsOnlyOnAnEmptyTable : Prop :=
  ∀ s : State,
    (s.blk.ndist = 0 → exec .build s = failsWith s .emptyInput 0 0) ∧
    (s.blk.ndist ≠ 0 → ∃ t : State, exec .build s = .next t ∧ t.blk.error = .none)

/-- With n >= 2 leaves exactly n - 1 merges happen, each leaves one queued node fewer, they end with SRC empty and one
node on MRG, the last of the 2n - 1 nodes of the tree (42_tree_builder R144). Each selection takes the front with the
lower-or-equal key, ties SRC's, and with one queue empty the other's front, on the fronts the selection before left
(R142); the first selected is LEFT, the second RIGHT, CW is the sum of theirs and PW, in BINARY64, RNE of the sum of
theirs, else 0 (IEEE 754 binary64: notes/assumptions/12.md); the new node, the next of the tree, joins MRG (R143). -/
def Obligations.MergesEndInOneRoot : Prop :=
  (∀ (mode : WeightMode) (x y : QEntry) (src mrg : List QEntry),
    (x.key mode ≤ y.key mode → selectFront mode ⟨x :: src, y :: mrg⟩ = some (x, ⟨src, y :: mrg⟩)) ∧
    (y.key mode < x.key mode → selectFront mode ⟨x :: src, y :: mrg⟩ = some (y, ⟨x :: src, mrg⟩)) ∧
    selectFront mode ⟨x :: src, []⟩ = some (x, ⟨src, []⟩) ∧
    selectFront mode ⟨[], y :: mrg⟩ = some (y, ⟨[], mrg⟩)) ∧
  (∀ x : QEntry, x.key .countExact = x.cw ∧ x.key .binary64 = f64Scaled x.pw) ∧
  (∀ (mode : WeightMode) (k : Nat) (q q1 q2 : Queues) (a b : QEntry),
    selectFront mode q = some (a, q1) → selectFront mode q1 = some (b, q2) →
    ∃ nd : Node, mergeOnce mode k q = some (nd, ⟨q2.src, q2.mrg ++ [⟨k, a.cw + b.cw, nd.pw⟩]⟩) ∧
      nd.used = true ∧ nd.leaf = false ∧ nd.sym = 0 ∧
      nd.left = BitVec.ofNat 8 a.idx ∧ nd.right = BitVec.ofNat 8 b.idx ∧ nd.cw = BitVec.ofNat 32 (a.cw + b.cw) ∧
      nd.pw = (match mode with
        | .countExact => 0
        | .binary64 => rne (f64Scaled a.pw + f64Scaled b.pw) (2 ^ 1074))) ∧
  (∀ (mode : WeightMode) (total : Nat) (ls : List Leaf) (m : Nat) (q q' : Queues) (nd : Node),
    queuesAfter mode m ls.length (startQueues mode total ls) = some q →
    mergeOnce mode (ls.length + m) q = some (nd, q') →
    (treeNodes mode total ls)[ls.length + m]? = some nd) ∧
  ∀ (mode : WeightMode) (total : Nat) (ls : List Leaf), 2 ≤ ls.length →
    (treeNodes mode total ls).length = 2 * ls.length - 1 ∧
    (∃ (q : Queues) (r : QEntry),
      queuesAfter mode (ls.length - 1) ls.length (startQueues mode total ls) = some q ∧
      q = ⟨[], [r]⟩ ∧ r.idx = 2 * ls.length - 2) ∧
    (∀ m : Nat, m < ls.length → ∃ q : Queues,
      queuesAfter mode m ls.length (startQueues mode total ls) = some q ∧
      q.src.length + q.mrg.length = ls.length - m) ∧
    queuesAfter mode ls.length ls.length (startQueues mode total ls) = none

/-- At every step of the merge the count-weights queued, in both queues together, sum to the counts of the list exactly,
in both weight modes (42_tree_builder R147). -/
def Obligations.MergesConserveWeight : Prop :=
  ∀ (mode : WeightMode) (total : Nat) (ls : List Leaf) (m : Nat) (q : Queues),
    queuesAfter mode m ls.length (startQueues mode total ls) = some q →
    queuedWeight q = (ls.map Leaf.cnt).sum

/-- "merged's queue order is always non-decreasing in probability", in both weight modes (42_tree_builder R145): from
any ascending list of at most 128 entries whose counts sum to at most TOTAL < 2^32. -/
def Obligations.MergedQueueNeverDecreases : Prop :=
  ∀ (mode : WeightMode) (total : Nat) (ls : List Leaf) (m : Nat) (q : Queues),
    ls.length ≤ 128 → (ls.map Leaf.cnt).sum ≤ total → total < 2 ^ 32 →
    ls.Pairwise (fun x y => leafKey mode total x ≤ leafKey mode total y) →
    queuesAfter mode m ls.length (startQueues mode total ls) = some q →
    q.mrg.Pairwise (fun x y => x.key mode ≤ y.key mode)

/-- BUILD is a function of (ORDER[0..NDIST), COUNT, WEIGHT_MODE) alone (42_tree_builder R148, 70_reset R255): two blocks
that agree on these get the same tree, whatever else they hold. -/
def Obligations.BuildDependsOnlyOnOrderedCounts : Prop :=
  ∀ s s' : State, TableInv s.blk → TableInv s'.blk → s.blk.ndist ≠ 0 →
    s.blk.cfg.weightMode = s'.blk.cfg.weightMode → ordered s.blk = ordered s'.blk →
    (∀ x : Sym, x ∈ ordered s.blk → atSym s.blk.count x = atSym s'.blk.count x) →
    ∃ t t' : State, exec .build s = .next t ∧ exec .build s' = .next t' ∧
      t.blk.node = t'.blk.node ∧ t.blk.nleaf = t'.blk.nleaf ∧ t.blk.root = t'.blk.root ∧ t.blk.synth = t'.blk.synth

/-! ## GEN_CODES -/

/-- GEN_CODES on a tree completes: every leaf's entry is its path from the root, 1 to 127 bits, every other entry is
absent; RESULT0 is NLEAF, RESULT1 the length of the longest code; nothing else changes (43_code_table R161, R162,
R166). -/
def Obligations.GenCodesRecordsEveryPath : Prop :=
  ∀ s : State, TableInv s.blk → TreeInv s.blk → s.blk.treeValid = true →
    ∃ t : State, exec .genCodes s = .next t ∧
      t.blk.codesValid = true ∧ (∀ x : Sym, EntryOk t.blk x) ∧
      t.blk.error = .none ∧ t.blk.result0.toNat = s.blk.nleaf.toNat ∧
      (∀ x : Sym, (atSym t.blk.code x).len.toNat ≤ t.blk.result1.toNat) ∧
      (∃ x : Sym, (atSym t.blk.code x).valid = true ∧ (atSym t.blk.code x).len.toNat = t.blk.result1.toNat) ∧
      t = { s with blk := { s.blk with
        code := t.blk.code, codesValid := t.blk.codesValid
        error := t.blk.error, result0 := t.blk.result0, result1 := t.blk.result1, pending := none } }

/-- GEN_CODES without a tree fails with EMPTY_TREE and changes nothing else (43_code_table R161). -/
def Obligations.GenCodesNeedsATree : Prop :=
  ∀ s : State, s.blk.treeValid = false → exec .genCodes s = failsWith s .emptyTree 0 0

/-- "No code is a prefix of another" (43_code_table R164). -/
def Obligations.CodesArePrefixFree : Prop :=
  ∀ (b : Block) (x y : Sym), TableInv b → TreeInv b → CodesInv b → b.codesValid = true →
    (atSym b.code x).valid = true → (atSym b.code y).valid = true →
    (atSym b.code x).path <+: (atSym b.code y).path → x = y

/-- The codes fill the tree: the sum of 2^-LEN over the valid codes is 1, here times 2^127 (43_code_table R164). -/
def Obligations.CodesFillTheTree : Prop :=
  ∀ b : Block, TableInv b → TreeInv b → CodesInv b → b.codesValid = true →
    (b.code.toList.map (fun e => if e.valid then 2 ^ (127 - e.len.toNat) else 0)).sum = 2 ^ 127

/-- With one distinct symbol r, BUILD and then GEN_CODES give the synthetic symbol the code "0" and r the code "1": the
synthetic leaf is NODE[0], the root's left child (43_code_table R167). -/
def Obligations.SingleSymbolGetsCodeOne : Prop :=
  ∀ (s : State) (r : Sym), TableInv s.blk → ordered s.blk = [r] →
    ∃ t u : State, exec .build s = .next t ∧ exec .genCodes t = .next u ∧
      t.blk.error = .none ∧ u.blk.error = .none ∧ u.blk.synth = some (r + 1) ∧
      atSym u.blk.code (r + 1) = CodeEntry.ofPath [false] ∧ atSym u.blk.code r = CodeEntry.ofPath [true] ∧
      (atNode u.blk.node 0).sym = r + 1 ∧ (atNode u.blk.node 0).leaf = true ∧
      (atNode u.blk.node u.blk.root).left = 0 ∧
      (∀ x : Sym, x ≠ r → x ≠ r + 1 → atSym u.blk.code x = CodeEntry.absent)

/-! ## ENCODE -/

/-- ENCODE of a stream whose symbols all have codes and whose bitstring fits completes: BITBUF[0..BIT_LEN) is the
concatenation of the codes in stream order, the rest of its last word is 0, later cells stay; RESULT0 is BIT_LEN and
RESULT1 the number of symbols; nothing else changes (44_bit_packing R175, R176, R183). -/
def Obligations.EncodeConcatenatesCodes : Prop :=
  ∀ (s : State) (ss : List Sym), s.blk.cfg.wellFormed = true → s.blk.codesValid = true → InputIs s.blk ss →
    (∀ x : Sym, x ∈ ss → (atSym s.blk.code x).valid = true) →
    (codeString s.blk ss).length ≤ s.blk.cfg.maxBits →
    ∃ t : State, exec .encode s = .next t ∧
      Holds t.blk.bitbuf (codeString s.blk ss) ∧
      TailIs t.blk.bitbuf 32 (codeString s.blk ss).length false ∧
      LaterKept s.blk.bitbuf t.blk.bitbuf 32 (codeString s.blk ss).length ∧
      t.blk.bitLen.toNat = (codeString s.blk ss).length ∧
      t.blk.error = .none ∧ t.blk.result0 = t.blk.bitLen ∧ t.blk.result1.toNat = ss.length ∧
      t = { s with blk := { s.blk with
        bitbuf := t.blk.bitbuf, bitLen := t.blk.bitLen
        error := t.blk.error, result0 := t.blk.result0, result1 := t.blk.result1, pending := none } }

/-- ENCODE's checks in order: CODE_TABLE_ABSENT, EMPTY_INPUT, CAPACITY; then, after a run `ss` of symbols that encode
within MAX_BITS, at cell `|ss|`: UNINIT, SYMBOL_RANGE, UNMAPPED_SYMBOL, CAPACITY, with the index and the value
(44_bit_packing R176; 60_exceptions R212; 20_memory R79). -/
def Obligations.EncodeStopsInOrder : Prop :=
  ∀ s : State,
    (s.blk.codesValid = false → exec .encode s = failsWith s .codeTableAbsent 0 0) ∧
    (s.blk.codesValid = true → s.blk.inLen = 0 → exec .encode s = failsWith s .emptyInput 0 0) ∧
    (s.blk.codesValid = true → s.blk.inLen ≠ 0 → s.blk.cfg.maxSyms < s.blk.inLen.toNat →
      exec .encode s = failsWith s .capacity 0 0) ∧
    (∀ ss : List Sym, s.blk.codesValid = true → s.blk.inLen.toNat ≤ s.blk.cfg.maxSyms →
      ss.length < s.blk.inLen.toNat → Holds s.blk.inbuf (ss.map (fun x => x.setWidth 8)) →
      (∀ x : Sym, x ∈ ss → (atSym s.blk.code x).valid = true) →
      (codeString s.blk ss).length ≤ s.blk.cfg.maxBits →
      (Memory.get s.blk.inbuf ss.length = none → exec .encode s = .fault (.uninit .inbuf ss.length)) ∧
      (∀ v : Byte, Memory.get s.blk.inbuf ss.length = some v → 128 ≤ v.toNat →
        exec .encode s = failsWith s .symbolRange (BitVec.ofNat 32 ss.length) (v.setWidth 32)) ∧
      (∀ x : Sym, Memory.get s.blk.inbuf ss.length = some (x.setWidth 8) →
        ((atSym s.blk.code x).valid = false →
          exec .encode s = failsWith s .unmappedSymbol (BitVec.ofNat 32 ss.length) (x.setWidth 32)) ∧
        ((atSym s.blk.code x).valid = true →
          s.blk.cfg.maxBits < (codeString s.blk ss).length + (atSym s.blk.code x).len.toNat →
          exec .encode s = failsWith s .capacity (BitVec.ofNat 32 ss.length) (x.setWidth 32))))

/-! ## PACK and UNPACK -/

/-- PACK of a written bitstring of at most MAX_BITS bits completes: the bytes are the bits, most significant first, of
7 - (L mod 8) zeros, a one, and the bitstring; there are ceil((L + 1)/8) of them; the rest of the last word is 0 and
later cells stay; RESULT0 is the padding length 8 - (L mod 8), RESULT1 is PK_LEN; nothing else changes
(44_bit_packing R179 to R183). -/
def Obligations.PackPrependsTheMarker : Prop :=
  ∀ (s : State) (bs : List Bool), BitsAre s.blk bs →
    ∃ (t : State) (bytes : List Byte), exec .pack s = .next t ∧
      StreamOf bytes (List.replicate (7 - bs.length % 8) false ++ [true] ++ bs) ∧
      bytes.length = (bs.length + 1 + 7) / 8 ∧
      Holds t.blk.pkbuf bytes ∧ TailIs t.blk.pkbuf 4 bytes.length 0 ∧
      LaterKept s.blk.pkbuf t.blk.pkbuf 4 bytes.length ∧
      t.blk.pkLen.toNat = bytes.length ∧
      t.blk.error = .none ∧ t.blk.result0.toNat = 8 - bs.length % 8 ∧ t.blk.result1 = t.blk.pkLen ∧
      t = { s with blk := { s.blk with
        pkbuf := t.blk.pkbuf, pkLen := t.blk.pkLen
        error := t.blk.error, result0 := t.blk.result0, result1 := t.blk.result1, pending := none } }

/-- PACK's checks in order: CAPACITY when BIT_LEN > MAX_BITS, else UNINIT at the first unwritten bit
(44_bit_packing R180; 20_memory R79). -/
def Obligations.PackStopsInOrder : Prop :=
  ∀ s : State,
    (s.blk.cfg.maxBits < s.blk.bitLen.toNat → exec .pack s = failsWith s .capacity 0 0) ∧
    (∀ i : Nat, s.blk.bitLen.toNat ≤ s.blk.cfg.maxBits → i < s.blk.bitLen.toNat →
      (∀ j : Nat, j < i → ∃ v, Memory.get s.blk.bitbuf j = some v) → Memory.get s.blk.bitbuf i = none →
      exec .pack s = .fault (.uninit .bitbuf i))

/-- UNPACK of a written byte stream completes when what it leaves fits BITBUF. A one among the first 8 bits, at index p
with zeros before it: the bits after it, ANOMALY = 0, RESULT0 = p + 1. No one there: the bits after position 8,
ANOMALY = 1, RESULT0 = 0. BIT_LEN and RESULT1 are the length; the rest of the last word is 0 and later cells stay;
nothing else changes (44_bit_packing R184 to R186). -/
def Obligations.UnpackStripsTheMarker : Prop :=
  ∀ (s : State) (bytes : List Byte) (bits out : List Bool) (anomaly : Bool) (pad : Nat),
    s.blk.cfg.wellFormed = true → BytesAre s.blk bytes → StreamOf bytes bits →
    ((∃ p : Nat, p < 8 ∧ bits[p]? = some true ∧ (∀ j : Nat, j < p → bits[j]? = some false) ∧
        out = bits.drop (p + 1) ∧ anomaly = false ∧ pad = p + 1) ∨
      ((∀ j : Nat, j < 8 → bits[j]? ≠ some true) ∧ out = bits.drop 8 ∧ anomaly = true ∧ pad = 0)) →
    out.length ≤ s.blk.cfg.maxBits →
    ∃ t : State, exec .unpack s = .next t ∧
      Holds t.blk.bitbuf out ∧ TailIs t.blk.bitbuf 32 out.length false ∧
      LaterKept s.blk.bitbuf t.blk.bitbuf 32 out.length ∧
      t.blk.bitLen.toNat = out.length ∧ t.blk.anomaly = anomaly ∧
      t.blk.error = .none ∧ t.blk.result0.toNat = pad ∧ t.blk.result1 = t.blk.bitLen ∧
      t = { s with blk := { s.blk with
        bitbuf := t.blk.bitbuf, bitLen := t.blk.bitLen, anomaly := t.blk.anomaly
        error := t.blk.error, result0 := t.blk.result0, result1 := t.blk.result1, pending := none } }

/-- UNPACK's checks in order: CAPACITY when PK_LEN > MAX_PK, UNINIT at the first unwritten byte, CAPACITY when the
unpadded bitstring would exceed MAX_BITS (44_bit_packing R184; 20_memory R79). -/
def Obligations.UnpackStopsInOrder : Prop :=
  ∀ s : State,
    (maxPk s.blk.cfg < s.blk.pkLen.toNat → exec .unpack s = failsWith s .capacity 0 0) ∧
    (∀ i : Nat, s.blk.pkLen.toNat ≤ maxPk s.blk.cfg → i < s.blk.pkLen.toNat →
      (∀ j : Nat, j < i → ∃ v, Memory.get s.blk.pkbuf j = some v) → Memory.get s.blk.pkbuf i = none →
      exec .unpack s = .fault (.uninit .pkbuf i)) ∧
    (∀ (bytes : List Byte) (bits : List Bool), BytesAre s.blk bytes → StreamOf bytes bits →
      (∃ p : Nat, p < 8 ∧ bits[p]? = some true ∧ (∀ j : Nat, j < p → bits[j]? = some false) ∧
        s.blk.cfg.maxBits < (bits.drop (p + 1)).length) →
      exec .unpack s = failsWith s .capacity 0 0) ∧
    (∀ (bytes : List Byte) (bits : List Bool), BytesAre s.blk bytes → StreamOf bytes bits →
      (∀ j : Nat, j < 8 → bits[j]? ≠ some true) → s.blk.cfg.maxBits < (bits.drop 8).length →
      exec .unpack s = failsWith s .capacity 0 0)

/-- "BitUnpacker(BitPacker(bits)) == bits for all bitstrings" (44_bit_packing R187): PACK and then UNPACK restore
BITBUF[0..L) and BIT_LEN = L with ANOMALY = 0. -/
def Obligations.UnpackInvertsPack : Prop :=
  ∀ (s : State) (bs : List Bool), s.blk.cfg.wellFormed = true → BitsAre s.blk bs →
    ∃ t u : State, exec .pack s = .next t ∧ exec .unpack t = .next u ∧
      t.blk.error = .none ∧ u.blk.error = .none ∧ BitsAre u.blk bs ∧ u.blk.anomaly = false ∧
      u.blk.pkLen = t.blk.pkLen ∧ u.blk.result0 = t.blk.result0

/-! ## DECODE -/

/-- DECODE of a bitstring that begins with the codes of ARG symbols (each a path from the root to a leaf) completes:
OUTBUF[0..ARG) is these symbols in order, the rest of the last word is 0 (also its cells at or beyond MAX_SYMS, which is
the model's choice, notes/assumptions/26.md), later cells stay; RESULT0 is the bits of
these codes, RESULT1 the bits after them, which need not be written; nothing else changes (45_decoder R196 to R199). -/
def Obligations.DecodeEmitsCountedSymbols : Prop :=
  ∀ (s : State) (ps : List (List Bool × Sym)),
    s.blk.treeValid = true → (atNode s.blk.node s.blk.root).leaf = false →
    s.blk.arg.toNat = ps.length → ps.length ≤ s.blk.cfg.maxSyms → s.blk.bitLen.toNat ≤ s.blk.cfg.maxBits →
    (∀ p : List Bool × Sym, p ∈ ps → leadsTo s.blk.node s.blk.root p.1 = some p.2) →
    Holds s.blk.bitbuf (ps.flatMap Prod.fst) → (ps.flatMap Prod.fst).length ≤ s.blk.bitLen.toNat →
    ∃ t : State, exec .decode s = .next t ∧
      Holds t.blk.outbuf (ps.map (fun p => p.2.setWidth 8)) ∧ TailIs t.blk.outbuf 4 ps.length 0 ∧
      LaterKept s.blk.outbuf t.blk.outbuf 4 ps.length ∧
      t.blk.outLen = s.blk.arg ∧ t.blk.error = .none ∧
      t.blk.result0.toNat = (ps.flatMap Prod.fst).length ∧
      t.blk.result1.toNat = s.blk.bitLen.toNat - (ps.flatMap Prod.fst).length ∧
      t = { s with blk := { s.blk with
        outbuf := t.blk.outbuf, outLen := t.blk.outLen
        error := t.blk.error, result0 := t.blk.result0, result1 := t.blk.result1, pending := none } }

/-- On a tree, with every bit written and the operands within capacity, DECODE either succeeds or reports
TRUNCATED_STREAM, with RESULT0 the number of symbols the bitstring's codes give, fewer than ARG, and all BIT_LEN bits
consumed; it succeeds exactly when the bitstring begins with the codes of ARG symbols (45_decoder R196, R199;
60_exceptions R210). -/
def Obligations.DecodeTruncatesExactlyWhenBitsRunOut : Prop :=
  ∀ (s : State) (bs : List Bool), TableInv s.blk → TreeInv s.blk → s.blk.treeValid = true →
    s.blk.arg.toNat ≤ s.blk.cfg.maxSyms → BitsAre s.blk bs →
    ∃ t : State, exec .decode s = .next t ∧
      (t.blk.error = .none ↔
        ∃ ps : List (List Bool × Sym), ps.length = s.blk.arg.toNat ∧ ps.flatMap Prod.fst <+: bs ∧
          ∀ p : List Bool × Sym, p ∈ ps → leadsTo s.blk.node s.blk.root p.1 = some p.2) ∧
      (t.blk.error ≠ .none →
        (∃ ps : List (List Bool × Sym), t.blk.result0.toNat = ps.length ∧ ps.length < s.blk.arg.toNat ∧
          ps.flatMap Prod.fst <+: bs ∧
          (∀ p : List Bool × Sym, p ∈ ps → leadsTo s.blk.node s.blk.root p.1 = some p.2) ∧
          (∀ (code : List Bool) (x : Sym), leadsTo s.blk.node s.blk.root code = some x →
            ¬ (ps.flatMap Prod.fst ++ code <+: bs))) ∧
        t = { s with blk := { s.blk with
          error := .truncatedStream, result0 := t.blk.result0, result1 := s.blk.bitLen, pending := none
          outLen := 0 } })

/-- DECODE's checks before the walk, in order: EMPTY_TREE, CAPACITY of ARG, CAPACITY of BIT_LEN; each sets OUT_LEN to 0
and writes no OUTBUF cell (45_decoder R196, R202). In the walk, after the codes of fewer than ARG symbols and a proper
prefix of a further code, an unwritten next bit below BIT_LEN is the model fault UNINIT there (20_memory R79). -/
def Obligations.DecodeRefusesInOrder : Prop :=
  ∀ s : State,
    (s.blk.treeValid = false → exec .decode s = decodeFailsWith s .emptyTree 0 0) ∧
    (s.blk.treeValid = true → s.blk.cfg.maxSyms < s.blk.arg.toNat →
      exec .decode s = decodeFailsWith s .capacity 0 0) ∧
    (s.blk.treeValid = true → s.blk.arg.toNat ≤ s.blk.cfg.maxSyms → s.blk.cfg.maxBits < s.blk.bitLen.toNat →
      exec .decode s = decodeFailsWith s .capacity 0 0) ∧
    (∀ (ps : List (List Bool × Sym)) (pre rest : List Bool) (x : Sym),
      s.blk.treeValid = true → s.blk.arg.toNat ≤ s.blk.cfg.maxSyms → s.blk.bitLen.toNat ≤ s.blk.cfg.maxBits →
      ps.length < s.blk.arg.toNat →
      (∀ p : List Bool × Sym, p ∈ ps → leadsTo s.blk.node s.blk.root p.1 = some p.2) →
      rest ≠ [] → leadsTo s.blk.node s.blk.root (pre ++ rest) = some x →
      Holds s.blk.bitbuf (ps.flatMap Prod.fst ++ pre) →
      (ps.flatMap Prod.fst ++ pre).length < s.blk.bitLen.toNat →
      Memory.get s.blk.bitbuf (ps.flatMap Prod.fst ++ pre).length = none →
      exec .decode s = .fault (.uninit .bitbuf (ps.flatMap Prod.fst ++ pre).length))

/-! ## Every command -/

/-- "the block's state after the failing command equals its state before the command except ERROR, RESULT0, RESULT1,
PENDING and, for DECODE, OUT_LEN <- 0" (60_exceptions R211, R202). -/
def Obligations.FailuresChangeOnlyTheReport : Prop :=
  ∀ (i : Instr) (s t : State), exec i s = .next t → t.blk.error ≠ .none →
    t = { s with blk := { s.blk with
      error := t.blk.error, result0 := t.blk.result0, result1 := t.blk.result1, pending := none
      outLen := if i = .decode then 0 else s.blk.outLen } }

/-- What each command may write besides ERROR, RESULT0, RESULT1 and PENDING (40_control R116): everything else is as
before. Of the buffer a command writes, every cell after the last word of its output is as before, so all of it when the
command fails (44_bit_packing R183); the output's length register is the length written, which for ENCODE and UNPACK
needs MAX_BITS below 2^32. -/
def Obligations.CommandsWriteOnlyTheirOwnState : Prop :=
  ∀ (i : Instr) (s t : State), exec i s = .next t →
    ∃ b : Block, t = { s with blk := { b with
        error := t.blk.error, result0 := t.blk.result0, result1 := t.blk.result1, pending := none } } ∧
      match i with
      | .nop => b = s.blk
      | .clear => b = { Block.powerOn s.blk.cfg with
          inbuf := s.blk.inbuf, outbuf := s.blk.outbuf, bitbuf := s.blk.bitbuf, pkbuf := s.blk.pkbuf }
      | .freqScan => b = { s.blk with
          count := b.count, order := b.order, total := b.total, ndist := b.ndist
          node := b.node, nleaf := b.nleaf, root := b.root, synth := b.synth, treeValid := b.treeValid
          code := b.code, codesValid := b.codesValid }
      | .freqLoad _ => b = { s.blk with
          count := b.count, order := b.order, total := b.total, ndist := b.ndist
          node := b.node, nleaf := b.nleaf, root := b.root, synth := b.synth, treeValid := b.treeValid
          code := b.code, codesValid := b.codesValid }
      | .build => b = { s.blk with
          node := b.node, nleaf := b.nleaf, root := b.root, synth := b.synth, treeValid := b.treeValid
          code := b.code, codesValid := b.codesValid }
      | .genCodes => b = { s.blk with code := b.code, codesValid := b.codesValid }
      | .encode => b = { s.blk with bitbuf := b.bitbuf, bitLen := b.bitLen } ∧
          (s.blk.cfg.wellFormed = true → LaterKept s.blk.bitbuf t.blk.bitbuf 32 t.blk.bitLen.toNat) ∧
          (t.blk.error ≠ .none → b = s.blk)
      | .pack => b = { s.blk with pkbuf := b.pkbuf, pkLen := b.pkLen } ∧
          LaterKept s.blk.pkbuf t.blk.pkbuf 4 t.blk.pkLen.toNat ∧ (t.blk.error ≠ .none → b = s.blk)
      | .unpack => b = { s.blk with bitbuf := b.bitbuf, bitLen := b.bitLen, anomaly := b.anomaly } ∧
          (s.blk.cfg.wellFormed = true → LaterKept s.blk.bitbuf t.blk.bitbuf 32 t.blk.bitLen.toNat) ∧
          (t.blk.error ≠ .none → b = s.blk)
      | .decode => b = { s.blk with outbuf := b.outbuf, outLen := b.outLen } ∧
          LaterKept s.blk.outbuf t.blk.outbuf 4 t.blk.outLen.toNat ∧
          (t.blk.error ≠ .none → b = { s.blk with outLen := 0 })

/-- A command never leaves the block busy or touches the host, the schedule or the configuration: it completes, with
PENDING empty, or is a model fault; it is never refused (40_control R112, 60_exceptions R211, R222). -/
def Obligations.CommandsCompleteOrFault : Prop :=
  ∀ (i : Instr) (s : State),
    (∃ t : State, exec i s = .next t ∧ t.blk.pending = none ∧ busy t.blk = false ∧
      t.host = s.host ∧ t.sched = s.sched ∧ t.draws = s.draws ∧ t.blk.cfg = s.blk.cfg) ∨
    (∃ f : Fault, exec i s = .fault f)

/-- From a state with a sound table and tree the only fault of a command is UNINIT, at an unwritten cell of the range
the command reads (20_memory R79): no command hangs (40_control R117). -/
def Obligations.FaultsNameAnUnwrittenCell : Prop :=
  ∀ (i : Instr) (s : State) (f : Fault), TableInv s.blk → TreeInv s.blk → exec i s = .fault f →
    (∃ c : Nat, f = .uninit .inbuf c ∧ Memory.get s.blk.inbuf c = none ∧ c < s.blk.inLen.toNat ∧
      (i = .freqScan ∨ i = .encode)) ∨
    (∃ c : Nat, f = .uninit .bitbuf c ∧ Memory.get s.blk.bitbuf c = none ∧ c < s.blk.bitLen.toNat ∧
      (i = .pack ∨ i = .decode)) ∨
    (∃ c : Nat, f = .uninit .pkbuf c ∧ Memory.get s.blk.pkbuf c = none ∧ c < s.blk.pkLen.toNat ∧ i = .unpack)

/-- INVALID_BIT_CHAR, FILE_IO and CORRUPT_TREE_WALK are never written by a command run on a state with the invariants,
nor MALFORMED_FREQ_LIST by BUILD (60_exceptions R220). -/
def Obligations.UnreachableErrorsStayUnwritten : Prop :=
  ∀ (i : Instr) (s t : State), TableInv s.blk → TreeInv s.blk → exec i s = .next t →
    ErrorInv t.blk ∧ (i = .build → t.blk.error ≠ .malformedFreqList)

/-! ## Invariants of every step -/

/-- Every step, of the engine, the host or a reset, keeps the buffers in canonical form and within their storage, and
OUT_LEN within OUTBUF (20_memory R77, 10_state R29). -/
def Obligations.StepKeepsBuffersCanonical : Prop :=
  ∀ s t : State, s.blk.cfg.wellFormed = true → MemoryInv s.blk → OutLenInv s.blk → step s = .next t →
    t.blk.cfg = s.blk.cfg ∧ MemoryInv t.blk ∧ OutLenInv t.blk

/-- Every step keeps the frequency table sound: NDIST at most 128, ORDER[0..NDIST) the symbols with a count, each once,
zeros after it, TOTAL the sum of the counts without wrapping (10_state R32, R33, R37, R38; 41_frequency R126). -/
def Obligations.StepKeepsTheFrequencyTable : Prop :=
  ∀ s t : State, TableInv s.blk → step s = .next t → TableInv t.blk

/-- Every step keeps the tree sound: whenever TREE_VALID = 1 NODE is a complete tree of the current table, and
whenever it is 0 there is none (10_state R40, R45). -/
def Obligations.StepKeepsTheTree : Prop :=
  ∀ s t : State, TableInv s.blk → TreeInv s.blk → step s = .next t → TreeInv t.blk

/-- Every step keeps every invariant: buffers, table, tree, code table and error code (10_state R40, R41, R46;
60_exceptions R220). -/
def Obligations.StepKeepsEveryInvariant : Prop :=
  ∀ s t : State, BlockInv s.blk → step s = .next t → BlockInv t.blk

/-! ## The host port -/

/-- STATUS reads BUSY, ERR, OVERRUN, ANOMALY, TREE_VALID and CODES_VALID in bits 0 to 5 and 0 above; BUSY is 1 exactly
while PENDING holds a command, ERR exactly when ERROR.CODE is not 0 (10_state R20, R23); ERROR reads the code's number
(10_state R24, 60_exceptions R210). With BUSY = 0 the port shows each control register at its offset: ID and PARAM0 to
PARAM2 their constants, CMD 0, SYNTH 0x100 with the symbol or 0, every other its value (10_state R21 to R36,
20_memory R73). -/
def Obligations.StatusShowsTheFlags : Prop :=
  ∀ b : Block,
    (readReg b .status).getLsbD 0 = b.pending.isSome ∧
    (readReg b .status).getLsbD 1 = decide (b.error ≠ .none) ∧
    (readReg b .status).getLsbD 2 = b.overrun ∧
    (readReg b .status).getLsbD 3 = b.anomaly ∧
    (readReg b .status).getLsbD 4 = b.treeValid ∧
    (readReg b .status).getLsbD 5 = b.codesValid ∧
    (∀ j : Nat, 6 ≤ j → (readReg b .status).getLsbD j = false) ∧
    readReg b .error = (match b.error with
      | .none => 0x00 | .emptyInput => 0x01 | .malformedFreqList => 0x02 | .emptyTree => 0x03
      | .invalidBitChar => 0x04 | .truncatedStream => 0x05 | .corruptTreeWalk => 0x06 | .fileIo => 0x07
      | .illegalCommand => 0x08 | .capacity => 0x09 | .unmappedSymbol => 0x0A | .symbolRange => 0x0B
      | .codeTableAbsent => 0x0C) ∧
    (busy b = false → ∀ d : Word,
      busRead b 0x000 allLanes d = .okay 0x48554646 ∧
      busRead b 0x004 allLanes d = .okay (BitVec.ofNat 32 b.cfg.maxSyms) ∧
      busRead b 0x008 allLanes d = .okay (BitVec.ofNat 32 b.cfg.maxBits) ∧
      busRead b 0x00C allLanes d = .okay (match b.cfg.weightMode with | .countExact => 0 | .binary64 => 1) ∧
      busRead b 0x010 allLanes d = .okay (readReg b .status) ∧
      busRead b 0x014 allLanes d = .okay (readReg b .error) ∧
      busRead b 0x018 allLanes d = .okay 0 ∧
      busRead b 0x01C allLanes d = .okay b.arg ∧
      busRead b 0x020 allLanes d = .okay b.result0 ∧
      busRead b 0x024 allLanes d = .okay b.result1 ∧
      busRead b 0x028 allLanes d = .okay b.inLen ∧
      busRead b 0x02C allLanes d = .okay b.outLen ∧
      busRead b 0x030 allLanes d = .okay b.bitLen ∧
      busRead b 0x034 allLanes d = .okay b.pkLen ∧
      busRead b 0x038 allLanes d = .okay b.total ∧
      busRead b 0x03C allLanes d = .okay (b.ndist.setWidth 32) ∧
      busRead b 0x040 allLanes d = .okay (b.nleaf.setWidth 32) ∧
      busRead b 0x044 allLanes d = .okay (b.root.setWidth 32) ∧
      busRead b 0x048 allLanes d = .okay (match b.synth with | none => 0 | some x => 0x100 ||| x.setWidth 32))

/-- "Reads have no side effects" (20_memory R64): a host step whose statement is a read, a WAIT or a CHECK leaves the
whole block as it was. A read with BUSY = 0 is the same at every draw unless it covers an unwritten cell: a register or
table word always, a buffer word when its cells are written. What an accepted read leaves for the host (30_encoding R97,
R98): an R gives its data, under its name where it has one; a WAIT stays while bit 0 of STATUS reads 1 and is done when
it reads 0; a CHECK compares with its value. That the latest data and a failed CHECK are kept, that WAIT is one
statement, that WAIT and CHECK bind no name and the counter of the free values are the model's choices
(notes/assumptions/2.md, 4.md, 15.md, 16.md, 17.md, 27.md). -/
def Obligations.ReadsChangeNoBlockState : Prop :=
  (∀ (s : State) (off : Offset) (lanes : BitVec 4) (name : Option Nat) (rest : List HostStmt) (d : Word),
    s.host.prog = .read off lanes name :: rest → busRead s.blk off lanes (nextDraw s) = .okay d →
    hostStep s = .next { s with
      host := { s.host with
        prog := rest, rdata := some d
        vars := (match name with | none => s.host.vars | some n => Memory.set s.host.vars n d) }
      draws := s.draws + 1 }) ∧
  (∀ (s : State) (rest : List HostStmt), s.host.prog = .wait :: rest →
    ∃ d : Word, busRead s.blk 0x010 allLanes (nextDraw s) = .okay d ∧ d.getLsbD 0 = busy s.blk ∧
      hostStep s = .next { s with
        host := { s.host with prog := (if busy s.blk then .wait :: rest else rest), rdata := some d }
        draws := s.draws + 1 }) ∧
  (∀ (s : State) (off : Offset) (v : HostVal) (rest : List HostStmt) (w d : Word),
    s.host.prog = .check off v :: rest → hostValue s.host v = .ok w →
    busRead s.blk off allLanes (nextDraw s) = .okay d →
    hostStep s = .next { s with
      host := { s.host with prog := rest, rdata := some d, checkFailed := s.host.checkFailed || d != w }
      draws := s.draws + 1 }) ∧
  (∀ (s t : State) (off : Offset) (lanes : BitVec 4) (name : Option Nat) (rest : List HostStmt),
    s.host.prog = .read off lanes name :: rest → hostStep s = .next t → t.blk = s.blk) ∧
  (∀ (s t : State) (rest : List HostStmt), s.host.prog = .wait :: rest → hostStep s = .next t → t.blk = s.blk) ∧
  (∀ (s t : State) (off : Offset) (v : HostVal) (rest : List HostStmt),
    s.host.prog = .check off v :: rest → hostStep s = .next t → t.blk = s.blk) ∧
  (∀ (b : Block) (off : Offset) (d d' : Word), busy b = false → off.toNat < 0x10000 →
    busRead b off allLanes d = busRead b off allLanes d') ∧
  (∀ (b : Block) (n : Nat) (d d' : Word), busy b = false →
    ((∀ j : Nat, j < 4 → ∃ v, Memory.get b.inbuf (4 * n + j) = some v) →
      readTarget b d (.inbuf n) = readTarget b d' (.inbuf n)) ∧
    ((∀ j : Nat, j < 4 → ∃ v, Memory.get b.outbuf (4 * n + j) = some v) →
      readTarget b d (.outbuf n) = readTarget b d' (.outbuf n)) ∧
    ((∀ j : Nat, j < 32 → ∃ v, Memory.get b.bitbuf (32 * n + j) = some v) →
      readTarget b d (.bitbuf n) = readTarget b d' (.bitbuf n)) ∧
    ((∀ j : Nat, j < 4 → ∃ v, Memory.get b.pkbuf (4 * n + j) = some v) →
      readTarget b d (.pkbuf n) = readTarget b d' (.pkbuf n)))

/-- The port answers SLVERR exactly to a sub-word access, a misaligned or reserved offset, an offset beyond a buffer's
storage, and a write to a read-only location, whether busy or not (20_memory R61 to R63, R72, R73, R77). A host step is
the model fault BUS_ERROR (60_exceptions R216) exactly when its statement makes such an access: W and CHECK with a value
that can be had, and R; WAIT, which reads STATUS, never. A W that the port accepts does what its access does, and the
host goes on with the rest of its program (70_reset R263; notes/assumptions/2.md). -/
def Obligations.SlverrExactlyOutsideTheMap : Prop :=
  (∀ (b : Block) (off : Offset) (lanes : BitVec 4) (d : Word), b.cfg.wellFormed = true →
    (busRead b off lanes d = .slverr ↔ ¬ (lanes = 0xF ∧ readable b.cfg off = true))) ∧
  (∀ (b : Block) (off : Offset) (lanes : BitVec 4) (v : Word), b.cfg.wellFormed = true →
    (busWrite b off lanes v = .slverr ↔ ¬ (lanes = 0xF ∧ writable b.cfg off = true))) ∧
  (∀ (s : State) (off : Offset) (lanes : BitVec 4) (v : HostVal) (w : Word) (rest : List HostStmt),
    s.blk.cfg.wellFormed = true → s.host.prog = .write off lanes v :: rest → hostValue s.host v = .ok w →
    (hostStep s = .fault .busError ↔ ¬ (lanes = 0xF ∧ writable s.blk.cfg off = true))) ∧
  (∀ (s : State) (off : Offset) (lanes : BitVec 4) (name : Option Nat) (rest : List HostStmt),
    s.blk.cfg.wellFormed = true → s.host.prog = .read off lanes name :: rest →
    (hostStep s = .fault .busError ↔ ¬ (lanes = 0xF ∧ readable s.blk.cfg off = true))) ∧
  (∀ (s : State) (off : Offset) (v : HostVal) (w : Word) (rest : List HostStmt),
    s.blk.cfg.wellFormed = true → s.host.prog = .check off v :: rest → hostValue s.host v = .ok w →
    (hostStep s = .fault .busError ↔ readable s.blk.cfg off = false)) ∧
  (∀ (s : State) (rest : List HostStmt), s.host.prog = .wait :: rest → hostStep s ≠ .fault .busError) ∧
  (∀ (s : State) (b' : Block) (off : Offset) (lanes : BitVec 4) (v : HostVal) (w : Word) (rest : List HostStmt),
    s.host.prog = .write off lanes v :: rest → hostValue s.host v = .ok w →
    busWrite s.blk off lanes w = .okay b' →
    hostStep s = .next { s with blk := b', host := { s.host with prog := rest } })

/-- With BUSY = 1 a write to any writable location is answered OKAY, discarded, and sets OVERRUN: nothing else changes,
the latched command among it (40_control R111). -/
def Obligations.BusyWritesAreDiscarded : Prop :=
  ∀ (b : Block) (off : Offset) (v : Word), b.cfg.wellFormed = true → busy b = true → writable b.cfg off = true →
    busWrite b off allLanes v = .okay { b with overrun := true }

/-- With BUSY = 1 a read of ID or PARAM0 to PARAM2 returns its constant (10_state R21, R22), a read of STATUS has bit 0
set and OVERRUN in bit 2, and its bits 1 and 3 to 5 and every other accepted read are undetermined (40_control R111).
That STATUS's reserved bits read 0 also while busy (10_state R23) and that CMD's read is undetermined, not 0, then is the
model's reading (notes/assumptions/8.md); that an undetermined bit is the bit at its own place of the read's free word is
the model's choice (notes/assumptions/4.md). -/
def Obligations.BusyReadsShowOnlyDefinedBits : Prop :=
  ∀ (b : Block) (off : Offset) (d : Word), b.cfg.wellFormed = true → busy b = true → readable b.cfg off = true →
    ∃ w : Word, busRead b off allLanes d = .okay w ∧
      (off = 0x000 → w = 0x48554646) ∧
      (off = 0x004 → w.toNat = b.cfg.maxSyms) ∧
      (off = 0x008 → w.toNat = b.cfg.maxBits) ∧
      (off = 0x00C → w = match b.cfg.weightMode with | .countExact => 0 | .binary64 => 1) ∧
      (off = 0x010 → w.getLsbD 0 = true ∧ w.getLsbD 2 = b.overrun ∧ w.getLsbD 1 = d.getLsbD 1 ∧
        w.getLsbD 3 = d.getLsbD 3 ∧ w.getLsbD 4 = d.getLsbD 4 ∧ w.getLsbD 5 = d.getLsbD 5 ∧ w &&& 0x3F = w) ∧
      (off ≠ 0x000 → off ≠ 0x004 → off ≠ 0x008 → off ≠ 0x00C → off ≠ 0x010 → w = d)

/-- "A host write of word w to CMD when STATUS.BUSY = 0 sets PENDING <- w": any word, unchecked, and nothing else
changes (40_control R110). -/
def Obligations.CmdWriteLatchesAnyWord : Prop :=
  ∀ (b : Block) (w : Word), busy b = false →
    busWrite b 0x018 allLanes w = .okay { b with pending := some w } ∧ busy { b with pending := some w } = true

/-- With BUSY = 0 a word written to INBUF, BITBUF or PKBUF writes every cell it covers (20_memory R66), each at its
place: byte lane t is bits 31-8t to 24-8t (R67), stream bit j is bit 31-j (R68); every other cell of the buffer, and all
the rest of the block, is as before; and the word reads back whole. A word written to ARG, IN_LEN, BIT_LEN or PK_LEN is
stored in that register and in no other and reads back (10_state R26, R28, R30, R31; R64). -/
def Obligations.WrittenWordsReadBack : Prop :=
  (∀ (b : Block) (v d : Word), busy b = false →
    busWrite b 0x01C allLanes v = .okay { b with arg := v } ∧
      busRead { b with arg := v } 0x01C allLanes d = .okay v ∧
    busWrite b 0x028 allLanes v = .okay { b with inLen := v } ∧
      busRead { b with inLen := v } 0x028 allLanes d = .okay v ∧
    busWrite b 0x030 allLanes v = .okay { b with bitLen := v } ∧
      busRead { b with bitLen := v } 0x030 allLanes d = .okay v ∧
    busWrite b 0x034 allLanes v = .okay { b with pkLen := v } ∧
      busRead { b with pkLen := v } 0x034 allLanes d = .okay v) ∧
  ∀ (b : Block) (v d : Word) (n : Nat), b.cfg.wellFormed = true → busy b = false →
    (4 * n + 3 < symCells b.cfg →
      ∃ b' : Block, busWrite b (BitVec.ofNat 20 (0x10000 + 4 * n)) allLanes v = .okay b' ∧
        busRead b' (BitVec.ofNat 20 (0x10000 + 4 * n)) allLanes d = .okay v ∧
        (∀ t : Nat, t < 4 → Memory.get b'.inbuf (4 * n + t) = some (v.extractLsb' (24 - 8 * t) 8)) ∧
        (∀ j : Nat, j < 4 * n ∨ 4 * n + 4 ≤ j → Memory.get b'.inbuf j = Memory.get b.inbuf j) ∧
        b' = { b with inbuf := b'.inbuf }) ∧
    (4 * n + 3 < maxPk b.cfg →
      ∃ b' : Block, busWrite b (BitVec.ofNat 20 (0x80000 + 4 * n)) allLanes v = .okay b' ∧
        busRead b' (BitVec.ofNat 20 (0x80000 + 4 * n)) allLanes d = .okay v ∧
        (∀ t : Nat, t < 4 → Memory.get b'.pkbuf (4 * n + t) = some (v.extractLsb' (24 - 8 * t) 8)) ∧
        (∀ j : Nat, j < 4 * n ∨ 4 * n + 4 ≤ j → Memory.get b'.pkbuf j = Memory.get b.pkbuf j) ∧
        b' = { b with pkbuf := b'.pkbuf }) ∧
    (32 * n + 31 < b.cfg.maxBits →
      ∃ b' : Block, busWrite b (BitVec.ofNat 20 (0x40000 + 4 * n)) allLanes v = .okay b' ∧
        busRead b' (BitVec.ofNat 20 (0x40000 + 4 * n)) allLanes d = .okay v ∧
        (∀ j : Nat, j < 32 → Memory.get b'.bitbuf (32 * n + j) = some (v.getLsbD (31 - j))) ∧
        (∀ j : Nat, j < 32 * n ∨ 32 * n + 32 ≤ j → Memory.get b'.bitbuf j = Memory.get b.bitbuf j) ∧
        b' = { b with bitbuf := b'.bitbuf })

/-- What a buffer word shows, cell by cell: a written byte in its big-endian lane and a written bit at its place, "the
word views of PKBUF and BITBUF number stream bits the same way" (20_memory R69). That an unwritten cell, whose value R78
leaves undetermined, shows the bits of the read's free word at its own place is the model's choice
(notes/assumptions/4.md). With BUSY = 0 the port shows so word n of each buffer, OUTBUF among them, at the window's base
+ 4n, for every word of the buffer's storage (R67, R77). -/
def Obligations.BufferWordsShowTheirCells : Prop :=
  (∀ (b : Block) (n : Nat) (d : Word), b.cfg.wellFormed = true → busy b = false →
    (4 * n + 3 < symCells b.cfg →
      busRead b (BitVec.ofNat 20 (0x10000 + 4 * n)) allLanes d = .okay (readByteWord b.inbuf n d) ∧
      busRead b (BitVec.ofNat 20 (0x20000 + 4 * n)) allLanes d = .okay (readByteWord b.outbuf n d)) ∧
    (32 * n + 31 < b.cfg.maxBits →
      busRead b (BitVec.ofNat 20 (0x40000 + 4 * n)) allLanes d = .okay (readBitWord b.bitbuf n d)) ∧
    (4 * n + 3 < maxPk b.cfg →
      busRead b (BitVec.ofNat 20 (0x80000 + 4 * n)) allLanes d = .okay (readByteWord b.pkbuf n d))) ∧
  (∀ (m : Memory Byte) (d : Word) (j : Nat) (v : Byte), Memory.get m (j / 8) = some v →
    (readByteWord m (j / 32) d).getLsbD (31 - j % 32) = v.getLsbD (7 - j % 8)) ∧
  (∀ (m : Memory Byte) (d : Word) (j : Nat), Memory.get m (j / 8) = none →
    (readByteWord m (j / 32) d).getLsbD (31 - j % 32) = d.getLsbD (31 - j % 32)) ∧
  (∀ (m : Memory Bool) (d : Word) (j : Nat) (v : Bool), Memory.get m j = some v →
    (readBitWord m (j / 32) d).getLsbD (31 - j % 32) = v) ∧
  (∀ (m : Memory Bool) (d : Word) (j : Nat), Memory.get m j = none →
    (readBitWord m (j / 32) d).getLsbD (31 - j % 32) = d.getLsbD (31 - j % 32))

/-- The table windows with BUSY = 0: COUNTW and ORDERW words (20_memory R74); NODEW entries field by field, also unused
ones: USED 31, LEAF 30, 29:23 zero, SYM 22:16, LEFT 15:8, RIGHT 7:0 of word 0, CW, PW high and low, so that "a leaf with
symbol s reads word 0 = 0xC0000000 | (s << 16), and an internal node with children l, r reads word 0 = 0x80000000 | (l
<< 8) | r" (R75); CODEW entries, code bit j at word 1 + j div 32, bit 31 - (j mod 32) (R76). -/
def Obligations.TableWindowLayouts : Prop :=
  ∀ (b : Block) (d : Word), busy b = false →
    (∀ x : Sym, busRead b (BitVec.ofNat 20 (0x01000 + 4 * x.toNat)) allLanes d = .okay (atSym b.count x)) ∧
    (∀ i : BitVec 7, busRead b (BitVec.ofNat 20 (0x01200 + 4 * i.toNat)) allLanes d =
      .okay ((atSym b.order i).setWidth 32)) ∧
    (∀ k : BitVec 8, ∃ w0 w2 w3 : Word,
      busRead b (BitVec.ofNat 20 (0x02000 + 16 * k.toNat)) allLanes d = .okay w0 ∧
      busRead b (BitVec.ofNat 20 (0x02000 + 16 * k.toNat + 4)) allLanes d = .okay (atNode b.node k).cw ∧
      busRead b (BitVec.ofNat 20 (0x02000 + 16 * k.toNat + 8)) allLanes d = .okay w2 ∧
      busRead b (BitVec.ofNat 20 (0x02000 + 16 * k.toNat + 12)) allLanes d = .okay w3 ∧
      w2 ++ w3 = (atNode b.node k).pw ∧
      w0.getLsbD 31 = (atNode b.node k).used ∧ w0.getLsbD 30 = (atNode b.node k).leaf ∧
      w0.extractLsb' 23 7 = 0 ∧ w0.extractLsb' 16 7 = (atNode b.node k).sym ∧
      w0.extractLsb' 8 8 = (atNode b.node k).left ∧ w0.extractLsb' 0 8 = (atNode b.node k).right ∧
      (∀ s : Sym, atNode b.node k = { Node.zero with
          used := true, leaf := true, sym := s, cw := (atNode b.node k).cw, pw := (atNode b.node k).pw } →
        w0 = 0xC0000000 ||| (s.setWidth 32 <<< 16)) ∧
      (∀ l r : BitVec 8, atNode b.node k = { Node.zero with
          used := true, left := l, right := r, cw := (atNode b.node k).cw, pw := (atNode b.node k).pw } →
        w0 = 0x80000000 ||| (l.setWidth 32 <<< 8) ||| r.setWidth 32)) ∧
    (∀ x : Sym, ∃ ws : List Word, ws.length = 8 ∧
      (∀ n : Nat, n < 8 → ∃ w : Word, ws[n]? = some w ∧
        busRead b (BitVec.ofNat 20 (0x03000 + 32 * x.toNat + 4 * n)) allLanes d = .okay w) ∧
      (∀ w : Word, ws[0]? = some w → w.getLsbD 31 = (atSym b.code x).valid ∧
        w.extractLsb' 0 8 = (atSym b.code x).len ∧ w.extractLsb' 8 23 = 0) ∧
      (∀ (j : Nat) (w : Word), j < 127 → ws[1 + j / 32]? = some w →
        w.getLsbD (31 - j % 32) = (atSym b.code x).bits.getMsbD j) ∧
      (∀ w : Word, ws[4]? = some w → w.getLsbD 0 = false) ∧
      ws[5]? = some 0 ∧ ws[6]? = some 0 ∧ ws[7]? = some 0)

/-! ## Host programs, arithmetic, and the whole pipeline -/

/-- A host program that uses a name only after a read bound it is never refused, and what is left of it stays so
(30_encoding R97; the refusal of an unbound name is the model's choice, notes/assumptions/15.md). -/
def Obligations.BoundHostProgramsAreNeverRefused : Prop :=
  ∀ s : State, s.host.wellFormed = true →
    (∀ r : Refusal, step s ≠ .refused r) ∧ (∀ t : State, step s = .next t → t.host.wellFormed = true)

/-- `RNE` (00_scope R15): no finite non-negative binary64 value is nearer to num/den than the one `rne` gives, and when
another is as near, `rne`'s significand is even. Distances are in units of 2^-1074/den. -/
def Obligations.RoundingIsNearestEven : Prop :=
  ∀ (num den : Nat) (p : BitVec 64), 0 < den → num < den * 2 ^ 1023 → p.toNat < 2047 * 2 ^ 52 →
    (rne num den).toNat < 2047 * 2 ^ 52 ∧
    |((f64Scaled (rne num den) * den : Nat) : Int) - ((num * 2 ^ 1074 : Nat) : Int)| ≤
      |((f64Scaled p * den : Nat) : Int) - ((num * 2 ^ 1074 : Nat) : Int)| ∧
    (|((f64Scaled (rne num den) * den : Nat) : Int) - ((num * 2 ^ 1074 : Nat) : Int)| =
        |((f64Scaled p * den : Nat) : Int) - ((num * 2 ^ 1074 : Nat) : Int)| →
      p ≠ rne num den → (rne num den).getLsbD 0 = false)

/-- "for all symbol streams S over the supported alphabet, decode(encode(S)) == S" (45_decoder R203): from any state
with the invariants and S in INBUF, the commands FREQ_SCAN, BUILD, GEN_CODES complete, and if S's bitstring fits
MAX_BITS then ENCODE, PACK, UNPACK and DECODE with ARG = |S| complete with ERROR = 0, OUT_LEN = |S|,
OUTBUF[0..|S|) = S and RESULT1 = 0. -/
def Obligations.DecodeInvertsEncode : Prop :=
  ∀ (s0 : State) (ss : List Sym), BlockInv s0.blk → InputIs s0.blk ss →
    ∃ s1 s2 s3 : State,
      exec .freqScan s0 = .next s1 ∧ s1.blk.error = .none ∧
      exec .build s1 = .next s2 ∧ s2.blk.error = .none ∧
      exec .genCodes s2 = .next s3 ∧ s3.blk.error = .none ∧
      ((codeString s3.blk ss).length ≤ s0.blk.cfg.maxBits →
        ∃ s4 s5 s6 s7 : State,
          exec .encode s3 = .next s4 ∧ s4.blk.error = .none ∧
          exec .pack s4 = .next s5 ∧ s5.blk.error = .none ∧
          exec .unpack s5 = .next s6 ∧ s6.blk.error = .none ∧
          exec .decode { s6 with blk := { s6.blk with arg := BitVec.ofNat 32 ss.length } } = .next s7 ∧
          s7.blk.error = .none ∧ s7.blk.outLen.toNat = ss.length ∧
          Holds s7.blk.outbuf (ss.map (fun x => x.setWidth 8)) ∧ s7.blk.result1 = 0)
end

