-- ==== Sys2Proof/Laws/Memory.lean ====
section
/-! SUPPORT. Laws of buffer cells: a read after a write, and every memory operation keeps the canonical form and the
capacity. -/

namespace Sys2Proof.Machine

variable {α : Type}

@[simp] theorem Memory.get_nil (i : Nat) : Memory.get ([] : Memory α) i = none := rfl

/-- A read after a write: the value written at its own cell, the old value elsewhere. -/
theorem Memory.get_set (m : Memory α) (i j : Nat) (v : α) :
    Memory.get (Memory.set m i v) j = if j = i then some v else Memory.get m j := by
  induction m with
  | nil => simp only [Memory.set, Memory.get, eq_comm (a := i)]
  | cons c m ih =>
    obtain ⟨k, w⟩ := c
    unfold Memory.set
    split_ifs with h1 h2 h2 h3 h3
    · simp only [Memory.get]; rw [if_pos h2.symm]
    · simp only [Memory.get]; rw [if_neg (Ne.symm h2)]
    · simp only [Memory.get]; rw [if_pos h3.symm]
    · simp only [Memory.get]; rw [if_neg (Ne.symm h3), if_neg (by omega)]
    · simp only [Memory.get, ih]; rw [if_neg (by omega), if_pos h3]
    · simp only [Memory.get, ih]; rw [if_neg h3]

@[simp] theorem Memory.get_set_self (m : Memory α) (i : Nat) (v : α) :
    Memory.get (Memory.set m i v) i = some v := by simp [Memory.get_set]

/-- A read after a range write: the list's value inside the range, the old value outside. -/
theorem Memory.get_setRange (vs : List α) (m : Memory α) (i j : Nat) :
    Memory.get (Memory.setRange m i vs) j =
      if i ≤ j ∧ j < i + vs.length then vs[j - i]? else Memory.get m j := by
  induction vs generalizing m i with
  | nil => simp only [Memory.setRange, List.length_nil]; rw [if_neg (by omega)]
  | cons v vs ih =>
    simp only [Memory.setRange, ih, Memory.get_set, List.length_cons]
    rcases Nat.lt_trichotomy j i with h | rfl | h
    · rw [if_neg (by omega), if_neg (by omega), if_neg (by omega)]
    · rw [if_neg (by omega), if_pos rfl, if_pos (by omega)]; simp
    · obtain ⟨d, rfl⟩ : ∃ d, j = i + 1 + d := ⟨j - (i + 1), by omega⟩
      by_cases hd : d < vs.length
      · rw [if_pos (by omega), if_pos (by omega)]
        simp [show i + 1 + d - (i + 1) = d by omega, show i + 1 + d - i = d + 1 by omega]
      · rw [if_neg (by omega), if_neg (by omega), if_neg (by omega)]

@[simp] theorem Memory.setRange_nil (m : Memory α) (i : Nat) : Memory.setRange m i [] = m := rfl

theorem Memory.wf_cons (k : Nat) (v : α) (m : Memory α) :
    Memory.wf ((k, v) :: m) = true ↔ (∀ c ∈ m, k < c.1) ∧ Memory.wf m = true := by
  simp [Memory.wf]

theorem Memory.within_iff (cap : Nat) (m : Memory α) :
    Memory.within cap m = true ↔ ∀ c ∈ m, c.1 < cap := by
  simp [Memory.within]

/-- The cells of a memory after a write are the written one and old ones. -/
theorem Memory.mem_set (m : Memory α) (i : Nat) (v : α) (c : Nat × α) (h : c ∈ Memory.set m i v) :
    c = (i, v) ∨ c ∈ m := by
  induction m with
  | nil => simpa [Memory.set] using h
  | cons d m ih =>
    obtain ⟨k, w⟩ := d
    unfold Memory.set at h
    split_ifs at h with h1 h2
    · simpa using h
    · rcases List.mem_cons.1 h with h | h
      · exact .inl h
      · exact .inr (List.mem_cons_of_mem _ h)
    · rcases List.mem_cons.1 h with h | h
      · exact .inr (by simp [h])
      · rcases ih h with h | h
        · exact .inl h
        · exact .inr (List.mem_cons_of_mem _ h)

/-- A write keeps the canonical form. -/
theorem Memory.wf_set (m : Memory α) (i : Nat) (v : α) (h : Memory.wf m = true) :
    Memory.wf (Memory.set m i v) = true := by
  induction m with
  | nil => simp [Memory.set, Memory.wf]
  | cons d m ih =>
    obtain ⟨k, w⟩ := d
    obtain ⟨hk, hm⟩ := (Memory.wf_cons k w m).1 h
    unfold Memory.set
    split_ifs with h1 h2
    · refine (Memory.wf_cons _ _ _).2 ⟨fun c hc => ?_, h⟩
      rcases List.mem_cons.1 hc with rfl | hc
      · exact h1
      · exact lt_trans h1 (hk c hc)
    · exact (Memory.wf_cons _ _ _).2 ⟨fun c hc => h2 ▸ hk c hc, hm⟩
    · refine (Memory.wf_cons _ _ _).2 ⟨fun c hc => ?_, ih hm⟩
      rcases Memory.mem_set m i v c hc with rfl | hc
      · show k < i
        omega
      · exact hk c hc

theorem Memory.wf_setRange (vs : List α) (m : Memory α) (i : Nat) (h : Memory.wf m = true) :
    Memory.wf (Memory.setRange m i vs) = true := by
  induction vs generalizing m i with
  | nil => exact h
  | cons v vs ih => exact ih _ _ (Memory.wf_set m i v h)

/-- A write inside the capacity stays inside it. -/
theorem Memory.within_set (cap : Nat) (m : Memory α) (i : Nat) (v : α) (h : Memory.within cap m = true)
    (hi : i < cap) : Memory.within cap (Memory.set m i v) = true := by
  rw [Memory.within_iff] at h ⊢
  intro c hc
  rcases Memory.mem_set m i v c hc with rfl | hc
  · exact hi
  · exact h c hc

theorem Memory.within_setRange (cap : Nat) (vs : List α) (m : Memory α) (i : Nat) (h : Memory.within cap m = true)
    (hi : i + vs.length ≤ cap) : Memory.within cap (Memory.setRange m i vs) = true := by
  induction vs generalizing m i with
  | nil => exact h
  | cons v vs ih =>
    rw [List.length_cons] at hi
    exact ih _ _ (Memory.within_set cap m i v h (by omega)) (by omega)

/-- A cell with a value is one of the listed ones. -/
theorem Memory.mem_of_get (m : Memory α) (i : Nat) (v : α) (h : Memory.get m i = some v) : (i, v) ∈ m := by
  induction m with
  | nil => simp at h
  | cons c m ih =>
    obtain ⟨k, w⟩ := c
    unfold Memory.get at h
    split_ifs at h with hk
    · subst hk; simp_all
    · exact List.mem_cons_of_mem _ (ih h)

/-- Two memories in canonical form with the same cells are equal data. -/
theorem Memory.ext_of_wf (m m' : Memory α) (h : Memory.wf m = true) (h' : Memory.wf m' = true)
    (hg : ∀ i, Memory.get m i = Memory.get m' i) : m = m' := by
  induction m generalizing m' with
  | nil =>
    cases m' with
    | nil => rfl
    | cons c m' => have := hg c.1; simp [Memory.get] at this
  | cons c m ih =>
    obtain ⟨k, v⟩ := c
    obtain ⟨hk, hm⟩ := (Memory.wf_cons k v m).1 h
    cases m' with
    | nil => have := hg k; simp [Memory.get] at this
    | cons c' m' =>
      obtain ⟨k', v'⟩ := c'
      obtain ⟨hk', hm'⟩ := (Memory.wf_cons k' v' m').1 h'
      have low : ∀ (n : Memory α) (j : Nat), (∀ c ∈ n, j < c.1) → Memory.get n j = none := by
        intro n j hn
        cases hj : Memory.get n j with
        | none => rfl
        | some w => exact absurd (hn _ (Memory.mem_of_get n j w hj)) (lt_irrefl j)
      have hkk : k = k' := by
        rcases Nat.lt_trichotomy k k' with hlt | heq | hlt
        · have h1 := hg k
          rw [Memory.get, if_pos rfl, Memory.get, if_neg (by omega), low m' k (fun c hc => lt_trans hlt (hk' c hc))] at h1
          exact absurd h1 (by simp)
        · exact heq
        · have h1 := hg k'
          rw [Memory.get, if_neg (by omega), Memory.get, if_pos rfl, low m k' (fun c hc => lt_trans hlt (hk c hc))] at h1
          exact absurd h1 (by simp)
      subst hkk
      have hv := hg k
      simp only [Memory.get, if_true, Option.some.injEq] at hv
      subst hv
      congr 1
      refine ih m' hm hm' fun i => ?_
      by_cases hik : k = i
      · subst hik; rw [low m k hk, low m' k hk']
      · have := hg i; simpa [Memory.get, hik] using this

end Sys2Proof.Machine
end

