-- ==== Sys2Proof/Laws/Operands.lean ====
section
/-! SUPPORT. Laws of the operand forms: bit order, codes, reads in stream order, and the buffer writes. -/

namespace Sys2Proof.Machine

/-! ## Bit order -/

@[simp] theorem getMsbD_msbBits (n : Nat) (f : Nat → Bool) (j : Nat) :
    (msbBits n f).getMsbD j = (decide (j < n) && f j) := by
  have hlen : ((List.range n).map f).length = n := by simp
  have key : ∀ (l : List Bool), l.length = n → ((BitVec.ofBoolListBE l).setWidth n).getMsbD j = l.getD j false := by
    intro l hl
    subst hl
    rw [BitVec.setWidth_eq]
    exact BitVec.getMsbD_ofBoolListBE
  rw [msbBits, key _ hlen]
  by_cases h : j < n <;> simp [h, List.getD]

@[simp] theorem length_bitsOf {n : Nat} (v : BitVec n) : (bitsOf v).length = n := by simp [bitsOf]

theorem getElem?_bitsOf {n : Nat} (v : BitVec n) (j : Nat) (h : j < n) : (bitsOf v)[j]? = some (v.getMsbD j) := by
  simp [bitsOf, h]

theorem getD_bitsOf {n : Nat} (v : BitVec n) (j : Nat) : (bitsOf v).getD j false = v.getMsbD j := by
  by_cases h : j < n
  · simp [List.getD, getElem?_bitsOf v j h]
  · rw [BitVec.getMsbD_of_ge _ _ (by omega)]
    simp [List.getD, bitsOf, h]

/-- Packing the bits of a value gives the value back. -/
@[simp] theorem msbBits_bitsOf {n : Nat} (v : BitVec n) : msbBits n (fun j => (bitsOf v).getD j false) = v := by
  apply BitVec.eq_of_getMsbD_eq
  intro i hi
  rw [getMsbD_msbBits, getD_bitsOf]
  simp [hi]

/-- The bits of a packed value are the list they were packed from. -/
theorem bitsOf_msbBits (n : Nat) (l : List Bool) (h : l.length = n) :
    bitsOf (msbBits n (fun j => l.getD j false)) = l := by
  apply List.ext_getElem
  · simp [h]
  · intro i h1 h2
    simp [bitsOf] at h1 ⊢
    simp [h1, h ▸ h1]

/-! ## Codes -/

/-- A path of at most 127 bits is read back from its table entry. -/
theorem path_ofPath (p : List Bool) (h : p.length ≤ 127) : (CodeEntry.ofPath p).path = p := by
  have hl : (CodeEntry.ofPath p).len.toNat = p.length := by
    show (BitVec.ofNat 8 p.length).toNat = p.length
    rw [BitVec.toNat_ofNat]
    omega
  apply List.ext_getElem
  · simp [CodeEntry.path, hl]
  · intro i h1 h2
    have h3 : i < 127 := by omega
    simp [CodeEntry.path, CodeEntry.ofPath, h3, h2]

@[simp] theorem path_absent : CodeEntry.absent.path = [] := by simp [CodeEntry.path, CodeEntry.absent]

@[simp] theorem length_path (e : CodeEntry) : e.path.length = e.len.toNat := by simp [CodeEntry.path]

/-! ## Tables -/

theorem atSym_setSym {α : Type} (t : Vector α 128) (s r : Sym) (v : α) :
    atSym (setSym t s v) r = if r = s then v else atSym t r := by
  have hr : r.toNat < 128 := r.isLt
  have hs : s.toNat < 128 := s.isLt
  unfold atSym setSym
  rw [Vector.getElem_set]
  by_cases h : r = s
  · simp [h]
  · rw [if_neg h, if_neg]
    exact fun hn => h (BitVec.eq_of_toNat_eq hn.symm)

@[simp] theorem atSym_replicate {α : Type} (v : α) (s : Sym) : atSym (Vector.replicate 128 v) s = v := by
  simp [atSym]

@[simp] theorem atNode_replicate (v : Node) (k : BitVec 8) : atNode (Vector.replicate 256 v) k = v := by
  simp [atNode]

/-- Two tables with the same entries are equal. -/
theorem table_ext {α : Type} (t u : Vector α 128) (h : ∀ s : Sym, atSym t s = atSym u s) : t = u := by
  apply Vector.ext
  intro i hi
  have := h (BitVec.ofNat 7 i)
  simpa [atSym, Nat.mod_eq_of_lt hi] using this

theorem nodes_ext (t u : Vector Node 256) (h : ∀ k : BitVec 8, atNode t k = atNode u k) : t = u := by
  apply Vector.ext
  intro i hi
  have := h (BitVec.ofNat 8 i)
  simpa [atNode, Nat.mod_eq_of_lt hi] using this

/-! ## Reads in stream order -/

theorem readCell_ok {α : Type} (buf : Buf) (m : Memory α) (i : Nat) (v : α) :
    readCell buf m i = .ok v ↔ Memory.get m i = some v := by
  unfold readCell
  cases h : Memory.get m i <;> simp

theorem readCell_error {α : Type} (buf : Buf) (m : Memory α) (i : Nat) (e : Stop) :
    readCell buf m i = .error e ↔ Memory.get m i = none ∧ e = .fault (.uninit buf i) := by
  unfold readCell
  cases h : Memory.get m i <;> simp [eq_comm]

/-- Every element is there: the read of a range succeeds with exactly these values. -/
theorem readFrom_ok {α : Type} (rd : Nat → Except Stop α) (i n : Nat) (vs : List α) :
    readFrom rd i n = .ok vs ↔ vs.length = n ∧ ∀ j, (h : j < vs.length) → rd (i + j) = .ok vs[j] := by
  induction n generalizing i vs with
  | zero =>
    simp only [readFrom, Except.ok.injEq]
    constructor
    · rintro rfl; simp
    · rintro ⟨h, -⟩; exact (List.eq_nil_of_length_eq_zero h).symm
  | succ n ih =>
    unfold readFrom
    cases h0 : rd i with
    | error e =>
      simp only [reduceCtorEq, false_iff, not_and, not_forall]
      intro hl
      exact ⟨0, by omega, by simp [h0]⟩
    | ok v =>
      cases h1 : readFrom rd (i + 1) n with
      | error e =>
        simp only [reduceCtorEq, false_iff]
        rintro ⟨hl, ha⟩
        cases vs with
        | nil => simp at hl
        | cons w ws =>
          have : readFrom rd (i + 1) n = .ok ws := by
            refine (ih (i + 1) ws).2 ⟨by simpa using hl, fun j hj => ?_⟩
            have := ha (j + 1) (by simpa using hj)
            simpa [Nat.add_assoc, Nat.add_comm 1 j] using this
          rw [h1] at this
          cases this
      | ok ws =>
        simp only [Except.ok.injEq]
        constructor
        · rintro rfl
          obtain ⟨hl, ha⟩ := (ih (i + 1) ws).1 h1
          refine ⟨by simp [hl], fun j hj => ?_⟩
          cases j with
          | zero => simpa using h0
          | succ j =>
            have := ha j (by simpa using hj)
            simpa [Nat.add_assoc, Nat.add_comm 1 j] using this
        · rintro ⟨hl, ha⟩
          cases vs with
          | nil => simp at hl
          | cons w us =>
            have hw := ha 0 (by simp)
            simp only [Nat.add_zero, List.getElem_cons_zero, h0, Except.ok.injEq] at hw
            have : readFrom rd (i + 1) n = .ok us := by
              refine (ih (i + 1) us).2 ⟨by simpa using hl, fun j hj => ?_⟩
              have := ha (j + 1) (by simpa using hj)
              simpa [Nat.add_assoc, Nat.add_comm 1 j] using this
            rw [h1] at this
            simp only [Except.ok.injEq] at this
            rw [hw, this]

/-- The read of a range stops exactly at its first bad element, with that element's reason. -/
theorem readFrom_error {α : Type} (rd : Nat → Except Stop α) (i n : Nat) (e : Stop) :
    readFrom rd i n = .error e ↔
      ∃ j, j < n ∧ rd (i + j) = .error e ∧ ∀ k, k < j → ∃ v, rd (i + k) = .ok v := by
  induction n generalizing i with
  | zero => simp [readFrom]
  | succ n ih =>
    unfold readFrom
    cases h0 : rd i with
    | error e' =>
      simp only [Except.error.injEq]
      constructor
      · rintro rfl
        exact ⟨0, by omega, by simpa using h0, by simp⟩
      · rintro ⟨j, -, hj, hk⟩
        cases j with
        | zero => simpa [h0] using hj
        | succ j =>
          obtain ⟨v, hv⟩ := hk 0 (by omega)
          simp [h0] at hv
    | ok v =>
      have shift : (∃ j, j < n + 1 ∧ rd (i + j) = .error e ∧ ∀ k, k < j → ∃ v, rd (i + k) = .ok v) ↔
          readFrom rd (i + 1) n = .error e := by
        rw [ih]
        constructor
        · rintro ⟨j, hj, he, hk⟩
          cases j with
          | zero => simp [h0] at he
          | succ j =>
            refine ⟨j, by omega, by simpa [Nat.add_assoc, Nat.add_comm 1 j] using he, fun k hkj => ?_⟩
            have := hk (k + 1) (by omega)
            simpa [Nat.add_assoc, Nat.add_comm 1 k] using this
        · rintro ⟨j, hj, he, hk⟩
          refine ⟨j + 1, by omega, by simpa [Nat.add_assoc, Nat.add_comm 1 j] using he, fun k hkj => ?_⟩
          cases k with
          | zero => exact ⟨v, by simpa using h0⟩
          | succ k =>
            have := hk k (by omega)
            simpa [Nat.add_assoc, Nat.add_comm 1 k] using this
      rw [shift]
      cases h1 : readFrom rd (i + 1) n <;> simp

/-- The read of the first cells succeeds with a list exactly when they hold it. -/
theorem readCells_ok {α : Type} (buf : Buf) (m : Memory α) (n : Nat) (vs : List α) :
    readCells buf m n = .ok vs ↔ vs.length = n ∧ ∀ j, (h : j < vs.length) → Memory.get m j = some vs[j] := by
  simp [readCells, readFrom_ok, readCell_ok]

theorem readCells_error {α : Type} (buf : Buf) (m : Memory α) (n : Nat) (e : Stop) :
    readCells buf m n = .error e ↔
      ∃ j, j < n ∧ Memory.get m j = none ∧ e = .fault (.uninit buf j) ∧ ∀ k, k < j → ∃ v, Memory.get m k = some v := by
  simp [readCells, readFrom_error, readCell_ok, readCell_error, and_assoc]

theorem readSym_ok (m : Memory Byte) (i : Nat) (s : Sym) :
    readSym m i = .ok s ↔ Memory.get m i = some (s.setWidth 8) := by
  unfold readSym readCell
  cases h : Memory.get m i with
  | none => simp
  | some v =>
    simp only [Option.some.injEq]
    split_ifs with hv
    · simp only [false_iff]
      rintro rfl
      have := s.isLt
      rw [BitVec.toNat_setWidth_of_le (by omega)] at hv
      omega
    · simp only [Except.ok.injEq]
      constructor
      · rintro rfl
        apply BitVec.eq_of_toNat_eq
        simp only [BitVec.toNat_setWidth]
        omega
      · rintro rfl
        apply BitVec.eq_of_toNat_eq
        have := s.isLt
        simp only [BitVec.toNat_setWidth]
        omega

/-- What stops the read of a symbol: an unwritten cell, or a byte outside the alphabet. -/
theorem readSym_error (m : Memory Byte) (i : Nat) (e : Stop) :
    readSym m i = .error e ↔
      (Memory.get m i = none ∧ e = .fault (.uninit .inbuf i)) ∨
      (∃ v : Byte, Memory.get m i = some v ∧ 128 ≤ v.toNat ∧
        e = .raise .symbolRange (BitVec.ofNat 32 i) (v.setWidth 32)) := by
  unfold readSym readCell
  cases h : Memory.get m i with
  | none => simp [eq_comm]
  | some v =>
    simp only [Option.some.injEq, exists_eq_left']
    split_ifs with hv
    · simp [hv, eq_comm]
    · simp [hv]

theorem readSyms_ok (m : Memory Byte) (n : Nat) (ss : List Sym) :
    readSyms m n = .ok ss ↔
      ss.length = n ∧ ∀ j, (h : j < ss.length) → Memory.get m j = some (ss[j].setWidth 8) := by
  simp [readSyms, readFrom_ok, readSym_ok]

/-! ## Buffer writes -/

theorem le_ceilDiv (n d : Nat) (h : 0 < d) : n ≤ d * ceilDiv n d := by
  have h1 := Nat.div_add_mod (n + (d - 1)) d
  have h2 := Nat.mod_lt (n + (d - 1)) h
  unfold ceilDiv
  omega

theorem ceilDiv_le (n d c : Nat) (h : 0 < d) (hc : n ≤ d * c) : d * ceilDiv n d ≤ d * c := by
  unfold ceilDiv
  apply Nat.mul_le_mul_left
  rw [Nat.div_le_iff_le_mul_add_pred h]
  omega

/-- Everything a prefix write with tail fill does to a cell: the list's values, then 0 to the end of the last word,
then what was there. -/
theorem get_putBits (m : Memory Bool) (bs : List Bool) (j : Nat) :
    Memory.get (putBits m bs) j =
      if j < bs.length then bs[j]?
      else if j < 32 * ceilDiv bs.length 32 then some false
      else Memory.get m j := by
  have hle := le_ceilDiv bs.length 32 (by omega)
  unfold putBits tailFillBits
  rw [Memory.get_setRange, Memory.get_setRange, List.length_replicate]
  by_cases h1 : j < bs.length
  · rw [if_neg (by omega), if_pos (by omega), if_pos h1]; rfl
  · by_cases h2 : j < 32 * ceilDiv bs.length 32
    · rw [if_pos (by omega), if_neg h1, if_pos h2, List.getElem?_replicate, if_pos (by omega)]
    · rw [if_neg (by omega), if_neg (by omega), if_neg h1, if_neg h2]

theorem get_putBytes (m : Memory Byte) (bs : List Byte) (j : Nat) :
    Memory.get (putBytes m bs) j =
      if j < bs.length then bs[j]?
      else if j < 4 * ceilDiv bs.length 4 then some 0
      else Memory.get m j := by
  have hle := le_ceilDiv bs.length 4 (by omega)
  unfold putBytes tailFillBytes
  rw [Memory.get_setRange, Memory.get_setRange, List.length_replicate]
  by_cases h1 : j < bs.length
  · rw [if_neg (by omega), if_pos (by omega), if_pos h1]; rfl
  · by_cases h2 : j < 4 * ceilDiv bs.length 4
    · rw [if_pos (by omega), if_neg h1, if_pos h2, List.getElem?_replicate, if_pos (by omega)]
    · rw [if_neg (by omega), if_neg (by omega), if_neg h1, if_neg h2]

theorem wf_putBits (m : Memory Bool) (bs : List Bool) (h : Memory.wf m = true) : Memory.wf (putBits m bs) = true :=
  Memory.wf_setRange _ _ _ (Memory.wf_setRange _ _ _ h)

theorem wf_putBytes (m : Memory Byte) (bs : List Byte) (h : Memory.wf m = true) : Memory.wf (putBytes m bs) = true :=
  Memory.wf_setRange _ _ _ (Memory.wf_setRange _ _ _ h)

/-- A write whose last word ends inside the capacity stays inside it. -/
theorem within_putBits (cap : Nat) (m : Memory Bool) (bs : List Bool) (h : Memory.within cap m = true)
    (hc : 32 * ceilDiv bs.length 32 ≤ cap) : Memory.within cap (putBits m bs) = true := by
  have hle := le_ceilDiv bs.length 32 (by omega)
  refine Memory.within_setRange _ _ _ _ (Memory.within_setRange _ _ _ _ h (by omega)) ?_
  rw [List.length_replicate]; omega

theorem within_putBytes (cap : Nat) (m : Memory Byte) (bs : List Byte) (h : Memory.within cap m = true)
    (hc : 4 * ceilDiv bs.length 4 ≤ cap) : Memory.within cap (putBytes m bs) = true := by
  have hle := le_ceilDiv bs.length 4 (by omega)
  refine Memory.within_setRange _ _ _ _ (Memory.within_setRange _ _ _ _ h (by omega)) ?_
  rw [List.length_replicate]; omega

end Sys2Proof.Machine
end

