-- ==== Sys2Proof/Laws/State.lean ====
section
/-! SUPPORT. One lemma per field per update of the state, each true by rfl, so that no later proof unfolds a record
update; and the record equation of each command's commit, which is its whole frame. -/

namespace Sys2Proof.Machine

/-! ### complete -/

@[simp] theorem complete_cfg (b : Block) (e : ErrCode) (r0 r1 : Word) : (complete b e r0 r1).cfg = b.cfg := rfl
@[simp] theorem complete_pending (b : Block) (e : ErrCode) (r0 r1 : Word) : (complete b e r0 r1).pending = none := rfl
@[simp] theorem complete_overrun (b : Block) (e : ErrCode) (r0 r1 : Word) : (complete b e r0 r1).overrun = b.overrun := rfl
@[simp] theorem complete_anomaly (b : Block) (e : ErrCode) (r0 r1 : Word) : (complete b e r0 r1).anomaly = b.anomaly := rfl
@[simp] theorem complete_treeValid (b : Block) (e : ErrCode) (r0 r1 : Word) : (complete b e r0 r1).treeValid = b.treeValid := rfl
@[simp] theorem complete_codesValid (b : Block) (e : ErrCode) (r0 r1 : Word) : (complete b e r0 r1).codesValid = b.codesValid := rfl
@[simp] theorem complete_error (b : Block) (e : ErrCode) (r0 r1 : Word) : (complete b e r0 r1).error = e := rfl
@[simp] theorem complete_arg (b : Block) (e : ErrCode) (r0 r1 : Word) : (complete b e r0 r1).arg = b.arg := rfl
@[simp] theorem complete_result0 (b : Block) (e : ErrCode) (r0 r1 : Word) : (complete b e r0 r1).result0 = r0 := rfl
@[simp] theorem complete_result1 (b : Block) (e : ErrCode) (r0 r1 : Word) : (complete b e r0 r1).result1 = r1 := rfl
@[simp] theorem complete_inLen (b : Block) (e : ErrCode) (r0 r1 : Word) : (complete b e r0 r1).inLen = b.inLen := rfl
@[simp] theorem complete_outLen (b : Block) (e : ErrCode) (r0 r1 : Word) : (complete b e r0 r1).outLen = b.outLen := rfl
@[simp] theorem complete_bitLen (b : Block) (e : ErrCode) (r0 r1 : Word) : (complete b e r0 r1).bitLen = b.bitLen := rfl
@[simp] theorem complete_pkLen (b : Block) (e : ErrCode) (r0 r1 : Word) : (complete b e r0 r1).pkLen = b.pkLen := rfl
@[simp] theorem complete_total (b : Block) (e : ErrCode) (r0 r1 : Word) : (complete b e r0 r1).total = b.total := rfl
@[simp] theorem complete_ndist (b : Block) (e : ErrCode) (r0 r1 : Word) : (complete b e r0 r1).ndist = b.ndist := rfl
@[simp] theorem complete_nleaf (b : Block) (e : ErrCode) (r0 r1 : Word) : (complete b e r0 r1).nleaf = b.nleaf := rfl
@[simp] theorem complete_root (b : Block) (e : ErrCode) (r0 r1 : Word) : (complete b e r0 r1).root = b.root := rfl
@[simp] theorem complete_synth (b : Block) (e : ErrCode) (r0 r1 : Word) : (complete b e r0 r1).synth = b.synth := rfl
@[simp] theorem complete_count (b : Block) (e : ErrCode) (r0 r1 : Word) : (complete b e r0 r1).count = b.count := rfl
@[simp] theorem complete_order (b : Block) (e : ErrCode) (r0 r1 : Word) : (complete b e r0 r1).order = b.order := rfl
@[simp] theorem complete_node (b : Block) (e : ErrCode) (r0 r1 : Word) : (complete b e r0 r1).node = b.node := rfl
@[simp] theorem complete_code (b : Block) (e : ErrCode) (r0 r1 : Word) : (complete b e r0 r1).code = b.code := rfl
@[simp] theorem complete_inbuf (b : Block) (e : ErrCode) (r0 r1 : Word) : (complete b e r0 r1).inbuf = b.inbuf := rfl
@[simp] theorem complete_outbuf (b : Block) (e : ErrCode) (r0 r1 : Word) : (complete b e r0 r1).outbuf = b.outbuf := rfl
@[simp] theorem complete_bitbuf (b : Block) (e : ErrCode) (r0 r1 : Word) : (complete b e r0 r1).bitbuf = b.bitbuf := rfl
@[simp] theorem complete_pkbuf (b : Block) (e : ErrCode) (r0 r1 : Word) : (complete b e r0 r1).pkbuf = b.pkbuf := rfl

/-! ### invalidateCodes -/

@[simp] theorem invalidateCodes_cfg (b : Block) : (invalidateCodes b).cfg = b.cfg := rfl
@[simp] theorem invalidateCodes_pending (b : Block) : (invalidateCodes b).pending = b.pending := rfl
@[simp] theorem invalidateCodes_overrun (b : Block) : (invalidateCodes b).overrun = b.overrun := rfl
@[simp] theorem invalidateCodes_anomaly (b : Block) : (invalidateCodes b).anomaly = b.anomaly := rfl
@[simp] theorem invalidateCodes_treeValid (b : Block) : (invalidateCodes b).treeValid = b.treeValid := rfl
@[simp] theorem invalidateCodes_codesValid (b : Block) : (invalidateCodes b).codesValid = false := rfl
@[simp] theorem invalidateCodes_error (b : Block) : (invalidateCodes b).error = b.error := rfl
@[simp] theorem invalidateCodes_arg (b : Block) : (invalidateCodes b).arg = b.arg := rfl
@[simp] theorem invalidateCodes_result0 (b : Block) : (invalidateCodes b).result0 = b.result0 := rfl
@[simp] theorem invalidateCodes_result1 (b : Block) : (invalidateCodes b).result1 = b.result1 := rfl
@[simp] theorem invalidateCodes_inLen (b : Block) : (invalidateCodes b).inLen = b.inLen := rfl
@[simp] theorem invalidateCodes_outLen (b : Block) : (invalidateCodes b).outLen = b.outLen := rfl
@[simp] theorem invalidateCodes_bitLen (b : Block) : (invalidateCodes b).bitLen = b.bitLen := rfl
@[simp] theorem invalidateCodes_pkLen (b : Block) : (invalidateCodes b).pkLen = b.pkLen := rfl
@[simp] theorem invalidateCodes_total (b : Block) : (invalidateCodes b).total = b.total := rfl
@[simp] theorem invalidateCodes_ndist (b : Block) : (invalidateCodes b).ndist = b.ndist := rfl
@[simp] theorem invalidateCodes_nleaf (b : Block) : (invalidateCodes b).nleaf = b.nleaf := rfl
@[simp] theorem invalidateCodes_root (b : Block) : (invalidateCodes b).root = b.root := rfl
@[simp] theorem invalidateCodes_synth (b : Block) : (invalidateCodes b).synth = b.synth := rfl
@[simp] theorem invalidateCodes_count (b : Block) : (invalidateCodes b).count = b.count := rfl
@[simp] theorem invalidateCodes_order (b : Block) : (invalidateCodes b).order = b.order := rfl
@[simp] theorem invalidateCodes_node (b : Block) : (invalidateCodes b).node = b.node := rfl
@[simp] theorem invalidateCodes_code (b : Block) : (invalidateCodes b).code = Vector.replicate 128 CodeEntry.absent := rfl
@[simp] theorem invalidateCodes_inbuf (b : Block) : (invalidateCodes b).inbuf = b.inbuf := rfl
@[simp] theorem invalidateCodes_outbuf (b : Block) : (invalidateCodes b).outbuf = b.outbuf := rfl
@[simp] theorem invalidateCodes_bitbuf (b : Block) : (invalidateCodes b).bitbuf = b.bitbuf := rfl
@[simp] theorem invalidateCodes_pkbuf (b : Block) : (invalidateCodes b).pkbuf = b.pkbuf := rfl

/-! ### invalidateTree -/

@[simp] theorem invalidateTree_cfg (b : Block) : (invalidateTree b).cfg = b.cfg := rfl
@[simp] theorem invalidateTree_pending (b : Block) : (invalidateTree b).pending = b.pending := rfl
@[simp] theorem invalidateTree_overrun (b : Block) : (invalidateTree b).overrun = b.overrun := rfl
@[simp] theorem invalidateTree_anomaly (b : Block) : (invalidateTree b).anomaly = b.anomaly := rfl
@[simp] theorem invalidateTree_treeValid (b : Block) : (invalidateTree b).treeValid = false := rfl
@[simp] theorem invalidateTree_codesValid (b : Block) : (invalidateTree b).codesValid = false := rfl
@[simp] theorem invalidateTree_error (b : Block) : (invalidateTree b).error = b.error := rfl
@[simp] theorem invalidateTree_arg (b : Block) : (invalidateTree b).arg = b.arg := rfl
@[simp] theorem invalidateTree_result0 (b : Block) : (invalidateTree b).result0 = b.result0 := rfl
@[simp] theorem invalidateTree_result1 (b : Block) : (invalidateTree b).result1 = b.result1 := rfl
@[simp] theorem invalidateTree_inLen (b : Block) : (invalidateTree b).inLen = b.inLen := rfl
@[simp] theorem invalidateTree_outLen (b : Block) : (invalidateTree b).outLen = b.outLen := rfl
@[simp] theorem invalidateTree_bitLen (b : Block) : (invalidateTree b).bitLen = b.bitLen := rfl
@[simp] theorem invalidateTree_pkLen (b : Block) : (invalidateTree b).pkLen = b.pkLen := rfl
@[simp] theorem invalidateTree_total (b : Block) : (invalidateTree b).total = b.total := rfl
@[simp] theorem invalidateTree_ndist (b : Block) : (invalidateTree b).ndist = b.ndist := rfl
@[simp] theorem invalidateTree_nleaf (b : Block) : (invalidateTree b).nleaf = 0 := rfl
@[simp] theorem invalidateTree_root (b : Block) : (invalidateTree b).root = 0 := rfl
@[simp] theorem invalidateTree_synth (b : Block) : (invalidateTree b).synth = none := rfl
@[simp] theorem invalidateTree_count (b : Block) : (invalidateTree b).count = b.count := rfl
@[simp] theorem invalidateTree_order (b : Block) : (invalidateTree b).order = b.order := rfl
@[simp] theorem invalidateTree_node (b : Block) : (invalidateTree b).node = Vector.replicate 256 Node.zero := rfl
@[simp] theorem invalidateTree_code (b : Block) : (invalidateTree b).code = Vector.replicate 128 CodeEntry.absent := rfl
@[simp] theorem invalidateTree_inbuf (b : Block) : (invalidateTree b).inbuf = b.inbuf := rfl
@[simp] theorem invalidateTree_outbuf (b : Block) : (invalidateTree b).outbuf = b.outbuf := rfl
@[simp] theorem invalidateTree_bitbuf (b : Block) : (invalidateTree b).bitbuf = b.bitbuf := rfl
@[simp] theorem invalidateTree_pkbuf (b : Block) : (invalidateTree b).pkbuf = b.pkbuf := rfl

/-! ### The agents -/

@[simp] theorem assertReset_blk (s : State) : (assertReset s).blk = Block.powerOn s.blk.cfg := rfl
@[simp] theorem assertReset_host (s : State) : (assertReset s).host = s.host := rfl
@[simp] theorem assertReset_sched (s : State) : (assertReset s).sched = s.sched := rfl
@[simp] theorem assertReset_draws (s : State) : (assertReset s).draws = s.draws := rfl
@[simp] theorem popMove_blk (s : State) : (popMove s).blk = s.blk := rfl
@[simp] theorem popMove_host (s : State) : (popMove s).host = s.host := rfl
@[simp] theorem popMove_sched (s : State) : (popMove s).sched = s.sched.tail := rfl
@[simp] theorem popMove_draws (s : State) : (popMove s).draws = s.draws := rfl
@[simp] theorem latchCommand_pending (s : State) (w : Word) : (latchCommand s w).blk.pending = some w := rfl
@[simp] theorem latchCommand_sched (s : State) (w : Word) : (latchCommand s w).sched = [] := rfl
@[simp] theorem latchCommand_host (s : State) (w : Word) : (latchCommand s w).host = s.host := rfl
@[simp] theorem latchCommand_draws (s : State) (w : Word) : (latchCommand s w).draws = s.draws := rfl
@[simp] theorem withProg_blk (s : State) (p : List HostStmt) : (withProg s p).blk = s.blk := rfl
@[simp] theorem withProg_prog (s : State) (p : List HostStmt) : (withProg s p).host.prog = p := rfl
@[simp] theorem withProg_vars (s : State) (p : List HostStmt) : (withProg s p).host.vars = s.host.vars := rfl
@[simp] theorem withProg_rdata (s : State) (p : List HostStmt) : (withProg s p).host.rdata = s.host.rdata := rfl
@[simp] theorem withProg_sched (s : State) (p : List HostStmt) : (withProg s p).sched = s.sched := rfl
@[simp] theorem withProg_draws (s : State) (p : List HostStmt) : (withProg s p).draws = s.draws := rfl
@[simp] theorem afterRead_blk (s : State) (d : Word) : (afterRead s d).blk = s.blk := rfl
@[simp] theorem afterRead_rdata (s : State) (d : Word) : (afterRead s d).host.rdata = some d := rfl
@[simp] theorem afterRead_prog (s : State) (d : Word) : (afterRead s d).host.prog = s.host.prog := rfl
@[simp] theorem afterRead_vars (s : State) (d : Word) : (afterRead s d).host.vars = s.host.vars := rfl
@[simp] theorem afterRead_sched (s : State) (d : Word) : (afterRead s d).sched = s.sched := rfl
@[simp] theorem afterRead_draws (s : State) (d : Word) : (afterRead s d).draws = s.draws + 1 := rfl
@[simp] theorem noteCheck_blk (s : State) (ok : Bool) : (noteCheck s ok).blk = s.blk := rfl
@[simp] theorem noteCheck_prog (s : State) (ok : Bool) : (noteCheck s ok).host.prog = s.host.prog := rfl
@[simp] theorem noteCheck_vars (s : State) (ok : Bool) : (noteCheck s ok).host.vars = s.host.vars := rfl
@[simp] theorem noteCheck_rdata (s : State) (ok : Bool) : (noteCheck s ok).host.rdata = s.host.rdata := rfl
@[simp] theorem noteCheck_sched (s : State) (ok : Bool) : (noteCheck s ok).sched = s.sched := rfl
@[simp] theorem noteCheck_draws (s : State) (ok : Bool) : (noteCheck s ok).draws = s.draws := rfl
@[simp] theorem bindName_blk (s : State) (d : Word) (n : Option Nat) : (bindName s d n).blk = s.blk := by cases n <;> rfl
@[simp] theorem bindName_prog (s : State) (d : Word) (n : Option Nat) :
    (bindName s d n).host.prog = s.host.prog := by cases n <;> rfl
@[simp] theorem bindName_rdata (s : State) (d : Word) (n : Option Nat) :
    (bindName s d n).host.rdata = s.host.rdata := by cases n <;> rfl
@[simp] theorem bindName_sched (s : State) (d : Word) (n : Option Nat) :
    (bindName s d n).sched = s.sched := by cases n <;> rfl
@[simp] theorem bindName_draws (s : State) (d : Word) (n : Option Nat) :
    (bindName s d n).draws = s.draws := by cases n <;> rfl

/-! ### Commits -/

/-- CLEAR leaves the power-on block but for the configuration, the buffers, ERROR, RESULT0, RESULT1 and PENDING
(40_control R114). -/
theorem clearBlock_eq (b : Block) :
    clearBlock b =
      { Block.powerOn b.cfg with
        pending := b.pending, error := b.error, result0 := b.result0, result1 := b.result1
        inbuf := b.inbuf, outbuf := b.outbuf, bitbuf := b.bitbuf, pkbuf := b.pkbuf } := rfl

theorem scanCommit_eq (b : Block) (ss : List Sym) :
    scanCommit b ss =
      { invalidateTree b with
        count := (tally ss).cnt.map (BitVec.ofNat 32)
        order := orderTable (tally ss).ord
        ndist := BitVec.ofNat 8 (tally ss).ord.length
        total := BitVec.ofNat 32 ss.length } := rfl

theorem loadCommit_eq (b : Block) (sym : Sym) :
    loadCommit b sym =
      { invalidateTree b with
        count := setSym b.count sym b.arg
        order := b.order.setIfInBounds b.ndist.toNat sym
        ndist := b.ndist + 1
        total := b.total + b.arg } := rfl

theorem buildCommit_eq (b : Block) :
    buildCommit b =
      { invalidateCodes b with
        node := nodeTable (treeNodes b.cfg.weightMode b.total.toNat (freqList b))
        nleaf := BitVec.ofNat 8 (freqList b).length
        root := BitVec.ofNat 8 ((treeNodes b.cfg.weightMode b.total.toNat (freqList b)).length - 1)
        synth := synthSym b
        treeValid := true } := rfl

theorem codesCommit_eq (b : Block) (acc : CodeAcc) :
    codesCommit b acc = { b with code := acc.ct, codesValid := true } := rfl

theorem bitsCommit_eq (b : Block) (bs : List Bool) :
    bitsCommit b bs = { b with bitbuf := putBits b.bitbuf bs, bitLen := BitVec.ofNat 32 bs.length } := rfl

theorem packCommit_eq (b : Block) (bytes : List Byte) :
    packCommit b bytes = { b with pkbuf := putBytes b.pkbuf bytes, pkLen := BitVec.ofNat 32 bytes.length } := rfl

theorem decodeCommit_eq (b : Block) (out : List Sym) :
    decodeCommit b out =
      { b with
        outbuf := putBytes b.outbuf (out.map (fun s => s.setWidth 8))
        outLen := BitVec.ofNat 32 out.length } := rfl

end Sys2Proof.Machine
end

