-- ==== Sys2Proof/Laws/Ops.lean ====
section
/-! SUPPORT. Everything the end of a command can be (40_control R112), and what the two invalidations leave. -/

namespace Sys2Proof.Machine

/-! ## finish -/

/-- A next state is a commit reported as a success, or an error report over the unchanged block. -/
theorem finish_next (s t : State) (r : Except Stop Commit) :
    finish s r = .next t ↔
      (∃ c, r = .ok c ∧ t = { s with blk := complete c.blk .none c.r0 c.r1 }) ∨
      (∃ code r0 r1, r = .error (.raise code r0 r1) ∧ t = { s with blk := complete s.blk code r0 r1 }) := by
  rcases r with (⟨code, r0, r1⟩ | f) | c <;> simp [finish, eq_comm]

theorem finish_fault (s : State) (r : Except Stop Commit) (f : Fault) :
    finish s r = .fault f ↔ r = .error (.fault f) := by
  rcases r with (⟨code, r0, r1⟩ | g) | c <;> simp [finish]

theorem finish_ne_refused (s : State) (r : Except Stop Commit) (e : Refusal) : finish s r ≠ .refused e := by
  rcases r with (⟨code, r0, r1⟩ | g) | c <;> simp [finish]

/-! ## finishDecode -/

/-- As for `finish`, with OUT_LEN set to 0 on an error (45_decoder R202). -/
theorem finishDecode_next (s t : State) (r : Except Stop Commit) :
    finishDecode s r = .next t ↔
      (∃ c, r = .ok c ∧ t = { s with blk := complete c.blk .none c.r0 c.r1 }) ∨
      (∃ code r0 r1, r = .error (.raise code r0 r1) ∧
        t = { s with blk := complete { s.blk with outLen := 0 } code r0 r1 }) := by
  rcases r with (⟨code, r0, r1⟩ | f) | c <;> simp [finishDecode, eq_comm]

theorem finishDecode_fault (s : State) (r : Except Stop Commit) (f : Fault) :
    finishDecode s r = .fault f ↔ r = .error (.fault f) := by
  rcases r with (⟨code, r0, r1⟩ | g) | c <;> simp [finishDecode]

theorem finishDecode_ne_refused (s : State) (r : Except Stop Commit) (e : Refusal) :
    finishDecode s r ≠ .refused e := by
  rcases r with (⟨code, r0, r1⟩ | g) | c <;> simp [finishDecode]

end Sys2Proof.Machine
end

