-- ==== Sys2Proof/Laws/Commands.lean ====
section
/-! SUPPORT. One inversion lemma per command: exactly when its pseudocode commits, and what. A proof about a command cites
these and does not unfold it. -/

namespace Sys2Proof.Machine

/-! ## The frequency table -/

theorem freqScan_ok (b : Block) (c : Commit) :
    freqScan b = .ok c ↔
      b.inLen.toNat ≠ 0 ∧ b.inLen.toNat ≤ b.cfg.maxSyms ∧ ∃ ss, readSyms b.inbuf b.inLen.toNat = .ok ss ∧
        c = ⟨scanCommit b ss, BitVec.ofNat 32 (tally ss).ord.length, BitVec.ofNat 32 b.inLen.toNat⟩ := by
  unfold freqScan
  simp only []
  split
  · simp_all
  · split
    · simp_all
    · cases h : readSyms b.inbuf b.inLen.toNat <;> simp_all [@eq_comm _ c]

theorem freqLoad_ok (b : Block) (sym : Sym) (c : Commit) :
    freqLoad sym b = .ok c ↔
      b.arg ≠ 0 ∧ atSym b.count sym = 0 ∧ b.total.toNat + b.arg.toNat ≤ 2 ^ 32 - 1 ∧
        c = ⟨loadCommit b sym, (loadCommit b sym).ndist.setWidth 32, (loadCommit b sym).total⟩ := by
  unfold freqLoad
  split
  · simp_all
  · split
    · simp_all
    · split
      · simp_all
      · simp_all [@eq_comm _ c]

/-! ## The tree and the codes -/

theorem buildTree_ok (b : Block) (c : Commit) :
    buildTree b = .ok c ↔
      b.ndist ≠ 0 ∧ 2 ≤ (freqList b).length ∧
        c = ⟨buildCommit b, BitVec.ofNat 32 (freqList b).length,
          BitVec.ofNat 32 (treeNodes b.cfg.weightMode b.total.toNat (freqList b)).length⟩ := by
  unfold buildTree
  simp only []
  split
  · simp_all
  · split
    · simp_all
    · have : 2 ≤ (freqList b).length := by omega
      simp_all [@eq_comm _ c]

theorem genCodes_ok (b : Block) (c : Commit) :
    genCodes b = .ok c ↔
      b.treeValid = true ∧ (atNode b.node b.root).leaf = false ∧
        ∃ acc, codeWalk b.node codeWalkFuel [(b.root, [])] CodeAcc.start = some acc ∧
          c = ⟨codesCommit b acc, b.nleaf.setWidth 32, BitVec.ofNat 32 acc.maxLen⟩ := by
  unfold genCodes
  generalize codeWalkFuel = fuel
  split
  · simp_all
  · split
    · simp_all
    · cases h : codeWalk b.node fuel [(b.root, [])] CodeAcc.start <;> simp_all [@eq_comm _ c]

/-- What is pushed on the walk's stack: at every pop a leaf is recorded and an internal node is replaced by its children
(43_code_table R161). -/
theorem codeWalk_leaf (nodes : Vector Node 256) (fuel : Nat) (v : BitVec 8) (path : List Bool)
    (stack : List (BitVec 8 × List Bool)) (acc : CodeAcc) (h : (atNode nodes v).leaf = true) :
    codeWalk nodes (fuel + 1) ((v, path) :: stack) acc =
      codeWalk nodes fuel stack (acc.record (atNode nodes v).sym path) := by
  simp [codeWalk, h]

theorem codeWalk_internal (nodes : Vector Node 256) (fuel : Nat) (v : BitVec 8) (path : List Bool)
    (stack : List (BitVec 8 × List Bool)) (acc : CodeAcc) (h : (atNode nodes v).leaf = false) :
    codeWalk nodes (fuel + 1) ((v, path) :: stack) acc =
      codeWalk nodes fuel
        (((atNode nodes v).left, path ++ [false]) :: ((atNode nodes v).right, path ++ [true]) :: stack) acc := by
  simp [codeWalk, h]

/-- More fuel does not change a walk that ended. -/
theorem codeWalk_mono (nodes : Vector Node 256) (acc' : CodeAcc) (fuel more : Nat) :
    ∀ (stack : List (BitVec 8 × List Bool)) (acc : CodeAcc), fuel ≤ more →
      codeWalk nodes fuel stack acc = some acc' → codeWalk nodes more stack acc = some acc' := by
  induction fuel generalizing more with
  | zero =>
    intro stack acc _ h
    cases stack with
    | nil => cases more <;> simpa [codeWalk] using h
    | cons _ _ => simp [codeWalk] at h
  | succ fuel ih =>
    intro stack acc hle h
    obtain ⟨m, rfl⟩ : ∃ m, more = m + 1 := ⟨more - 1, by omega⟩
    cases stack with
    | nil => simpa [codeWalk] using h
    | cons top stack =>
      obtain ⟨v, path⟩ := top
      cases hl : (atNode nodes v).leaf
      · rw [codeWalk_internal _ _ _ _ _ _ hl] at h ⊢
        exact ih m _ _ (by omega) h
      · rw [codeWalk_leaf _ _ _ _ _ _ hl] at h ⊢
        exact ih m _ _ (by omega) h

/-! ## ENCODE, PACK, UNPACK -/

theorem encodeSyms_ok (b : Block) (c : Commit) :
    encodeSyms b = .ok c ↔
      b.codesValid = true ∧ b.inLen.toNat ≠ 0 ∧ b.inLen.toNat ≤ b.cfg.maxSyms ∧
        ∃ out, encodeLoop b 0 [] b.inLen.toNat = .ok out ∧
          c = ⟨bitsCommit b out, BitVec.ofNat 32 out.length, BitVec.ofNat 32 b.inLen.toNat⟩ := by
  unfold encodeSyms
  simp only []
  split
  · simp_all
  · split
    · simp_all
    · split
      · simp_all
      · cases h : encodeLoop b 0 [] b.inLen.toNat <;> simp_all [@eq_comm _ c]

/-- The encoding loop reads symbols with codes, whose codes are what it appends; the bitstring stays within MAX_BITS
after every symbol (44_bit_packing R175, R176). -/
theorem encodeLoop_ok (b : Block) (n : Nat) :
    ∀ (i : Nat) (out out' : List Bool), encodeLoop b i out n = .ok out' →
      ∃ ss : List Sym, ss.length = n ∧ (∀ j, j < n → ∃ x, ss[j]? = some x ∧ readSym b.inbuf (i + j) = .ok x) ∧
        (∀ x ∈ ss, (atSym b.code x).valid = true) ∧
        out' = out ++ ss.flatMap (fun x => (atSym b.code x).path) ∧
        (n = 0 ∨ out'.length ≤ b.cfg.maxBits) := by
  induction n with
  | zero => intro i out out' h; simp only [encodeLoop, Except.ok.injEq] at h; exact ⟨[], by simp [h]⟩
  | succ n ih =>
    intro i out out' h
    simp only [encodeLoop] at h
    split at h
    · cases h
    · rename_i x hx
      split at h
      · cases h
      · rename_i hv
        split at h
        · cases h
        · rename_i hc
          obtain ⟨ss, hl, hr, hval, ho, hb⟩ := ih _ _ _ h
          refine ⟨x :: ss, by simp [hl], ?_, ?_, by simp [ho], .inr ?_⟩
          · intro j hj
            cases j with
            | zero => exact ⟨x, rfl, hx⟩
            | succ j =>
              obtain ⟨y, hy, hy'⟩ := hr j (by omega)
              exact ⟨y, by simpa using hy, by rw [← hy']; congr 1; omega⟩
          · intro y hy
            rcases List.mem_cons.mp hy with rfl | hy
            · simpa using hv
            · exact hval y hy
          · rcases hb with rfl | hb
            · obtain rfl : ss = [] := List.length_eq_zero_iff.mp hl
              simp [ho]; omega
            · exact hb

theorem packBits_ok (b : Block) (c : Commit) :
    packBits b = .ok c ↔
      b.bitLen.toNat ≤ b.cfg.maxBits ∧ ∃ bs, readCells .bitbuf b.bitbuf b.bitLen.toNat = .ok bs ∧
        c = ⟨packCommit b (packBytes (padded bs)), BitVec.ofNat 32 (padLen b.bitLen.toNat),
          BitVec.ofNat 32 (packBytes (padded bs)).length⟩ := by
  unfold packBits
  simp only []
  split
  · simp_all
  · cases h : readCells .bitbuf b.bitbuf b.bitLen.toNat <;> simp_all [@eq_comm _ c]

/-- The padding prefix makes whole bytes: 8 times `(L + pad) / 8` bits (44_bit_packing R179, R181). -/
theorem length_padded (bs : List Bool) : (padded bs).length = 8 * ((bs.length + padLen bs.length) / 8) := by
  simp [padded, padLen]; omega

theorem length_packBytes (x : List Bool) : (packBytes x).length = x.length / 8 := by simp [packBytes]

/-- Bit `t` of byte `k` of a packed stream is stream bit `8k + t` (44_bit_packing R180). -/
theorem getMsbD_streamByte (x : List Bool) (k t : Nat) (h : t < 8) :
    (streamByte x k).getMsbD t = x.getD (8 * k + t) false := by
  simp [streamByte, h]

theorem unpackBytes_ok (b : Block) (c : Commit) :
    unpackBytes b = .ok c ↔
      b.pkLen.toNat ≤ maxPk b.cfg ∧ ∃ bytes, readCells .pkbuf b.pkbuf b.pkLen.toNat = .ok bytes ∧
        (unpad (expandBytes bytes)).out.length ≤ b.cfg.maxBits ∧
        c = ⟨{ bitsCommit b (unpad (expandBytes bytes)).out with anomaly := (unpad (expandBytes bytes)).anomaly },
          BitVec.ofNat 32 (unpad (expandBytes bytes)).pad,
          BitVec.ofNat 32 (unpad (expandBytes bytes)).out.length⟩ := by
  unfold unpackBytes
  simp only []
  split
  · simp_all
  · cases h : readCells .pkbuf b.pkbuf b.pkLen.toNat with
    | error e => simp
    | ok bytes =>
      simp only [Except.ok.injEq, exists_eq_left']
      split <;> simp_all [@eq_comm _ c]

/-- A marker at index `p` of the first 8 bits: everything after it is left (44_bit_packing R184). -/
theorem unpad_marker (pre rest : List Bool) (h : pre.length < 8) (hz : ∀ x ∈ pre, x = false) :
    unpad (pre ++ true :: rest) = ⟨rest, false, pre.length + 1⟩ := by
  have hm : markerIndex (pre ++ true :: rest) = some pre.length := by
    unfold markerIndex
    rw [List.take_append, List.take_of_length_le (by omega),
      show 8 - pre.length = (7 - pre.length) + 1 from by omega, List.take_succ_cons, List.findIdx?_append]
    have : List.findIdx? (fun b => b) pre = none := by
      rw [List.findIdx?_eq_none_iff]; exact hz
    simp [this, List.findIdx?_cons]
  simp [unpad, hm, List.drop_append]

/-- No marker in the first 8 bits: the fallback (44_bit_packing R186). -/
theorem unpad_fallback (bits : List Bool) (h : ∀ x ∈ bits.take 8, x = false) :
    unpad bits = ⟨bits.drop 8, true, 0⟩ := by
  have hm : markerIndex bits = none := by
    unfold markerIndex; rw [List.findIdx?_eq_none_iff]; exact h
  simp [unpad, hm]

/-! ## DECODE -/

theorem decodeBits_ok (b : Block) (c : Commit) :
    decodeBits b = .ok c ↔
      b.treeValid = true ∧ b.arg.toNat ≤ b.cfg.maxSyms ∧ b.bitLen.toNat ≤ b.cfg.maxBits ∧
        ∃ d, decodeLoop b b.arg.toNat b.root 0 [] b.bitLen.toNat = .ok d ∧
          c = ⟨decodeCommit b d.out, BitVec.ofNat 32 d.consumed, BitVec.ofNat 32 (b.bitLen.toNat - d.consumed)⟩ := by
  unfold decodeBits
  simp only []
  split
  · simp_all
  · split
    · simp_all
    · split
      · simp_all
      · cases h : decodeLoop b b.arg.toNat b.root 0 [] b.bitLen.toNat <;> simp_all [@eq_comm _ c]

/-- Once the count is reached no further bit is read (45_decoder R198). -/
theorem decodeLoop_done (b : Block) (cnt : Nat) (cur : BitVec 8) (i : Nat) (out : List Sym) (left : Nat)
    (h : cnt ≤ out.length) : decodeLoop b cnt cur i out left = .ok ⟨out, i⟩ := by
  cases left <;> simp [decodeLoop] <;> omega

/-- The walk emits exactly `cnt` symbols and consumes at most the bits there are (45_decoder R196, R199). -/
theorem decodeLoop_ok (b : Block) (cnt left : Nat) :
    ∀ (cur : BitVec 8) (i : Nat) (out : List Sym) (d : Decoded), out.length ≤ cnt →
      decodeLoop b cnt cur i out left = .ok d → d.out.length = cnt ∧ i ≤ d.consumed ∧ d.consumed ≤ i + left := by
  induction left with
  | zero =>
    intro cur i out d hle h
    simp only [decodeLoop] at h
    split at h
    · cases h
    · cases h; exact ⟨by simp; omega, by simp, by simp⟩
  | succ left ih =>
    intro cur i out d hle h
    simp only [decodeLoop] at h
    split at h
    · split at h
      · cases h
      · split at h
        · cases h
        · split at h
          · cases h
          · split at h
            · have := ih _ _ _ _ (by simp; omega) h; omega
            · have := ih _ _ _ _ hle h; omega
    · cases h; exact ⟨by simp; omega, by simp, by simp⟩

end Sys2Proof.Machine
end

