-- ==== Sys2Proof/Laws/PerInstr.lean ====
section
/-! SUPPORT. Statements made per instruction: the word of every command is legal by its fields. -/

namespace Sys2Proof.Laws.LegalEncoding

/-- The encoder gives a word whose OP is one of the ten and whose reserved bits are 0 (30_encoding R90, R91, R95). -/
def Statement (i : Instr) : Prop := Word.legalCommand (encode i) = true ∧ (encode i).opField ≤ 0x09#8

theorem nop : Statement .nop := by unfold Statement; decide
theorem clear : Statement .clear := by unfold Statement; decide
theorem freqScan : Statement .freqScan := by unfold Statement; decide
theorem freqLoad (sym : Sym) : Statement (.freqLoad sym) := by
  unfold Statement
  revert sym
  decide
theorem build : Statement .build := by unfold Statement; decide
theorem genCodes : Statement .genCodes := by unfold Statement; decide
theorem encode : Statement .encode := by unfold Statement; decide
theorem pack : Statement .pack := by unfold Statement; decide
theorem unpack : Statement .unpack := by unfold Statement; decide
theorem decode : Statement .decode := by unfold Statement; decide

end Sys2Proof.Laws.LegalEncoding
end

