-- ==== Sys2Proof/Laws/Step.lean ====
section
/-! SUPPORT. Everything one step can do: the inversion lemmas of the port, the host, the engine and `step`, which proofs of
invariants cite. -/

namespace Sys2Proof.Machine

/-! ## The port -/

/-- An accepted read: which location, and what it shows (20_memory R63, 40_control R111). -/
theorem busRead_okay (b : Block) (off : Offset) (lanes : BitVec 4) (d w : Word) :
    busRead b off lanes d = .okay w ↔
      ∃ t, accessTarget b off lanes = some t ∧
        w = (if busy b then readTargetBusy b d t else readTarget b d t) := by
  unfold busRead
  cases h : accessTarget b off lanes <;> simp [@eq_comm _ w]

/-- An accepted write: discarded with OVERRUN set while busy, else done (20_memory R63, 40_control R111). -/
theorem busWrite_okay (b c : Block) (off : Offset) (lanes : BitVec 4) (v : Word) :
    busWrite b off lanes v = .okay c ↔
      ∃ t b', accessTarget b off lanes = some t ∧ writeTarget b v t = some b' ∧
        c = (if busy b then { b with overrun := true } else b') := by
  unfold busWrite
  cases h : accessTarget b off lanes with
  | none => simp
  | some t => cases h' : writeTarget b v t <;> simp [@eq_comm _ c, h']

/-- What a write can be: one of the five writable registers or one word of a writable window (20_memory R72, R73). -/
theorem writeTarget_cases (b b' : Block) (v : Word) (t : Target) (h : writeTarget b v t = some b') :
    (b' = { b with pending := some v } ∧ t = .reg .cmd) ∨
    (b' = { b with arg := v } ∧ t = .reg .arg) ∨
    (b' = { b with inLen := v } ∧ t = .reg .inLen) ∨
    (b' = { b with bitLen := v } ∧ t = .reg .bitLen) ∨
    (b' = { b with pkLen := v } ∧ t = .reg .pkLen) ∨
    (∃ n, b' = { b with inbuf := writeByteWord b.inbuf n v } ∧ t = .inbuf n) ∨
    (∃ n, b' = { b with bitbuf := writeBitWord b.bitbuf n v } ∧ t = .bitbuf n) ∨
    (∃ n, b' = { b with pkbuf := writeByteWord b.pkbuf n v } ∧ t = .pkbuf n) := by
  cases t with
  | reg r => cases r <;> simp [writeTarget, eq_comm] at h ⊢ <;> exact h
  | _ => simp [writeTarget, eq_comm] at h ⊢ <;> exact h

/-- A window word is accepted exactly within the storage (20_memory R77). -/
theorem windowWord_some (words n : Nat) (mk : Nat → Target) (t : Target) :
    windowWord words mk n = some t ↔ n < words ∧ t = mk n := by
  unfold windowWord; split <;> simp_all [@eq_comm _ t]

/-- Whichever branch was taken gave the value. -/
theorem ite_eq_some {α : Type} {c : Prop} [Decidable c] {x y : Option α} {t : α}
    (h : (if c then x else y) = some t) : x = some t ∨ y = some t := by
  split at h
  · exact .inl h
  · exact .inr h

/-- What an accepted offset can name; a buffer word is within the buffer's storage (20_memory R72, R77). -/
theorem decodeOffset_cases (p : Params) (off : Offset) (t : Target) (h : decodeOffset p off = some t) :
    (∃ r, t = .reg r) ∨ (∃ s, t = .countw s) ∨ (∃ i, t = .orderw i) ∨ (∃ k w, t = .nodew k w) ∨
    (∃ s w, t = .codew s w) ∨ (∃ n, t = .inbuf n ∧ n < ceilDiv p.maxSyms 4) ∨
    (∃ n, t = .outbuf n ∧ n < ceilDiv p.maxSyms 4) ∨ (∃ n, t = .bitbuf n ∧ n < p.maxBits / 32) ∨
    (∃ n, t = .pkbuf n ∧ n < maxPk p / 4) := by
  unfold decodeOffset at h
  rcases ite_eq_some h with h | h; · cases h
  rcases ite_eq_some h with h | h
  · obtain ⟨r, -, rfl⟩ := Option.map_eq_some_iff.mp h; exact .inl ⟨r, rfl⟩
  rcases ite_eq_some h with h | h; · cases h; exact .inr (.inl ⟨_, rfl⟩)
  rcases ite_eq_some h with h | h; · cases h; exact .inr (.inr (.inl ⟨_, rfl⟩))
  rcases ite_eq_some h with h | h; · cases h
  rcases ite_eq_some h with h | h; · cases h; exact .inr (.inr (.inr (.inl ⟨_, _, rfl⟩)))
  rcases ite_eq_some h with h | h; · cases h; exact .inr (.inr (.inr (.inr (.inl ⟨_, _, rfl⟩))))
  rcases ite_eq_some h with h | h; · cases h
  rcases ite_eq_some h with h | h
  · obtain ⟨hn, rfl⟩ := (windowWord_some _ _ _ _).mp h
    exact .inr (.inr (.inr (.inr (.inr (.inl ⟨_, rfl, hn⟩)))))
  rcases ite_eq_some h with h | h
  · obtain ⟨hn, rfl⟩ := (windowWord_some _ _ _ _).mp h
    exact .inr (.inr (.inr (.inr (.inr (.inr (.inl ⟨_, rfl, hn⟩))))))
  rcases ite_eq_some h with h | h; · cases h
  rcases ite_eq_some h with h | h
  · obtain ⟨hn, rfl⟩ := (windowWord_some _ _ _ _).mp h
    exact .inr (.inr (.inr (.inr (.inr (.inr (.inr (.inl ⟨_, rfl, hn⟩)))))))
  rcases ite_eq_some h with h | h
  · obtain ⟨hn, rfl⟩ := (windowWord_some _ _ _ _).mp h
    exact .inr (.inr (.inr (.inr (.inr (.inr (.inr (.inr ⟨_, rfl, hn⟩)))))))
  cases h
/-! ## The host -/

/-- A host step that goes on: nothing left to do, a write that changed the block, or a read that changed no block
state (20_memory R64). -/
theorem hostStep_next (s t : State) (h : hostStep s = .next t) :
    (s.host.prog = [] ∧ t = s) ∨
    (∃ off lanes v rest w b, s.host.prog = .write off lanes v :: rest ∧ hostValue s.host v = .ok w ∧
      busWrite s.blk off lanes w = .okay b ∧ t = withProg { s with blk := b } rest) ∨
    (∃ off lanes d, busRead s.blk off lanes (nextDraw s) = .okay d ∧ t.blk = s.blk ∧ t.sched = s.sched ∧
      t.draws = s.draws + 1) := by
  unfold hostStep at h
  split at h
  · rename_i hp; cases h; exact .inl ⟨hp, rfl⟩
  · rename_i off lanes v rest hp
    split at h
    · cases h
    · rename_i w hw
      split at h
      · cases h
      · rename_i b hb
        cases h
        exact .inr (.inl ⟨off, lanes, v, rest, w, b, hp, hw, hb, rfl⟩)
  · rename_i off lanes name rest hp
    split at h
    · cases h
    · rename_i d hd
      cases h
      refine .inr (.inr ⟨_, _, d, hd, ?_⟩)
      cases name <;> exact ⟨rfl, rfl, rfl⟩
  · split at h
    · cases h
    · rename_i d hd
      refine .inr (.inr ⟨_, _, d, hd, ?_⟩)
      split at h <;> cases h <;> exact ⟨rfl, rfl, rfl⟩
  · split at h
    · cases h
    · split at h
      · cases h
      · rename_i d hd
        cases h
        exact .inr (.inr ⟨_, _, d, hd, rfl, rfl, rfl⟩)

/-! ## The engine and the step -/

/-- An engine step that goes on: nothing latched, an illegal word, or the decoded command (40_control R112, R115). -/
theorem engineStep_next (s t : State) (h : engineStep s = .next t) :
    (s.blk.pending = none ∧ t = s) ∨
    (∃ w e, s.blk.pending = some w ∧ decode w = .error e ∧
      t = { s with blk := complete s.blk .illegalCommand 0 0 }) ∨
    (∃ w i, s.blk.pending = some w ∧ decode w = .ok i ∧ exec i s = .next t) := by
  unfold engineStep at h
  split at h
  · rename_i hp; cases h; exact .inl ⟨hp, rfl⟩
  · rename_i w hp
    split at h
    · rename_i e he
      simp only [execIllegal, finish, Host.Outcome.next.injEq] at h
      exact .inr (.inl ⟨w, e, hp, he, h.symm⟩)
    · rename_i i hi; exact .inr (.inr ⟨w, i, hp, hi, h⟩)


/-- A step that goes on, agent by agent (20_memory R82, 70_reset R242). -/
theorem step_next (s t : State) (h : step s = .next t) :
    (nextMove s = .engine ∧ engineStep (popMove s) = .next t) ∨
    (nextMove s = .host ∧ hostStep (popMove s) = .next t) ∨
    (nextMove s = .reset ∧ t = assertReset (popMove s)) := by
  unfold step at h
  split at h
  · rename_i hm; exact .inl ⟨hm, h⟩
  · rename_i hm; exact .inr (.inl ⟨hm, h⟩)
  · rename_i hm; cases h; exact .inr (.inr ⟨hm, rfl⟩)

/-- What one step does to the block: nothing, a host write, an illegal word's report, a command, or a reset. An
invariant of the block that each of these keeps is an invariant of every step. -/
theorem step_blk (s t : State) (h : step s = .next t) :
    t.blk = s.blk ∨
    (∃ off lanes w, busWrite s.blk off lanes w = .okay t.blk) ∨
    t.blk = complete s.blk .illegalCommand 0 0 ∨
    (∃ i s' t', s'.blk = s.blk ∧ exec i s' = .next t' ∧ t'.blk = t.blk) ∨
    t.blk = Block.powerOn s.blk.cfg := by
  rcases step_next s t h with ⟨-, he⟩ | ⟨-, hh⟩ | ⟨-, rfl⟩
  · rcases engineStep_next _ _ he with ⟨-, rfl⟩ | ⟨w, e, -, -, rfl⟩ | ⟨w, i, -, -, hx⟩
    · exact .inl rfl
    · exact .inr (.inr (.inl rfl))
    · exact .inr (.inr (.inr (.inl ⟨i, popMove s, t, rfl, hx, rfl⟩)))
  · rcases hostStep_next _ _ hh with ⟨-, rfl⟩ | ⟨off, lanes, v, rest, w, b, -, -, hb, rfl⟩ | ⟨off, lanes, d, -, hb, -⟩
    · exact .inl rfl
    · exact .inr (.inl ⟨off, lanes, w, hb⟩)
    · exact .inl hb
  · exact .inr (.inr (.inr (.inr rfl)))

end Sys2Proof.Machine
end

