-- ==== Sys2Proof/Laws/TreeBuilder.lean ====
section
/-! SUPPORT. What the sorted list, one selection and one merge can be (41_frequency R127, 42_tree_builder R142 to R147):
proofs about BUILD cite these and unfold neither the sort nor the queues. -/

namespace Sys2Proof.Machine

/-! ## The list -/

theorem sortLeaves_perm (mode : WeightMode) (total : Nat) (ls : List Leaf) :
    (sortLeaves mode total ls).Perm ls := List.perm_insertionSort _ _

theorem length_sortLeaves (mode : WeightMode) (total : Nat) (ls : List Leaf) :
    (sortLeaves mode total ls).length = ls.length := (sortLeaves_perm mode total ls).length_eq

theorem mem_sortLeaves (mode : WeightMode) (total : Nat) (ls : List Leaf) (l : Leaf) :
    l ∈ sortLeaves mode total ls ↔ l ∈ ls := (sortLeaves_perm mode total ls).mem_iff

theorem length_realLeaves (b : Block) : (realLeaves b).length = min b.ndist.toNat 128 := by
  simp [realLeaves]

theorem length_freqList (b : Block) :
    (freqList b).length = min b.ndist.toNat 128 + (if b.ndist = 1 then 1 else 0) := by
  unfold freqList
  rw [length_sortLeaves, listEntries, synthSym]
  by_cases h : b.ndist = 1
  · rw [if_pos h, if_pos h]; simp [length_realLeaves]
  · rw [if_neg h, if_neg h]; exact length_realLeaves b

/-! ## One selection -/

/-- What `select()` takes is the front of one of the queues; the other queue is as it was (42_tree_builder R142). -/
theorem selectFront_some (mode : WeightMode) (q q' : Queues) (x : QEntry) :
    selectFront mode q = some (x, q') ↔
      (q = { src := x :: q'.src, mrg := q'.mrg } ∧ ∀ y, q'.mrg.head? = some y → x.key mode ≤ y.key mode) ∨
      (q = { src := q'.src, mrg := x :: q'.mrg } ∧ ∀ y, q'.src.head? = some y → x.key mode < y.key mode) := by
  obtain ⟨src, mrg⟩ := q
  obtain ⟨src', mrg'⟩ := q'
  rcases src with _ | ⟨a, src⟩ <;> rcases mrg with _ | ⟨b, mrg⟩ <;> simp only [selectFront]
  · simp
  · simp; grind
  · simp; grind
  · split <;> simp <;> grind

theorem selectFront_none (mode : WeightMode) (q : Queues) :
    selectFront mode q = none ↔ q.src = [] ∧ q.mrg = [] := by
  obtain ⟨src, mrg⟩ := q
  cases src <;> cases mrg <;> simp only [selectFront] <;> try split
  all_goals simp

theorem selectFront_length (mode : WeightMode) (q q' : Queues) (x : QEntry) (h : selectFront mode q = some (x, q')) :
    q.src.length + q.mrg.length = q'.src.length + q'.mrg.length + 1 := by
  rcases (selectFront_some mode q q' x).mp h with ⟨rfl, -⟩ | ⟨rfl, -⟩ <;> simp <;> omega

/-! ## One merge -/

/-- A merge is two selections and the new node on MRG (42_tree_builder R142, R143). -/
theorem mergeOnce_some (mode : WeightMode) (k : Nat) (q q' : Queues) (nd : Node) :
    mergeOnce mode k q = some (nd, q') ↔
      ∃ a b q1 q2, selectFront mode q = some (a, q1) ∧ selectFront mode q1 = some (b, q2) ∧
        nd = combineNode mode a b ∧ q' = { src := q2.src, mrg := q2.mrg ++ [mergedEntry mode k a b] } := by
  unfold mergeOnce
  cases h : selectFront mode q with
  | none => simp
  | some p =>
    obtain ⟨a, q1⟩ := p
    cases h1 : selectFront mode q1 with
    | none => simp [h1]
    | some p =>
      obtain ⟨b, q2⟩ := p
      simp only [h1, Option.some.injEq, Prod.mk.injEq]
      constructor
      · rintro ⟨rfl, rfl⟩; exact ⟨a, b, q1, q2, ⟨rfl, rfl⟩, h1, rfl, rfl⟩
      · rintro ⟨a', b', q1', q2', ⟨rfl, rfl⟩, h2, rfl, rfl⟩
        rw [h1] at h2
        simp only [Option.some.injEq, Prod.mk.injEq] at h2
        obtain ⟨rfl, rfl⟩ := h2
        exact ⟨rfl, rfl⟩

/-- A merge happens exactly while two nodes are queued (42_tree_builder R144). -/
theorem mergeOnce_isSome (mode : WeightMode) (k : Nat) (q : Queues) :
    (mergeOnce mode k q).isSome = true ↔ 2 ≤ q.src.length + q.mrg.length := by
  unfold mergeOnce
  cases h : selectFront mode q with
  | none => obtain ⟨h1, h2⟩ := (selectFront_none mode q).mp h; simp [h1, h2]
  | some p =>
    obtain ⟨a, q1⟩ := p
    have hl := selectFront_length mode q q1 a h
    cases h1 : selectFront mode q1 with
    | none => obtain ⟨h2, h3⟩ := (selectFront_none mode q1).mp h1; simp [h1, hl, h2, h3]
    | some p =>
      have := selectFront_length mode q1 p.2 p.1 h1
      simp [h1]; omega

/-- A merge leaves one node fewer queued (42_tree_builder R144). -/
theorem mergeOnce_length (mode : WeightMode) (k : Nat) (q q' : Queues) (nd : Node)
    (h : mergeOnce mode k q = some (nd, q')) :
    q.src.length + q.mrg.length = q'.src.length + q'.mrg.length + 1 := by
  obtain ⟨a, b, q1, q2, h1, h2, -, rfl⟩ := (mergeOnce_some mode k q q' nd).mp h
  have := selectFront_length mode q q1 a h1
  have := selectFront_length mode q1 q2 b h2
  simp; omega

/-- The last queue entry after a merge is the new node's (42_tree_builder R143). -/
theorem mergeOnce_mrg (mode : WeightMode) (k : Nat) (q q' : Queues) (nd : Node)
    (h : mergeOnce mode k q = some (nd, q')) : ∃ e, q'.mrg.getLast? = some e ∧ e.idx = k ∧
      nd.cw = BitVec.ofNat 32 e.cw ∧ nd.pw = e.pw ∧ nd.used = true ∧ nd.leaf = false ∧ nd.sym = 0 := by
  obtain ⟨a, b, q1, q2, -, -, rfl, rfl⟩ := (mergeOnce_some mode k q q' nd).mp h
  exact ⟨mergedEntry mode k a b, by simp, rfl, rfl, rfl, rfl, rfl, rfl⟩

/-! ## The node table -/

/-- The loop, one merge at a time. -/
theorem mergeLoop_succ (mode : WeightMode) (fuel k : Nat) (q q' : Queues) (nd : Node)
    (h : mergeOnce mode k q = some (nd, q')) :
    mergeLoop mode (fuel + 1) k q = nd :: mergeLoop mode fuel (k + 1) q' := by simp [mergeLoop, h]

/-- With at least as much fuel as nodes queued, the loop makes one merge for each but one (42_tree_builder R144). -/
theorem length_mergeLoop (mode : WeightMode) (fuel : Nat) :
    ∀ (k : Nat) (q : Queues), q.src.length + q.mrg.length ≤ fuel →
      (mergeLoop mode fuel k q).length = q.src.length + q.mrg.length - 1 := by
  induction fuel with
  | zero => intro k q h; simp [mergeLoop]; omega
  | succ fuel ih =>
    intro k q h
    cases hm : mergeOnce mode k q with
    | none =>
      have := (mergeOnce_isSome mode k q).not.mp (by simp [hm])
      simp [mergeLoop, hm]; omega
    | some p =>
      have hl := mergeOnce_length mode k q p.2 p.1 hm
      have h2 := (mergeOnce_isSome mode k q).mp (by simp [hm])
      rw [mergeLoop_succ mode fuel k q p.2 p.1 hm, List.length_cons, ih _ _ (by omega)]
      omega

theorem atNode_nodeTable (nds : List Node) (k : BitVec 8) :
    atNode (nodeTable nds) k = nds.getD k.toNat Node.zero := by
  simp [atNode, nodeTable]

end Sys2Proof.Machine
end

