-- ==== Sys2Proof/Tests/Slice0.lean ====
section
/-! SUPPORT. Own tests: ill-formed terms, decoding of words written out from the encoding tables, one step of each
command against the spec's vectors (95_test_vectors), and a witness for the hypotheses of each statement. -/

set_option Elab.async false

namespace Sys2Proof.Tests

open Sys2Proof Sys2Proof.Machine Sys2Proof.Safety

/-! ## Ill-formed terms -/

theorem test_wf_params_examples : Params.examples.wellFormed = true := by decide
theorem test_illformed_no_symbols : Params.wellFormed ⟨0, 64, .countExact⟩ = false := by decide
theorem test_illformed_too_many_symbols : Params.wellFormed ⟨65537, 64, .countExact⟩ = false := by decide
theorem test_illformed_bits_no_word : Params.wellFormed ⟨8, 48, .countExact⟩ = false := by decide
theorem test_illformed_no_bits : Params.wellFormed ⟨8, 0, .countExact⟩ = false := by decide
theorem test_illformed_too_many_bits : Params.wellFormed ⟨8, 2 ^ 21, .countExact⟩ = false := by decide
theorem test_illformed_word_op : Word.legalCommand 0x0000000A = false := by decide
theorem test_illformed_word_f0 : Word.legalCommand 0x00000104 = false := by decide
theorem test_illformed_word_f1 : Word.legalCommand 0x00008003 = false := by decide
theorem test_wf_word_f1 : Word.legalCommand 0x00007F03 = true := by decide
theorem test_wf_instr : Instr.wellFormed (.freqLoad 0x7F) = true := by decide
theorem test_illformed_program : namesBound [] [.write 0x01C 0xF (.name 0)] = false := by decide
theorem test_illformed_check : namesBound [] [.check 0x038 (.name 0)] = false := by decide
theorem test_illformed_loc : Loc.fits (.word .pkbuf 0x20006) = false := by decide
theorem test_wf_loc : Loc.fits (.word .pkbuf 0x1FFFF) = true := by decide
theorem test_wf_program : namesBound [] [.read 0x038 0xF (some 0), .write 0x01C 0xF (.name 0)] = true := by decide

/-! ## Decoding: words written out from 30_encoding R91 and R92, field by field -/

theorem test_decode_nop : decode (0#24 ++ 0x00#8) = .ok .nop := by decide
theorem test_decode_clear : decode (0#24 ++ 0x01#8) = .ok .clear := by decide
theorem test_decode_freqScan : decode (0#24 ++ 0x02#8) = .ok .freqScan := by decide
theorem test_decode_freqLoad : decode (0#17 ++ 0b1100001#7 ++ 0b00000011#8) = .ok (.freqLoad 0x61) := by decide
theorem test_decode_build : decode (0#24 ++ 0x04#8) = .ok .build := by decide
theorem test_decode_genCodes : decode (0#24 ++ 0x05#8) = .ok .genCodes := by decide
theorem test_decode_encode : decode (0#24 ++ 0x06#8) = .ok .encode := by decide
theorem test_decode_pack : decode (0#24 ++ 0x07#8) = .ok .pack := by decide
theorem test_decode_unpack : decode (0#24 ++ 0x08#8) = .ok .unpack := by decide
theorem test_decode_decode : decode (0#24 ++ 0x09#8) = .ok .decode := by decide
theorem test_decode_illegal_op : decode 0x000000FF = .error (.unknownOp 0xFF) := by decide
theorem test_decode_illegal_high_bit : decode 0x80000000 = .error (.reservedBit 0x00) := by decide
theorem test_decodeTableWord : decodeTableWord 32 0x6103 = some (.freqLoad 0x61) := by decide

/-! ## Small states -/

/-- What a step's next state satisfies. -/
def nextSat (o : Host.Outcome State Fault Refusal) (p : State → Bool) : Bool :=
  match o with
  | .next t => p t
  | .fault _ => false
  | .refused _ => false

/-- Whether a step is this fault. -/
def faultsWith (o : Host.Outcome State Fault Refusal) (f : Fault) : Bool :=
  match o with
  | .next _ => false
  | .fault g => decide (f = g)
  | .refused _ => false

/-- The state of a block, with no host program. -/
def ofBlock (b : Block) : State := { State.reset with blk := b }

/-- The power-on block. -/
def idle : Block := Block.powerOn Params.examples

/-- Cells 0, 1, ... holding the values of a list. -/
def cells {α : Type} (vs : List α) : Memory α := vs.mapIdx (fun i v => (i, v))

/-- A block with INBUF and IN_LEN loaded. -/
def input (b : Block) (vs : List Byte) : Block :=
  { b with inbuf := cells vs, inLen := BitVec.ofNat 32 vs.length }

/-- A block with BITBUF and BIT_LEN loaded. -/
def bitInput (b : Block) (bs : List Bool) : Block :=
  { b with bitbuf := cells bs, bitLen := BitVec.ofNat 32 bs.length }

/-- A block with PKBUF and PK_LEN loaded. -/
def byteInput (b : Block) (vs : List Byte) : Block :=
  { b with pkbuf := cells vs, pkLen := BitVec.ofNat 32 vs.length }

/-- Whether a block reports this completion. -/
def reports (b : Block) (code : ErrCode) (r0 r1 : Nat) : Bool :=
  decide (b.error = code) && b.result0.toNat == r0 && b.result1.toNat == r1 && b.pending.isNone

/-- The frequency table of "aab": a 2, b 1 (41_frequency R121), as FREQ_SCAN leaves it. -/
def tableAab : Block :=
  { idle with
    count := setSym (setSym idle.count 0x61 2) 0x62 1
    order := (idle.order.set 0 0x61).set 1 0x62
    ndist := 2, total := 3 }

/-- The tree of "aab": leaf b, leaf a, root. -/
def treeAab : Block :=
  { tableAab with
    node := ((idle.node.set 0 ⟨true, true, 0x62, 0, 0, 1, 0⟩).set 1 ⟨true, true, 0x61, 0, 0, 2, 0⟩).set 2
      ⟨true, false, 0, 0, 1, 3, 0⟩
    nleaf := 2, root := 2, treeValid := true }

/-- The codes of "aab": b = 0, a = 1. -/
def codesAab : Block :=
  { treeAab with
    code := setSym (setSym idle.code 0x62 ⟨true, 1, 0⟩) 0x61 ⟨true, 1, 0x40000000000000000000000000000000⟩
    codesValid := true }

/-! ## One step of each command -/

/-- CT-1: NOP clears ERROR. -/
theorem test_nop_clears_error :
    nextSat (exec .nop (ofBlock { idle with error := .emptyTree, result0 := 5 }))
      (fun t => reports t.blk .none 0 0 && statusWord t.blk == 0) = true := by decide +kernel

/-- CT-2: CLEAR zeroes the table and keeps INBUF. -/
theorem test_clear_keeps_input :
    nextSat (exec .clear (ofBlock (input tableAab [0x61, 0x61, 0x62, 0])))
      (fun t => reports t.blk .none 0 0 && t.blk.total == 0 && t.blk.ndist == 0 && atSym t.blk.count 0x61 == 0 &&
        t.blk.inLen == 0 && readByteWord t.blk.inbuf 0 0 == 0x61616200) = true := by decide +kernel

/-- FS-6: first occurrence order, not symbol order. -/
theorem test_freqScan_first_occurrence :
    nextSat (exec .freqScan (ofBlock (input idle [0x63, 0x61, 0x62, 0x61, 0x63])))
      (fun t => reports t.blk .none 3 5 && t.blk.order.toList.take 4 == [0x63, 0x61, 0x62, 0] &&
        atSym t.blk.count 0x61 == 2 && atSym t.blk.count 0x62 == 1 && atSym t.blk.count 0x63 == 2) = true := by
  decide +kernel

/-- FS-9: the error at index 2 comes before the unwritten cell 4 is needed. -/
theorem test_freqScan_error_before_unwritten :
    nextSat (exec .freqScan (ofBlock { input idle [0x61, 0x62, 0xFF, 0x64] with inLen := 5 }))
      (fun t => reports t.blk .symbolRange 2 0xFF) = true := by decide +kernel

/-- FL-5: TOTAL reaches the maximum exactly. -/
theorem test_freqLoad_total_max :
    nextSat (exec (.freqLoad 0x63) (ofBlock { tableAab with total := 2, arg := 0xFFFFFFFD }))
      (fun t => reports t.blk .none 3 0xFFFFFFFF && atSym t.blk.order 2 == 0x63) = true := by decide +kernel

/-- FL-4: one more is CAPACITY, and nothing is stored. -/
theorem test_freqLoad_total_over :
    nextSat (exec (.freqLoad 0x63) (ofBlock { tableAab with total := 2, arg := 0xFFFFFFFE }))
      (fun t => reports t.blk .capacity 0x63 0 && t.blk.total == 2 && t.blk.ndist == 2) = true := by decide +kernel

/-- TB-10: one symbol, 127, gets the synthetic symbol 0 before it. -/
theorem test_build_synthetic_wraps :
    nextSat (exec .build (ofBlock
        { idle with count := setSym idle.count 127 1, order := idle.order.set 0 127, ndist := 1, total := 1 }))
      (fun t => reports t.blk .none 2 3 && (t.blk.node.toList.take 4).map (fun n => nodeWord n 0) ==
          [0xC0000000, 0xC07F0000, 0x80000001, 0] && synthWord t.blk.synth == 0x100 && t.blk.root == 2) = true := by
  decide +kernel

/-- The table of "abbbbccccddddd" (TB-7) in a weight mode. -/
def tableTb7 (mode : WeightMode) : Block :=
  { idle with
    cfg := { Params.examples with weightMode := mode }
    count := setSym (setSym (setSym (setSym idle.count 0x61 1) 0x62 4) 0x63 4) 0x64 5
    order := (((idle.order.set 0 0x61).set 1 0x62).set 2 0x63).set 3 0x64
    ndist := 4, total := 14 }

/-- TB-7: the two weight modes build different trees. -/
theorem test_build_weight_modes_differ :
    nextSat (exec .build (ofBlock (tableTb7 .countExact)))
        (fun t => nodeWord (atNode t.blk.node 4) 0 == 0x80000001 && nodeWord (atNode t.blk.node 5) 0 == 0x80000203 &&
          nodeWord (atNode t.blk.node 6) 0 == 0x80000405) = true ∧
      nextSat (exec .build (ofBlock (tableTb7 .binary64)))
        (fun t => (atNode t.blk.node 3).pw == 0x3FD6DB6DB6DB6DB7 && (atNode t.blk.node 4).pw == 0x3FD6DB6DB6DB6DB6 &&
          nodeWord (atNode t.blk.node 5) 0 == 0x80000204 && nodeWord (atNode t.blk.node 6) 0 == 0x80000305 &&
          (atNode t.blk.node 6).pw == 0x3FF0000000000000) = true := by decide +kernel

/-- Two leaves get the codes "0" and "1" (43_code_table R161). -/
theorem test_genCodes_two_leaves :
    nextSat (exec .genCodes (ofBlock treeAab))
      (fun t => reports t.blk .none 2 1 && (atSym t.blk.code 0x62).path == [false] &&
        codeWord (atSym t.blk.code 0x61) 0 == 0x80000001 && codeWord (atSym t.blk.code 0x61) 1 == 0x80000000 &&
        codeWord (atSym t.blk.code 0x63) 0 == 0 && t.blk.codesValid) = true := by decide +kernel

/-- GC-2: no tree. -/
theorem test_genCodes_empty :
    nextSat (exec .genCodes (ofBlock idle)) (fun t => reports t.blk .emptyTree 0 0) = true := by decide +kernel

/-- ENCODE of "aba" with a = 1, b = 0 is 101, tail-filled to a word. -/
theorem test_encode_concatenates :
    nextSat (exec .encode (ofBlock (input codesAab [0x61, 0x62, 0x61])))
      (fun t => reports t.blk .none 3 3 && readBitWord t.blk.bitbuf 0 0xFFFFFFFF == 0xA0000000 &&
        t.blk.bitbuf.length == 32) = true := by decide +kernel

/-- EN-4: a symbol with no code. -/
theorem test_encode_unmapped :
    nextSat (exec .encode (ofBlock (input codesAab [0x61, 0x62, 0x64])))
      (fun t => reports t.blk .unmappedSymbol 2 0x64 && t.blk.bitbuf.isEmpty) = true := by decide +kernel

/-- PK-5: 10100001111 packs to 0x0D 0x0F. -/
theorem test_pack_eleven_bits :
    nextSat (exec .pack (ofBlock (bitInput idle
        [true, false, true, false, false, false, false, true, true, true, true])))
      (fun t => reports t.blk .none 5 2 && readByteWord t.blk.pkbuf 0 0xFFFFFFFF == 0x0D0F0000) = true := by
  decide +kernel

/-- PK-3: seven bits get the marker only. -/
theorem test_pack_seven_bits :
    nextSat (exec .pack (ofBlock (bitInput idle (List.replicate 7 true))))
      (fun t => reports t.blk .none 1 1 && Memory.get t.blk.pkbuf 0 == some 0xFF) = true := by decide +kernel

/-- UP-1: the marker at index 4 is stripped. -/
theorem test_unpack_strips :
    nextSat (exec .unpack (ofBlock (byteInput { idle with anomaly := true } [0x0D, 0x0F])))
      (fun t => reports t.blk .none 5 11 && readBitWord t.blk.bitbuf 0 0xFFFFFFFF == 0xA1E00000 &&
        t.blk.anomaly == false) = true := by decide +kernel

/-- UP-9: only the first 8 bits are searched. -/
theorem test_unpack_fallback :
    nextSat (exec .unpack (ofBlock (byteInput idle [0x00, 0x00, 0x01])))
      (fun t => reports t.blk .none 0 16 && t.blk.anomaly && Memory.get t.blk.bitbuf 15 == some true) = true := by
  decide +kernel

/-- DC-18: only the bits the walk needs must be written. -/
theorem test_decode_reads_only_needed :
    nextSat (exec .decode (ofBlock { bitInput treeAab [true, false, true] with bitLen := 40, arg := 3 }))
      (fun t => reports t.blk .none 3 37 && readByteWord t.blk.outbuf 0 0xFFFFFFFF == 0x61626100 &&
        t.blk.outLen == 3) = true := by decide +kernel

/-- DC-17: out of bits; OUT_LEN <- 0 and OUTBUF stays. -/
theorem test_decode_truncated :
    nextSat (exec .decode (ofBlock { bitInput treeAab [false, true] with arg := 3, outLen := 7 }))
      (fun t => reports t.blk .truncatedStream 2 2 && t.blk.outLen == 0 && t.blk.outbuf.isEmpty) = true := by
  decide +kernel

/-! ## The step, the port and the host -/

/-- RS-3: after power-on a FREQ_SCAN of one symbol is UNINIT. -/
theorem test_step_uninit :
    faultsWith (step ((ofBlock { idle with inLen := 1 }).withFetchWord 32 0x02)) (.uninit .inbuf 0) = true := by
  decide +kernel

/-- CT-3: an illegal word. -/
theorem test_step_illegal :
    nextSat (step (State.reset.withFetchWord 32 0x104)) (fun t => reports t.blk .illegalCommand 0 0) = true := by
  decide +kernel

/-- RS-4: a reset before the engine step. -/
theorem test_step_reset :
    nextSat (step { ofBlock { input idle [0x61, 0x62] with pending := some 2 } with sched := [.reset] })
      (fun t => decide (t.blk = idle)) = true := by decide +kernel

/-- CT-5: while busy a write is discarded and sets OVERRUN. -/
theorem test_host_write_busy :
    nextSat (step { ofBlock { idle with pending := some 2 } with
        host := { State.reset.host with prog := [stW (.reg .arg) 5] }, sched := [.host] })
      (fun t => t.blk.arg == 0 && t.blk.overrun && t.blk.pending == some 2 && t.host.prog.isEmpty) = true := by
  decide +kernel

/-- MM-7 and R98: LOADSYMS "aab" writes one word and IN_LEN. -/
theorem test_loadSyms :
    loadSyms [0x61, 0x61, 0x62] =
      [.write 0x10000 0xF (.lit 0x61616200), .write 0x00028 0xF (.lit 3)] := by decide +kernel

/-- R97, R98: a CHECK against a named value fails when the register holds another. -/
theorem test_check_name :
    nextSat (hostStep { State.reset with
        host := { State.reset.host with prog := [stCheck (.reg .arg) (.name 7)], vars := [(7, 5)] } })
      (fun t => t.host.checkFailed && t.host.prog.isEmpty) = true := by decide +kernel

/-- MM-1, MM-8: the constants, and a bit in its place. -/
theorem test_reads :
    busRead idle 0x000 0xF 0 = .okay 0x48554646 ∧ busRead idle 0x004 0xF 0 = .okay 0x1000 ∧
      busRead idle 0x008 0xF 0 = .okay 0x10000 ∧ busRead idle 0x018 0xF 7 = .okay 0 ∧
      busRead (bitInput idle (true :: List.replicate 31 false)) 0x40000 0xF 7 = .okay 0x80000000 := by decide +kernel

/-- MM-2, MM-3, MM-5, MM-9: accesses the port does not accept. -/
theorem test_slverr :
    busRead idle 0x04C 0xF 0 = .slverr ∧ busRead idle 0x01400 0xF 0 = .slverr ∧ busRead idle 0x002 0xF 0 = .slverr ∧
      busRead idle 0x000 0x3 0 = .slverr ∧ busRead idle 0x11000 0xF 0 = .slverr ∧
      busRead idle 0x82004 0xF 0 = .slverr ∧ busRead idle 0x82000 0xF 9 = .okay 9 ∧
      busRead { idle with cfg := ⟨4097, 64, .countExact⟩ } 0x11000 0xF 9 = .okay 9 ∧
      busRead { idle with cfg := ⟨4097, 64, .countExact⟩ } 0x11004 0xF 9 = .slverr ∧
      busWrite idle 0x038 0xF 0 = .slverr ∧ busWrite idle 0x20000 0xF 0 = .slverr := by decide +kernel

/-- TB-7, TB-8: IEEE 754 binary64 values. -/
theorem test_rne :
    rne 1 14 = 0x3FB2492492492492 ∧ rne 5 14 = 0x3FD6DB6DB6DB6DB7 ∧ rne 3 7 = 0x3FDB6DB6DB6DB6DB ∧
      f64Add (rne 1 14) (rne 4 14) = 0x3FD6DB6DB6DB6DB6 ∧ rne 1 1 = 0x3FF0000000000000 := by decide +kernel

end Sys2Proof.Tests
end

