-- ==== Sys2Proof/Tests/Witnesses.lean ====
section
/-! SUPPORT. A concrete state and operands that meet the hypotheses of each statement with hypotheses, one for each
clause, at a boundary of its range where it has one. -/

set_option Elab.async false

namespace Sys2Proof.Tests

open Sys2Proof Sys2Proof.Machine Sys2Proof.Safety

/-! ## States -/

/-- The table of the one symbol 127 (TB-10). -/
def tableOne : Block :=
  { idle with count := setSym idle.count 127 1, order := idle.order.set 0 127, ndist := 1, total := 1 }

/-- A block with 32 bits of BITBUF (UP-14). -/
def smallBits : Block := Block.powerOn ⟨8, 32, .countExact⟩

/-- The bits of a byte list, for the UNPACK witnesses. -/
def bitsOfBytes (bs : List Byte) : List Bool := expandBytes bs

theorem tableInv_tableAab : TableInv tableAab := by
  unfold TableInv ordered countSum; decide +kernel

theorem tableInv_tableOne : TableInv tableOne := by
  unfold TableInv ordered countSum; decide +kernel

theorem tableInv_treeAab : TableInv treeAab := tableInv_tableAab
theorem tableInv_codesAab : TableInv codesAab := tableInv_tableAab

theorem treeInv_treeAab : TreeInv treeAab := by
  have h : treeAab.treeValid = true := by decide +kernel
  unfold TreeInv
  rw [if_pos h]
  refine ⟨?_, ?_, ?_, ?_⟩
  · unfold TreeNumbering; decide +kernel
  · unfold TreeStructure parents; decide +kernel
  · unfold TreeLeaves isLeafSym ordered; decide +kernel
  · unfold TreeWeights; decide +kernel

theorem treeInv_codesAab : TreeInv codesAab := treeInv_treeAab

theorem codesInv_codesAab : CodesInv codesAab := by
  have h : codesAab.codesValid = true := by decide +kernel
  unfold CodesInv
  rw [if_pos h]
  refine ⟨by decide +kernel, ?_⟩
  unfold EntryOk isLeafSym ordered
  decide +kernel

theorem blockInv_codesAab : BlockInv codesAab :=
  ⟨by decide +kernel, by unfold MemoryInv; decide +kernel, by unfold OutLenInv; decide +kernel, tableInv_codesAab,
    treeInv_codesAab, codesInv_codesAab, by unfold ErrorInv; decide +kernel⟩

/-! ## Step, reset -/

theorem witness_IllegalWordsCompleteAsIllegal :
    nextMove (ofBlock { idle with pending := some 0x80000000 }) = .engine ∧
      Word.legalCommand 0x80000000 = false := by decide +kernel

theorem witness_StepRunsTheLatchedCommand :
    nextMove { ofBlock { idle with pending := some 0x6103 } with sched := [.engine] } = .engine ∧
      decode 0x6103 = .ok (.freqLoad 0x61) ∧ (ofBlock { idle with pending := some 0x6103 }).sched = [] ∧
      nextMove { ofBlock { idle with pending := some 0x6103 } with sched := [.host] } = .host := by decide +kernel

theorem witness_IdleBlockKeepsItsState :
    State.reset.blk.pending = none ∧ nextMove { State.reset with sched := [.engine] } = .engine ∧
      runEnded State.reset = true ∧ nextMove State.reset = .host := by decide +kernel

theorem witness_ResetAbortsAndEmptiesEverything :
    nextMove { ofBlock { codesAab with pending := some 4 } with sched := [.reset] } = .reset := by decide +kernel

theorem witness_ResetMeetsTheInvariants : Params.wellFormed ⟨65536, 2 ^ 21 - 32, .binary64⟩ = true := by decide +kernel

/-! ## The frequency table -/

theorem witness_FreqScanCountsTheStream : InputIs (input idle [0x61, 0x61, 0x62]) [0x61, 0x61, 0x62] := by
  unfold InputIs Holds; decide +kernel

theorem witness_FreqScanStopsInOrder :
    idle.inLen = 0 ∧
    ({ idle with inLen := 4097 }.inLen ≠ 0 ∧ idle.cfg.maxSyms < { idle with inLen := 4097 }.inLen.toNat) ∧
    (Memory.get (input idle [0x61]).inbuf 1 = none ∧ 1 < { input idle [0x61] with inLen := 2 }.inLen.toNat ∧
      ∀ j, j < 1 → ∃ v, Memory.get (input idle [0x61]).inbuf j = some v ∧ v.toNat < 128) ∧
    (Memory.get (input idle [0x80]).inbuf 0 = some 0x80 ∧ 0 < (input idle [0x80]).inLen.toNat) := by
  refine ⟨by decide +kernel, by decide +kernel, ⟨by decide +kernel, by decide +kernel, ?_⟩, by decide +kernel⟩
  intro j hj
  obtain rfl : j = 0 := by omega
  exact ⟨0x61, by decide +kernel⟩

theorem witness_FreqLoadAppendsOneEntry :
    TableInv { tableAab with arg := 0xFFFFFFFC } ∧ atSym tableAab.count 0x63 = 0 ∧
      tableAab.total.toNat + (0xFFFFFFFC : Word).toNat = 2 ^ 32 - 1 :=
  ⟨tableInv_tableAab, by decide +kernel⟩

theorem witness_FreqLoadRefusesInOrder :
    tableAab.arg = 0 ∧
    ({ tableAab with arg := 1 }.arg ≠ 0 ∧ atSym { tableAab with arg := 1 }.count 0x61 ≠ 0) ∧
    ({ tableAab with arg := 0xFFFFFFFD }.arg ≠ 0 ∧ atSym { tableAab with arg := 0xFFFFFFFD }.count 0x63 = 0 ∧
      2 ^ 32 - 1 < { tableAab with arg := 0xFFFFFFFD }.total.toNat + { tableAab with arg := 0xFFFFFFFD }.arg.toNat) := by
  decide +kernel

/-! ## BUILD -/

theorem witness_SyntheticLeafComesFirst :
    (TableInv tableOne ∧ tableOne.ndist = 1) ∧ (TableInv tableAab ∧ 2 ≤ tableAab.ndist.toNat) :=
  ⟨⟨tableInv_tableOne, by decide +kernel⟩, ⟨tableInv_tableAab, by decide +kernel⟩⟩

theorem witness_FreqListHasTwoToAll : TableInv tableOne ∧ tableOne.ndist ≠ 0 :=
  ⟨tableInv_tableOne, by decide +kernel⟩

theorem witness_WeightModesSortAlike : TableInv tableAab := tableInv_tableAab

theorem witness_BuildPublishesACompleteTree : TableInv (ofBlock tableOne).blk ∧ (ofBlock tableOne).blk.ndist ≠ 0 :=
  ⟨tableInv_tableOne, by decide +kernel⟩

theorem witness_BuildFailsOnlyOnAnEmptyTable : idle.ndist = 0 ∧ tableOne.ndist ≠ 0 := by decide +kernel

theorem witness_MergesEndInOneRoot :
    (QEntry.mk 0 2 0).key .countExact ≤ (QEntry.mk 3 2 0).key .countExact ∧
    (QEntry.mk 3 1 0).key .countExact < (QEntry.mk 0 2 0).key .countExact ∧
    (selectFront .countExact ⟨[⟨0, 1, 0⟩], [⟨3, 1, 0⟩]⟩ = some (⟨0, 1, 0⟩, ⟨[], [⟨3, 1, 0⟩]⟩) ∧
      selectFront .countExact ⟨[], [⟨3, 1, 0⟩]⟩ = some (⟨3, 1, 0⟩, ⟨[], []⟩)) ∧
    ((queuesAfter .countExact 1 3 (startQueues .countExact 4 [⟨0, 1⟩, ⟨1, 1⟩, ⟨2, 2⟩])).bind
      (mergeOnce .countExact 4)).isSome = true ∧
    2 ≤ [Leaf.mk 0 1, Leaf.mk 1 1].length := by decide +kernel

theorem witness_MergesConserveWeight :
    (queuesAfter .countExact 1 3 (startQueues .countExact 4 [⟨0, 1⟩, ⟨1, 1⟩, ⟨2, 2⟩])).isSome = true := by
  decide +kernel

theorem witness_MergedQueueNeverDecreases :
    ([Leaf.mk 0 1, Leaf.mk 1 1, Leaf.mk 2 2].map Leaf.cnt).sum ≤ 4 ∧
      [Leaf.mk 0 1, Leaf.mk 1 1, Leaf.mk 2 2].Pairwise (fun x y => leafKey .binary64 4 x ≤ leafKey .binary64 4 y) ∧
      (queuesAfter .binary64 2 3 (startQueues .binary64 4 [⟨0, 1⟩, ⟨1, 1⟩, ⟨2, 2⟩])).isSome = true := by
  decide +kernel

theorem witness_BuildDependsOnlyOnOrderedCounts :
    TableInv tableAab ∧ TableInv (input codesAab [0x61]) ∧ tableAab.ndist ≠ 0 ∧
      tableAab.cfg.weightMode = (input codesAab [0x61]).cfg.weightMode ∧
      ordered tableAab = ordered (input codesAab [0x61]) ∧
      (∀ x : Sym, x ∈ ordered tableAab → atSym tableAab.count x = atSym (input codesAab [0x61]).count x) :=
  ⟨tableInv_tableAab, tableInv_tableAab, by decide +kernel, rfl, rfl, fun _ _ => rfl⟩

/-! ## GEN_CODES -/

theorem witness_GenCodesRecordsEveryPath : TableInv treeAab ∧ TreeInv treeAab ∧ treeAab.treeValid = true :=
  ⟨tableInv_treeAab, treeInv_treeAab, rfl⟩

theorem witness_GenCodesNeedsATree : (ofBlock idle).blk.treeValid = false := rfl

theorem witness_CodesArePrefixFree :
    TableInv codesAab ∧ TreeInv codesAab ∧ CodesInv codesAab ∧ codesAab.codesValid = true ∧
      (atSym codesAab.code 0x61).valid = true ∧ (atSym codesAab.code 0x61).path <+: (atSym codesAab.code 0x61).path :=
  ⟨tableInv_codesAab, treeInv_codesAab, codesInv_codesAab, rfl, by decide +kernel, List.prefix_refl _⟩

theorem witness_CodesFillTheTree :
    TableInv codesAab ∧ TreeInv codesAab ∧ CodesInv codesAab ∧ codesAab.codesValid = true :=
  ⟨tableInv_codesAab, treeInv_codesAab, codesInv_codesAab, rfl⟩

theorem witness_SingleSymbolGetsCodeOne : TableInv tableOne ∧ ordered tableOne = [127] :=
  ⟨tableInv_tableOne, by decide +kernel⟩

/-! ## ENCODE -/

theorem witness_EncodeConcatenatesCodes :
    codesAab.cfg.wellFormed = true ∧ codesAab.codesValid = true ∧ InputIs (input codesAab [0x61, 0x62]) [0x61, 0x62] ∧
      (∀ x : Sym, x ∈ [0x61, 0x62] → (atSym codesAab.code x).valid = true) ∧
      (codeString codesAab [0x61, 0x62]).length ≤ codesAab.cfg.maxBits := by
  unfold InputIs Holds codeString; decide +kernel

/-- A block whose INBUF holds 32 times a and then b, for 33 bits with a BITBUF of 32. -/
def encodeFull : Block :=
  { input codesAab (List.replicate 32 0x61 ++ [0x62]) with cfg := ⟨64, 32, .countExact⟩ }

/-- The state of the element clauses: "ab" encoded, a third cell to come. -/
def encodeAt (vs : List Byte) : Block := { input codesAab ([0x61, 0x62] ++ vs) with inLen := 3 }

theorem witness_EncodeStopsInOrder :
    idle.codesValid = false ∧ (codesAab.codesValid = true ∧ codesAab.inLen = 0) ∧
    codesAab.cfg.maxSyms < { codesAab with inLen := 4097 }.inLen.toNat ∧
    (Holds (encodeAt []).inbuf ([0x61, 0x62].map (fun x : Sym => x.setWidth 8)) ∧ 2 < (encodeAt []).inLen.toNat ∧
      (codeString codesAab [0x61, 0x62]).length ≤ codesAab.cfg.maxBits ∧ Memory.get (encodeAt []).inbuf 2 = none) ∧
    Memory.get (encodeAt [0x80]).inbuf 2 = some 0x80 ∧
    (Memory.get (encodeAt [0x64]).inbuf 2 = some ((0x64 : Sym).setWidth 8) ∧
      (atSym codesAab.code 0x64).valid = false) ∧
    (encodeFull.codesValid = true ∧ encodeFull.inLen.toNat ≤ encodeFull.cfg.maxSyms ∧
      (List.replicate 32 (0x61 : Sym)).length < encodeFull.inLen.toNat ∧
      Holds encodeFull.inbuf ((List.replicate 32 (0x61 : Sym)).map (fun x => x.setWidth 8)) ∧
      (∀ x : Sym, x ∈ List.replicate 32 (0x61 : Sym) → (atSym encodeFull.code x).valid = true) ∧
      (codeString encodeFull (List.replicate 32 0x61)).length ≤ encodeFull.cfg.maxBits ∧
      Memory.get encodeFull.inbuf 32 = some ((0x62 : Sym).setWidth 8) ∧ (atSym encodeFull.code 0x62).valid = true ∧
      encodeFull.cfg.maxBits <
        (codeString encodeFull (List.replicate 32 0x61)).length + (atSym encodeFull.code 0x62).len.toNat) := by
  unfold Holds codeString; decide +kernel

/-! ## PACK, UNPACK -/

theorem witness_PackPrependsTheMarker : BitsAre idle [] ∧ BitsAre (bitInput idle [true]) [true] := by
  unfold BitsAre Holds; decide +kernel

theorem witness_PackStopsInOrder :
    idle.cfg.maxBits < { idle with bitLen := 65537 }.bitLen.toNat ∧
    (0 < { idle with bitLen := 1 }.bitLen.toNat ∧ { idle with bitLen := 1 }.bitLen.toNat ≤ idle.cfg.maxBits ∧
      Memory.get idle.bitbuf 0 = none) := by decide +kernel

theorem witness_UnpackStripsTheMarker :
    (BytesAre (byteInput idle [0x01]) [0x01] ∧ StreamOf [0x01] (bitsOfBytes [0x01]) ∧
      (bitsOfBytes [0x01])[7]? = some true ∧ ∀ j, j < 7 → (bitsOfBytes [0x01])[j]? = some false) ∧
    (BytesAre idle [] ∧ StreamOf [] [] ∧ ∀ j, j < 8 → ([] : List Bool)[j]? ≠ some true) := by
  have h : ∀ k t : Nat, k < 1 → t < 8 →
      (bitsOfBytes [0x01])[8 * k + t]? = (([0x01] : List Byte)[k]?).map (fun v => v.getLsbD (7 - t)) := by
    intro k t hk
    obtain rfl : k = 0 := by omega
    revert t
    decide +kernel
  refine ⟨⟨by unfold BytesAre Holds; decide +kernel, ⟨by decide +kernel, h⟩, by decide +kernel, by decide +kernel⟩,
    by unfold BytesAre Holds; decide +kernel, ⟨rfl, fun k t hk => absurd hk (Nat.not_lt_zero k)⟩, by decide +kernel⟩

theorem witness_UnpackStopsInOrder :
    maxPk idle.cfg < { idle with pkLen := 8197 }.pkLen.toNat ∧
    (0 < { idle with pkLen := 8196 }.pkLen.toNat ∧ { idle with pkLen := 8196 }.pkLen.toNat ≤ maxPk idle.cfg ∧
      Memory.get idle.pkbuf 0 = none) ∧
    (BytesAre (byteInput smallBits [1, 1, 2, 3, 4, 5]) [1, 1, 2, 3, 4, 5] ∧
      (bitsOfBytes [1, 1, 2, 3, 4, 5])[7]? = some true ∧
      smallBits.cfg.maxBits < ((bitsOfBytes [1, 1, 2, 3, 4, 5]).drop 8).length) ∧
    (BytesAre (byteInput smallBits [0, 1, 2, 3, 4, 5]) [0, 1, 2, 3, 4, 5] ∧
      (∀ j, j < 8 → (bitsOfBytes [0, 1, 2, 3, 4, 5])[j]? ≠ some true) ∧
      smallBits.cfg.maxBits < ((bitsOfBytes [0, 1, 2, 3, 4, 5]).drop 8).length) := by
  unfold BytesAre Holds; decide +kernel

theorem witness_UnpackInvertsPack :
    idle.cfg.wellFormed = true ∧ BitsAre (bitInput idle (List.replicate 8 true)) (List.replicate 8 true) := by
  unfold BitsAre Holds; decide +kernel

/-! ## DECODE -/

/-- "ab" = 10 in BITBUF, two symbols to decode. -/
def decodeAb : Block := { bitInput treeAab [true, false] with arg := 2 }

theorem witness_DecodeEmitsCountedSymbols :
    decodeAb.treeValid = true ∧ (atNode decodeAb.node decodeAb.root).leaf = false ∧ decodeAb.arg.toNat = 2 ∧
      leadsTo decodeAb.node decodeAb.root [true] = some 0x61 ∧ leadsTo decodeAb.node decodeAb.root [false] = some 0x62 ∧
      Holds decodeAb.bitbuf ([([true], (0x61 : Sym)), ([false], 0x62)].flatMap Prod.fst) := by
  unfold Holds; decide +kernel

/-- The same state with one more symbol asked for: the bits end first. -/
theorem witness_DecodeTruncates_truncated :
    nextSat (exec .decode (ofBlock { decodeAb with arg := 3 }))
      (fun t => decide (t.blk.error ≠ .none) && t.blk.result0 == 2) = true := by decide +kernel

theorem witness_DecodeTruncatesExactlyWhenBitsRunOut :
    TableInv decodeAb ∧ TreeInv decodeAb ∧ decodeAb.treeValid = true ∧ decodeAb.arg.toNat ≤ decodeAb.cfg.maxSyms ∧
      BitsAre decodeAb [true, false] :=
  ⟨tableInv_tableAab, treeInv_treeAab, rfl, by decide +kernel, by unfold BitsAre Holds; decide +kernel⟩

theorem witness_DecodeRefusesInOrder :
    idle.treeValid = false ∧ treeAab.cfg.maxSyms < { treeAab with arg := 4097 }.arg.toNat ∧
      treeAab.cfg.maxBits < { treeAab with bitLen := 65537 }.bitLen.toNat := by decide +kernel

/-- "ab" in BITBUF, with a third bit and a third symbol asked for. -/
def decodeThree : Block := { decodeAb with arg := 3, bitLen := 3 }

/-- The walk's clause: "ab" written, a third symbol asked for, its first bit unwritten. -/
theorem witness_DecodeRefusesInOrder_uninit :
    decodeThree.treeValid = true ∧ leadsTo decodeThree.node decodeThree.root [true] = some 0x61 ∧
      leadsTo decodeThree.node decodeThree.root ([] ++ [false]) = some 0x62 ∧
      2 < decodeThree.arg.toNat ∧ decodeThree.arg.toNat ≤ decodeThree.cfg.maxSyms ∧
      Holds decodeThree.bitbuf ([([true], (0x61 : Sym)), ([false], 0x62)].flatMap Prod.fst ++ []) ∧
      2 < decodeThree.bitLen.toNat ∧ decodeThree.bitLen.toNat ≤ decodeThree.cfg.maxBits ∧
      Memory.get decodeThree.bitbuf 2 = none := by
  unfold Holds; decide +kernel

/-! ## Every command, every step -/

theorem witness_FailuresChangeOnlyTheReport :
    nextSat (exec .decode (ofBlock idle)) (fun t => decide (t.blk.error ≠ .none)) = true := by decide +kernel

theorem witness_CommandsWriteOnlyTheirOwnState :
    nextSat (exec .build (ofBlock tableOne)) (fun t => t.blk.treeValid) = true := by decide +kernel

theorem witness_FaultsNameAnUnwrittenCell :
    TableInv treeAab ∧ TreeInv treeAab ∧
      faultsWith (exec .pack (ofBlock { treeAab with bitLen := 1 })) (.uninit .bitbuf 0) = true :=
  ⟨tableInv_treeAab, treeInv_treeAab, by decide +kernel⟩

theorem witness_UnreachableErrorsStayUnwritten :
    TableInv decodeAb ∧ TreeInv decodeAb ∧ nextSat (exec .decode (ofBlock decodeAb)) (fun _ => true) = true :=
  ⟨tableInv_tableAab, treeInv_treeAab, by decide +kernel⟩

/-- One command latched on a block with every invariant. -/
theorem witness_StepKeepsEveryInvariant :
    BlockInv { codesAab with pending := some 4 } ∧
      nextSat (step (ofBlock { codesAab with pending := some 4 })) (fun t => t.blk.treeValid) = true :=
  ⟨blockInv_codesAab, by decide +kernel⟩

theorem witness_StepKeepsBuffersCanonical :
    codesAab.cfg.wellFormed = true ∧ MemoryInv (input codesAab [0x61]) ∧ OutLenInv (input codesAab [0x61]) ∧
      nextSat (step (ofBlock { input codesAab [0x61] with pending := some 6 })) (fun t => !t.blk.bitbuf.isEmpty) = true := by
  unfold MemoryInv OutLenInv; decide +kernel

theorem witness_StepKeepsTheFrequencyTable :
    TableInv { tableAab with pending := some 0x6303, arg := 1 } ∧
      nextSat (step (ofBlock { tableAab with pending := some 0x6303, arg := 1 })) (fun t => t.blk.ndist == 3) = true :=
  ⟨tableInv_tableAab, by decide +kernel⟩

theorem witness_StepKeepsTheTree :
    TableInv { treeAab with pending := some 4 } ∧ TreeInv { treeAab with pending := some 4 } ∧
      nextSat (step (ofBlock { treeAab with pending := some 4 })) (fun t => t.blk.treeValid) = true :=
  ⟨tableInv_treeAab, treeInv_treeAab, by decide +kernel⟩

/-! ## The port and the host -/

/-- A host about to execute one statement. -/
def hostAt (b : Block) (st : HostStmt) : State :=
  { ofBlock b with host := { State.reset.host with prog := [st] } }

theorem witness_ReadsChangeNoBlockState :
    busRead tableAab (Loc.offset (.reg .total)) allLanes 0 = .okay 3 ∧ hostValue State.reset.host (.lit 4) = .ok 4 ∧
    nextSat (hostStep (hostAt tableAab (stRName (.reg .total) 3))) (fun t => t.host.rdata == some 3) = true ∧
      nextSat (hostStep (hostAt idle .wait)) (fun t => t.host.prog == []) = true ∧
      nextSat (hostStep (hostAt tableAab (stCheck (.reg .total) (.lit 4)))) (fun t => t.host.checkFailed) = true ∧
      busy idle = false ∧
      (∀ j, j < 4 → (Memory.get (input idle [1, 2, 3, 4]).inbuf (4 * 0 + j)).isSome = true) := by decide +kernel

theorem witness_SlverrExactlyOutsideTheMap :
    idle.cfg.wellFormed = true ∧ readable idle.cfg 0x048 = true ∧ readable idle.cfg 0x04C = false ∧
      readable idle.cfg 0x41FFC = true ∧ readable idle.cfg 0x42000 = false ∧ writable idle.cfg 0x82000 = true ∧
      writable idle.cfg 0x82004 = false ∧ writable idle.cfg 0x20000 = false ∧
      (hostAt idle (.write 0x82004 0xF (.lit 0))).host.prog = [.write 0x82004 0xF (.lit 0)] ∧
      (hostAt idle (.read 0x04C 0xF none)).host.prog = [.read 0x04C 0xF none] ∧
      (hostAt idle (.check 0x04C (.lit 0))).host.prog = [.check 0x04C (.lit 0)] ∧
      hostValue (hostAt idle .wait).host (.lit 0) = .ok 0 ∧ (hostAt idle .wait).host.prog = [.wait] ∧
      hostValue { State.reset.host with vars := [(7, 5)] } (.name 7) = .ok 5 ∧
      busWrite idle 0x01C 0xF 5 = .okay { idle with arg := 5 } := by decide +kernel

theorem witness_BusyWritesAreDiscarded :
    idle.cfg.wellFormed = true ∧ busy { idle with pending := some 0 } = true ∧ writable idle.cfg 0x018 = true := by
  decide +kernel

theorem witness_BusyReadsShowOnlyDefinedBits :
    idle.cfg.wellFormed = true ∧ busy { idle with pending := some 0 } = true ∧
      ([0x000, 0x004, 0x008, 0x00C, 0x010] : List Offset).all (readable idle.cfg) = true ∧
      (readable idle.cfg 0x018 = true ∧ (0x018 : Offset) ≠ 0x010) ∧ readable idle.cfg 0x048 = true ∧
      readable idle.cfg 0x82000 = true := by decide +kernel

theorem witness_CmdWriteLatchesAnyWord : busy idle = false := rfl

theorem witness_WrittenWordsReadBack :
    idle.cfg.wellFormed = true ∧ busy idle = false ∧ 4 * 1023 + 3 < symCells idle.cfg ∧ 4 * 2048 + 3 < maxPk idle.cfg ∧
      32 * 2047 + 31 < idle.cfg.maxBits := by decide +kernel

theorem witness_StatusShowsTheFlags : busy codesAab = false := rfl

theorem witness_BufferWordsShowTheirCells :
    (idle.cfg.wellFormed = true ∧ busy idle = false ∧ 4 * 1023 + 3 < symCells idle.cfg ∧
      32 * 2047 + 31 < idle.cfg.maxBits ∧ 4 * 2048 + 3 < maxPk idle.cfg) ∧
    Memory.get (byteInput idle [0x0D]).pkbuf (7 / 8) = some 0x0D ∧ Memory.get (byteInput idle [0x0D]).pkbuf (8 / 8) = none ∧
      Memory.get (bitInput idle [true]).bitbuf 0 = some true ∧ Memory.get (bitInput idle [true]).bitbuf 1 = none := by
  decide +kernel

theorem witness_TableWindowLayouts : busy codesAab = false := rfl

theorem witness_BoundHostProgramsAreNeverRefused :
    (hostAt idle (stRName (.reg .total) 3)).host.wellFormed = true := by decide +kernel

theorem witness_RoundingIsNearestEven : 1 < 14 * 2 ^ 1023 ∧ (0x3FB2492492492493 : BitVec 64).toNat < 2047 * 2 ^ 52 := by
  decide +kernel

theorem witness_DecodeInvertsEncode :
    BlockInv (input codesAab [0x61, 0x62]) ∧ InputIs (input codesAab [0x61, 0x62]) [0x61, 0x62] :=
  ⟨⟨by decide +kernel, by unfold MemoryInv; decide +kernel, by unfold OutLenInv; decide +kernel, tableInv_codesAab,
    treeInv_codesAab, codesInv_codesAab, by unfold ErrorInv; decide +kernel⟩, by unfold InputIs Holds; decide +kernel⟩

end Sys2Proof.Tests
end

section
/-! Rounding to nearest, ties to even, of binary64 values (00_scope R15): what `roundHalfEven`, `f64Scaled` and `rne`
compute, and that no finite value is nearer than `rne`'s. -/

namespace Sys2Proof.Machine

/-! ## The nearest integer -/

/-- The rounded integer is the floor of the quotient or the one above it. -/
theorem div_le_roundHalfEven_le (x d : Nat) : x / d ≤ roundHalfEven x d ∧ roundHalfEven x d ≤ x / d + 1 := by
  unfold roundHalfEven
  dsimp only
  split_ifs <;> omega

/-- The rounded multiple of `d` lies within half of `d` of `x`, and at exactly half the multiple is even. -/
theorem roundHalfEven_within_half (x d : Nat) (hd : 0 < d) :
    2 * |(roundHalfEven x d : Int) * d - x| ≤ d ∧
      (2 * |(roundHalfEven x d : Int) * d - x| = d → roundHalfEven x d % 2 = 0) := by
  have hx : (x : Int) = d * (x / d : Nat) + (x % d : Nat) := by exact_mod_cast (Nat.div_add_mod x d).symm
  have hr : x % d < d := Nat.mod_lt x hd
  have below : |((x / d : Nat) : Int) * d - x| = (x % d : Nat) := by
    rw [← Nat.abs_cast (x % d), ← abs_neg, abs_eq_abs]
    exact .inl (by linarith)
  have above : |((x / d + 1 : Nat) : Int) * d - x| = d - (x % d : Nat) := by
    rw [← abs_of_nonneg (by omega : (0 : Int) ≤ d - (x % d : Nat)), abs_eq_abs]
    exact .inl (by push_cast at hx ⊢; linarith)
  unfold roundHalfEven
  dsimp only
  split_ifs with hup htie
  · rw [above]
    omega
  · obtain heven | hodd := Nat.mod_two_eq_zero_or_one (x / d)
    · rw [heven, Nat.add_zero, below]
      omega
    · rw [hodd, above]
      omega
  · rw [below]
    omega

/-- No other multiple of `d` is nearer to `x` than the rounded one, and if another is as near, the rounded one is
even: two different multiples are at least `d` apart. -/
theorem roundHalfEven_nearest (x d j : Nat) (hd : 0 < d) :
    |(roundHalfEven x d : Int) * d - x| ≤ |(j : Int) * d - x| ∧
      (|(roundHalfEven x d : Int) * d - x| = |(j : Int) * d - x| → j ≠ roundHalfEven x d →
        roundHalfEven x d % 2 = 0) := by
  obtain ⟨hhalf, heven⟩ := roundHalfEven_within_half x d hd
  obtain rfl | hj := eq_or_ne j (roundHalfEven x d)
  · exact ⟨le_rfl, fun _ h => absurd rfl h⟩
  generalize roundHalfEven x d = m at *
  have apart : (d : Int) ≤ |(j : Int) * d - x| + |(m : Int) * d - x| :=
    calc (d : Int) ≤ |(j : Int) - m| * d := le_mul_of_one_le_left (by positivity) (Int.one_le_abs (by omega))
      _ = |((j : Int) * d - x) - ((m : Int) * d - x)| := by
        rw [← Nat.abs_cast d, ← abs_mul, Nat.abs_cast]; ring_nf
      _ ≤ _ := abs_sub _ _
  exact ⟨by omega, fun htie _ => heven (by omega)⟩

/-! ## Patterns and their significands -/

/-- A pattern whose number is `k * 2 ^ 52 + m`, where `m` is a full 53-bit significand (or any smaller one in the
lowest binade), stands for `m * 2 ^ k` units; `m = 2 ^ 53`, the carry of a rounding, is the next binade's first. -/
theorem f64Scaled_of_toNat_eq {p : BitVec 64} {k m : Nat} (hp : p.toNat = k * 2 ^ 52 + m) (hfin : p.toNat < 2047 * 2 ^ 52)
    (hm : m ≤ 2 ^ 53) (hfull : k = 0 ∨ 2 ^ 52 ≤ m) : f64Scaled p = m * 2 ^ k := by
  have hf : (p.extractLsb' 0 52).toNat = p.toNat % 2 ^ 52 := by simp
  have he : (p.extractLsb' 52 11).toNat = p.toNat / 2 ^ 52 := by
    simp only [BitVec.extractLsb'_toNat, Nat.shiftRight_eq_div_pow]
    omega
  unfold f64Scaled
  simp only [he, hf]
  obtain hsub | hnorm | hcarry : m < 2 ^ 52 ∨ (2 ^ 52 ≤ m ∧ m < 2 ^ 53) ∨ m = 2 ^ 53 := by omega
  · obtain rfl : k = 0 := by omega
    rw [if_pos (by omega)]
    omega
  · have hexp : p.toNat / 2 ^ 52 = k + 1 := by omega
    have hfrac : 2 ^ 52 + p.toNat % 2 ^ 52 = m := by omega
    rw [hexp, hfrac, if_neg (Nat.succ_ne_zero k), Nat.add_sub_cancel]
  · have hexp : p.toNat / 2 ^ 52 = k + 2 := by omega
    have hfrac : p.toNat % 2 ^ 52 = 0 := by omega
    rw [hexp, hfrac, hcarry, if_neg (by omega), Nat.add_sub_assoc (by omega), pow_add]
    ring

/-- Any 53-bit significand in one binade is less than any full one in a higher binade. -/
theorem significand_mul_lt {k k' m m' : Nat} (hm : m < 2 ^ 53) (hm' : 2 ^ 52 ≤ m') (hk : k < k') :
    m * 2 ^ k < m' * 2 ^ k' :=
  calc m * 2 ^ k < 2 ^ 53 * 2 ^ k := Nat.mul_lt_mul_of_pos_right hm (by positivity)
    _ = 2 ^ 52 * 2 ^ (k + 1) := by ring
    _ ≤ m' * 2 ^ k' := Nat.mul_le_mul hm' (Nat.pow_le_pow_right (by omega) hk)

/-- Every finite non-negative pattern has a binade and a significand. -/
theorem exists_significand {p : BitVec 64} (hfin : p.toNat < 2047 * 2 ^ 52) :
    ∃ k m, p.toNat = k * 2 ^ 52 + m ∧ m < 2 ^ 53 ∧ (k = 0 ∨ 2 ^ 52 ≤ m) ∧ f64Scaled p = m * 2 ^ k := by
  have hsplit : p.toNat = (p.toNat / 2 ^ 52 - 1) * 2 ^ 52 + (p.toNat - (p.toNat / 2 ^ 52 - 1) * 2 ^ 52) := by omega
  have hm : p.toNat - (p.toNat / 2 ^ 52 - 1) * 2 ^ 52 < 2 ^ 53 := by omega
  have hfull : p.toNat / 2 ^ 52 - 1 = 0 ∨ 2 ^ 52 ≤ p.toNat - (p.toNat / 2 ^ 52 - 1) * 2 ^ 52 := by omega
  exact ⟨_, _, hsplit, hm, hfull, f64Scaled_of_toNat_eq hsplit hfin hm.le hfull⟩

/-- Different finite patterns stand for different values: with the same binade the significands differ, and a full
significand in a higher binade is a greater value. -/
theorem f64Scaled_injective_of_finite {p p' : BitVec 64} (hfin : p.toNat < 2047 * 2 ^ 52)
    (hfin' : p'.toNat < 2047 * 2 ^ 52) (heq : f64Scaled p = f64Scaled p') : p = p' := by
  obtain ⟨k, m, hp, hm, hfull, hv⟩ := exists_significand hfin
  obtain ⟨k', m', hp', hm', hfull', hv'⟩ := exists_significand hfin'
  rw [hv, hv'] at heq
  obtain hlt | rfl | hgt := lt_trichotomy k k'
  · exact absurd heq (significand_mul_lt hm (hfull'.resolve_left (by omega)) hlt).ne
  · have hmm : m = m' := Nat.eq_of_mul_eq_mul_right (by positivity) heq
    exact BitVec.eq_of_toNat_eq (by rw [hp, hp', hmm])
  · exact absurd heq (significand_mul_lt hm' (hfull.resolve_left (by omega)) hgt).ne'

/-- Seen from binade `k`, a finite value is a whole multiple of the binade's unit or less than all its values. -/
theorem f64Scaled_multiple_or_below {p : BitVec 64} (hfin : p.toNat < 2047 * 2 ^ 52) (k : Nat) :
    (∃ j, f64Scaled p = j * 2 ^ k) ∨ (k ≠ 0 ∧ f64Scaled p < 2 ^ 52 * 2 ^ k) := by
  obtain ⟨k', m, -, hm, -, hv⟩ := exists_significand hfin
  rw [hv]
  obtain hle | hlt := le_or_gt k k'
  · exact .inl ⟨m * 2 ^ (k' - k), by rw [mul_assoc, ← pow_add, Nat.sub_add_cancel hle]⟩
  · exact .inr ⟨by omega, significand_mul_lt hm le_rfl hlt⟩

/-! ## The binade and the significand of `rne` -/

/-- The number of low bits that `rne num den` drops: its value is a multiple of `2 ^ rneShift num den` units. -/
def rneShift (num den : Nat) : Nat := f64Shift (num * f64Unit / den)

/-- The significand that `rne num den` rounds to. -/
def rneSignificand (num den : Nat) : Nat := roundHalfEven (num * f64Unit) (den * 2 ^ rneShift num den)

/-- A binade above the lowest is chosen only if the quotient fills its 53 bits. -/
theorem rneShift_eq_zero_or_le (num den : Nat) :
    rneShift num den = 0 ∨ 2 ^ 52 * (den * 2 ^ rneShift num den) ≤ num * f64Unit := by
  unfold rneShift f64Shift
  generalize num * f64Unit = x
  obtain hlow | hhigh := le_or_gt (x / den).log2 52
  · exact .inl (by omega)
  have hq : x / den ≠ 0 := fun h => by simp [h] at hhigh
  refine .inr ?_
  calc 2 ^ 52 * (den * 2 ^ ((x / den).log2 - 52)) = den * 2 ^ (52 + ((x / den).log2 - 52)) := by ring
    _ = den * 2 ^ (x / den).log2 := by rw [Nat.add_sub_cancel' hhigh.le]
    _ ≤ den * (x / den) := Nat.mul_le_mul_left den (Nat.log2_self_le hq)
    _ ≤ x := Nat.mul_div_le x den

/-- In its binade the quotient has at most 53 bits before the point. -/
theorem div_rneShift_lt (num den : Nat) : num * f64Unit / (den * 2 ^ rneShift num den) < 2 ^ 53 := by
  rw [← Nat.div_div_eq_div_mul, Nat.div_lt_iff_lt_mul (by positivity), ← pow_add]
  exact Nat.lt_log2_self.trans_le (Nat.pow_le_pow_right (by omega) (by unfold rneShift f64Shift; omega))

theorem rneSignificand_le (num den : Nat) : rneSignificand num den ≤ 2 ^ 53 :=
  (div_le_roundHalfEven_le _ _).2.trans (div_rneShift_lt num den)

section
variable {num den : Nat} (hden : 0 < den)
include hden

/-- Outside the lowest binade the significand has all its 53 bits. -/
theorem rneSignificand_full : rneShift num den = 0 ∨ 2 ^ 52 ≤ rneSignificand num den := by
  refine (rneShift_eq_zero_or_le num den).imp_right fun h => ?_
  exact ((Nat.le_div_iff_mul_le (by positivity)).mpr h).trans (div_le_roundHalfEven_le _ _).1

/-- A quotient below `2 ^ 1023` is in one of the 2045 binades whose every rounding is finite. -/
theorem rneShift_le (hnum : num < den * 2 ^ 1023) : rneShift num den ≤ 2044 := by
  have hq : num * f64Unit / den < 2 ^ 2097 := by
    rw [Nat.div_lt_iff_lt_mul hden, f64Unit]
    calc num * 2 ^ 1074 < den * 2 ^ 1023 * 2 ^ 1074 := Nat.mul_lt_mul_of_pos_right hnum (by positivity)
      _ = 2 ^ 2097 * den := by rw [mul_assoc, ← pow_add, mul_comm]
  have hlog := Nat.log_lt_of_lt_pow' (b := 2) (by omega) hq
  rw [← Nat.log2_eq_log_two] at hlog
  unfold rneShift f64Shift
  omega

/-- `rne`'s pattern, as a number. -/
theorem toNat_rne (hnum : num < den * 2 ^ 1023) :
    (rne num den).toNat = rneShift num den * 2 ^ 52 + rneSignificand num den := by
  have hk := rneShift_le hden hnum
  have hm := rneSignificand_le num den
  unfold rne
  rw [if_neg hden.ne', BitVec.toNat_ofNat]
  exact Nat.mod_eq_of_lt (by unfold rneSignificand rneShift at *; omega)

theorem rne_finite (hnum : num < den * 2 ^ 1023) : (rne num den).toNat < 2047 * 2 ^ 52 := by
  have hk := rneShift_le hden hnum
  have hm := rneSignificand_le num den
  rw [toNat_rne hden hnum]
  omega

/-- `real(rne num den)`: the rounded significand in the quotient's binade. -/
theorem f64Scaled_rne (hnum : num < den * 2 ^ 1023) :
    f64Scaled (rne num den) = rneSignificand num den * 2 ^ rneShift num den :=
  f64Scaled_of_toNat_eq (toNat_rne hden hnum) (rne_finite hden hnum) (rneSignificand_le num den)
    (rneSignificand_full hden)

/-- `rne`'s low bit is the parity of its significand. -/
theorem getLsbD_zero_rne (hnum : num < den * 2 ^ 1023) (heven : rneSignificand num den % 2 = 0) :
    (rne num den).getLsbD 0 = false := by
  have hpar : (rne num den).toNat % 2 = 0 := by rw [toNat_rne hden hnum]; omega
  simp [BitVec.getLsbD, hpar]

/-! ## Distances from the quotient, in units of 2^-1074/den -/

/-- No whole multiple of the binade's unit is nearer than the rounded value, and only an even significand is tied with
another. -/
theorem rne_nearest_multiple (hnum : num < den * 2 ^ 1023) (j : Nat) :
    |((f64Scaled (rne num den) * den : Nat) : Int) - (num * f64Unit : Nat)| ≤
        |((j * 2 ^ rneShift num den * den : Nat) : Int) - (num * f64Unit : Nat)| ∧
      (|((f64Scaled (rne num den) * den : Nat) : Int) - (num * f64Unit : Nat)| =
          |((j * 2 ^ rneShift num den * den : Nat) : Int) - (num * f64Unit : Nat)| →
        j * 2 ^ rneShift num den ≠ f64Scaled (rne num den) → (rne num den).getLsbD 0 = false) := by
  have hunit (m : Nat) : m * 2 ^ rneShift num den * den = m * (den * 2 ^ rneShift num den) := by ring
  obtain ⟨hnear, htie⟩ := roundHalfEven_nearest (num * f64Unit) (den * 2 ^ rneShift num den) j (by positivity)
  rw [← rneSignificand] at hnear htie
  rw [f64Scaled_rne hden hnum, hunit, hunit, Nat.cast_mul (rneSignificand _ _), Nat.cast_mul j]
  exact ⟨hnear, fun heq hne => getLsbD_zero_rne hden hnum (htie heq fun hj => hne (by rw [hj]))⟩

/-- A value below all of the quotient's binade is farther away than the rounded one: the binade's first value lies
between it and the quotient. -/
theorem rne_nearer_than_below (hnum : num < den * 2 ^ 1023) {v : Nat} (hk : rneShift num den ≠ 0)
    (hv : v < 2 ^ 52 * 2 ^ rneShift num den) :
    |((f64Scaled (rne num den) * den : Nat) : Int) - (num * f64Unit : Nat)| <
      |((v * den : Nat) : Int) - (num * f64Unit : Nat)| := by
  obtain ⟨hnear, -⟩ := rne_nearest_multiple hden hnum (2 ^ 52)
  have hbelow : v * den < 2 ^ 52 * 2 ^ rneShift num den * den := Nat.mul_lt_mul_of_pos_right hv hden
  have hfirst : 2 ^ 52 * 2 ^ rneShift num den * den ≤ num * f64Unit := by
    rw [mul_assoc, mul_comm _ den]
    exact (rneShift_eq_zero_or_le num den).resolve_left hk
  refine hnear.trans_lt ?_
  rw [abs_of_nonpos (by omega), abs_of_nonpos (by omega)]
  omega

end

/-- Settles O59: a finite value is either a multiple of the unit of the quotient's binade, where rounding to the nearest
integer decides, or below that binade and so farther away. -/
theorem roundingIsNearestEven : Obligations.RoundingIsNearestEven := by
  intro num den p hden hnum hp
  rw [← f64Unit]
  refine ⟨rne_finite hden hnum, ?_⟩
  obtain ⟨j, hj⟩ | ⟨hk, hv⟩ := f64Scaled_multiple_or_below hp (rneShift num den)
  · obtain ⟨hnear, htie⟩ := rne_nearest_multiple hden hnum j
    rw [← hj] at hnear htie
    exact ⟨hnear, fun heq hne => htie heq fun hval =>
      hne (f64Scaled_injective_of_finite hp (rne_finite hden hnum) hval)⟩
  · have hfar := rne_nearer_than_below hden hnum hk hv
    exact ⟨hfar.le, fun heq _ => absurd heq hfar.ne⟩

end Sys2Proof.Machine
end

section
/-! What one step does to the block, said once for all ten commands: a command's result, the tables a step leaves, and
the writes of the host. The invariants of 10_state are proved from these. -/

namespace Sys2Proof.Machine

/-! ## The result of a command -/

/-- What the pseudocode of a command hands to the end of `engine_step` (40_control R112). -/
def commandResult : Instr → Block → Except Stop Commit
  | .nop, b => .ok ⟨b, 0, 0⟩
  | .clear, b => .ok ⟨clearBlock b, 0, 0⟩
  | .freqScan, b => freqScan b
  | .freqLoad sym, b => freqLoad sym b
  | .build, b => buildTree b
  | .genCodes, b => genCodes b
  | .encode, b => encodeSyms b
  | .pack, b => packBits b
  | .unpack, b => unpackBytes b
  | .decode, b => decodeBits b

theorem exec_eq_finish {i : Instr} (hi : i ≠ .decode) (s : State) : exec i s = finish s (commandResult i s.blk) := by
  cases i with
  | decode => exact absurd rfl hi
  | _ => rfl

theorem exec_decode_eq (s : State) : exec .decode s = finishDecode s (commandResult .decode s.blk) := rfl

/-- A command that goes on commits its result with a report of success, or reports an error over the block as it was,
but for DECODE's OUT_LEN (60_exceptions R215, 45_decoder R202). -/
theorem exec_blk {i : Instr} {s t : State} (h : exec i s = .next t) :
    (∃ c, commandResult i s.blk = .ok c ∧ t.blk = complete c.blk .none c.r0 c.r1) ∨
    (∃ code r0 r1, commandResult i s.blk = .error (.raise code r0 r1) ∧
      (t.blk = complete s.blk code r0 r1 ∨ t.blk = complete { s.blk with outLen := 0 } code r0 r1)) := by
  by_cases hi : i = .decode
  · subst hi
    rw [exec_decode_eq, finishDecode_next] at h
    obtain ⟨c, hc, rfl⟩ | ⟨code, r0, r1, he, rfl⟩ := h
    · exact .inl ⟨c, hc, rfl⟩
    · exact .inr ⟨code, r0, r1, he, .inr rfl⟩
  · rw [exec_eq_finish hi, finish_next] at h
    obtain ⟨c, hc, rfl⟩ | ⟨code, r0, r1, he, rfl⟩ := h
    · exact .inl ⟨c, hc, rfl⟩
    · exact .inr ⟨code, r0, r1, he, .inl rfl⟩

/-! ## The tables a step leaves -/

/-- The registers and tables that the invariants of the frequency table, the tree and the code table speak of, in a
block that is otherwise the power-on one. -/
def Block.tables (b : Block) : Block :=
  { Block.powerOn b.cfg with
    treeValid := b.treeValid, codesValid := b.codesValid, total := b.total, ndist := b.ndist, nleaf := b.nleaf
    root := b.root, synth := b.synth, count := b.count, order := b.order, node := b.node, code := b.code }

@[simp] theorem complete_tables (b : Block) (e : ErrCode) (r0 r1 : Word) : (complete b e r0 r1).tables = b.tables := rfl

theorem clearBlock_tables (b : Block) : (clearBlock b).tables = (Block.powerOn b.cfg).tables := rfl

/-- No host write reaches a table (20_memory R72, R73). -/
theorem busWrite_tables {b c : Block} {off : Offset} {lanes : BitVec 4} {v : Word}
    (h : busWrite b off lanes v = .okay c) : c.tables = b.tables := by
  obtain ⟨t, b', -, hw, rfl⟩ := (busWrite_okay b c off lanes v).mp h
  have hb' : b'.tables = b.tables := by
    obtain ⟨rfl, -⟩ | ⟨rfl, -⟩ | ⟨rfl, -⟩ | ⟨rfl, -⟩ | ⟨rfl, -⟩ | ⟨n, rfl, -⟩ | ⟨n, rfl, -⟩ | ⟨n, rfl, -⟩ :=
      writeTarget_cases b b' v t hw <;> simp only [Block.tables]
  split
  · rfl
  · exact hb'

/-- The ways a step changes the tables of a block `b`: it keeps them, or leaves those of a reset (or CLEAR), FREQ_SCAN,
FREQ_LOAD, BUILD or GEN_CODES, under the checks the command passed. -/
inductive TableChange (b : Block) : Block → Prop where
  | kept : TableChange b b
  | empty : TableChange b (Block.powerOn b.cfg)
  | scan (ss : List Sym) (hlen : ss.length < 2 ^ 32) : TableChange b (scanCommit b ss)
  | load (sym : Sym) (harg : b.arg ≠ 0) (hnew : atSym b.count sym = 0)
      (hfit : b.total.toNat + b.arg.toNat < 2 ^ 32) : TableChange b (loadCommit b sym)
  | build (hne : b.ndist ≠ 0) : TableChange b (buildCommit b)
  | codes (acc : CodeAcc) (htree : b.treeValid = true)
      (hwalk : codeWalk b.node codeWalkFuel [(b.root, [])] CodeAcc.start = some acc) :
      TableChange b (codesCommit b acc)

theorem commandResult_tables {i : Instr} {b : Block} {c : Commit} (h : commandResult i b = .ok c) :
    ∃ b', TableChange b b' ∧ c.blk.tables = b'.tables := by
  cases i with
  | nop => cases h; exact ⟨_, .kept, rfl⟩
  | clear => cases h; exact ⟨_, .empty, clearBlock_tables b⟩
  | freqScan =>
    obtain ⟨-, -, ss, hss, rfl⟩ := (freqScan_ok b c).mp h
    have hlen : ss.length = b.inLen.toNat := ((readSyms_ok _ _ _).mp hss).1
    exact ⟨_, .scan ss (hlen ▸ b.inLen.isLt), rfl⟩
  | freqLoad sym =>
    obtain ⟨harg, hnew, hfit, rfl⟩ := (freqLoad_ok b sym c).mp h
    exact ⟨_, .load sym harg hnew (by omega), rfl⟩
  | build =>
    obtain ⟨hne, -, rfl⟩ := (buildTree_ok b c).mp h
    exact ⟨_, .build hne, rfl⟩
  | genCodes =>
    obtain ⟨htree, -, acc, hwalk, rfl⟩ := (genCodes_ok b c).mp h
    exact ⟨_, .codes acc htree hwalk, rfl⟩
  | encode =>
    obtain ⟨-, -, -, out, -, rfl⟩ := (encodeSyms_ok b c).mp h
    exact ⟨_, .kept, rfl⟩
  | pack =>
    obtain ⟨-, bs, -, rfl⟩ := (packBits_ok b c).mp h
    exact ⟨_, .kept, rfl⟩
  | unpack =>
    obtain ⟨-, bytes, -, -, rfl⟩ := (unpackBytes_ok b c).mp h
    exact ⟨_, .kept, rfl⟩
  | decode =>
    obtain ⟨-, -, -, d, -, rfl⟩ := (decodeBits_ok b c).mp h
    exact ⟨_, .kept, rfl⟩

/-- What a step leaves in the tables is one of these changes. -/
theorem step_tables {s t : State} (h : step s = .next t) :
    ∃ b', TableChange s.blk b' ∧ t.blk.tables = b'.tables := by
  obtain hb | ⟨off, lanes, w, hb⟩ | hb | ⟨i, s', t', hs', hx, hb⟩ | hb := step_blk s t h
  · exact ⟨_, .kept, by rw [hb]⟩
  · exact ⟨_, .kept, busWrite_tables hb⟩
  · exact ⟨_, .kept, by rw [hb, complete_tables]⟩
  · rw [← hb, ← hs']
    obtain ⟨c, hc, ht⟩ | ⟨code, r0, r1, -, ht | ht⟩ := exec_blk hx
    · rw [ht, complete_tables]
      exact commandResult_tables hc
    · exact ⟨_, .kept, by rw [ht, complete_tables]⟩
    · exact ⟨_, .kept, by rw [ht, complete_tables]; rfl⟩
  · exact ⟨_, .empty, by rw [hb]⟩

end Sys2Proof.Machine
end

section
/-! The frequency table (10_state R32, R33, R37, R38): what a scan counts, what a load adds, and that every step keeps
the table's invariant. -/

namespace Sys2Proof.Machine

open Sys2Proof.Safety

/-! ## Tables of 128 entries -/

@[simp] theorem card_sym : Fintype.card Sym = 128 := by
  rw [Fintype.card_congr BitVec.equivFin.toEquiv, Fintype.card_fin]; rfl

/-- A sum over the entries of a table is a sum over the symbols. -/
theorem sum_map_toList {α : Type} (t : Vector α 128) (f : α → Nat) :
    (t.toList.map f).sum = ∑ s : Sym, f (atSym t s) := by
  have hlist : t.toList = List.ofFn fun i : Fin 128 => t[i.val] := by
    rw [← Vector.toList_ofFn, Vector.ofFn_getElem]
  rw [hlist, List.map_ofFn, List.sum_ofFn]
  exact Fintype.sum_equiv (BitVec.equivFin (m := 7)).symm.toEquiv _ _ fun i => rfl

theorem countSum_eq (b : Block) : countSum b = ∑ s : Sym, (atSym b.count s).toNat := sum_map_toList _ _

/-- Changing one entry of a table from 0 adds the new value to the table's sum. -/
theorem sum_setSym {α : Type} (t : Vector α 128) (x : Sym) (v : α) (f : α → Nat) (hx : f (atSym t x) = 0) :
    ∑ s, f (atSym (setSym t x v) s) = ∑ s, f (atSym t s) + f v := by
  have hterm (s : Sym) : f (atSym (setSym t x v) s) = f (atSym t s) + if s = x then f v else 0 := by
    rw [atSym_setSym]
    split
    · next h => rw [h, hx, Nat.zero_add]
    · rw [Nat.add_zero]
  simp [hterm, Finset.sum_add_distrib]

/-! ## The scan -/

theorem tally_append_singleton (ss : List Sym) (s : Sym) : tally (ss ++ [s]) = (tally ss).add s := by
  simp [tally]

/-- The scan counts occurrences (41_frequency R121, R123). -/
theorem atSym_tally_cnt (ss : List Sym) (s : Sym) : atSym (tally ss).cnt s = ss.count s := by
  induction ss using List.reverseRecOn with
  | nil => simp [tally, Tally.start]
  | append_singleton ss x ih =>
    rw [tally_append_singleton, Tally.add, atSym_setSym, List.count_append, List.count_singleton]
    by_cases h : s = x
    · subst h; simp [ih]
    · rw [if_neg h, ih, if_neg (by simpa using Ne.symm h), Nat.add_zero]

/-- The scan's list has the symbols that occur. -/
theorem mem_tally_ord (ss : List Sym) (s : Sym) : s ∈ (tally ss).ord ↔ s ∈ ss := by
  induction ss using List.reverseRecOn with
  | nil => simp [tally, Tally.start]
  | append_singleton ss x ih =>
    rw [tally_append_singleton, Tally.add, atSym_tally_cnt, List.mem_append, List.mem_singleton]
    by_cases h : ss.count x = 0
    · rw [if_pos h, List.mem_append, List.mem_singleton, ih]
    · have hx : x ∈ ss := List.count_pos_iff.mp (Nat.pos_of_ne_zero h)
      rw [if_neg h, ih]
      exact ⟨.inl, fun h => h.elim id (· ▸ hx)⟩

/-- A symbol joins the scan's list once, at its first occurrence (41_frequency R123). -/
theorem nodup_tally_ord (ss : List Sym) : (tally ss).ord.Nodup := by
  induction ss using List.reverseRecOn with
  | nil => simp [tally, Tally.start]
  | append_singleton ss x ih =>
    rw [tally_append_singleton, Tally.add, atSym_tally_cnt]
    by_cases h : ss.count x = 0
    · rw [if_pos h]
      have hx : x ∉ (tally ss).ord := by rwa [mem_tally_ord, ← List.count_eq_zero]
      exact ih.append (List.nodup_singleton x) (List.disjoint_singleton.mpr hx)
    · rwa [if_neg h]

theorem length_le_128_of_nodup {l : List Sym} (h : l.Nodup) : l.length ≤ 128 := by
  simpa using h.length_le_card

/-! ## The list ORDER[0..NDIST) -/

theorem atSym_orderTable (ord : List Sym) (i : Sym) : atSym (orderTable ord) i = ord.getD i.toNat 0 := by
  simp [orderTable, atSym]

/-- ORDER as committed begins with the whole list. -/
theorem take_orderTable {ord : List Sym} (h : ord.length ≤ 128) : (orderTable ord).toList.take ord.length = ord := by
  apply List.ext_getElem
  · simpa using h
  · intro i h1 h2
    simp [orderTable, h2]

theorem length_ordered {b : Block} (h : b.ndist.toNat ≤ 128) : (ordered b).length = b.ndist.toNat := by
  simpa [ordered] using h

/-- Writing the slot after the list's end appends to the list. -/
theorem take_succ_setIfInBounds (t : Vector Sym 128) {n : Nat} (hn : n < 128) (x : Sym) :
    (t.setIfInBounds n x).toList.take (n + 1) = t.toList.take n ++ [x] := by
  rw [Vector.toList_setIfInBounds, List.take_add_one, List.take_set_of_le le_rfl]
  simp [hn]

/-- The sum of the counts in ORDER's list is the sum of all counts: the other symbols have none. -/
theorem sum_ordered {b : Block} (hnodup : (ordered b).Nodup) (hmem : ∀ s, atSym b.count s ≠ 0 ↔ s ∈ ordered b) :
    ((ordered b).map fun s => (atSym b.count s).toNat).sum = countSum b := by
  rw [countSum_eq, ← List.sum_toFinset _ hnodup]
  refine Finset.sum_subset (Finset.subset_univ _) fun s _ hs => ?_
  rw [List.mem_toFinset, ← hmem, not_not] at hs
  simp [hs]

/-! ## Every change of the table -/

theorem tableInv_tables (b : Block) : TableInv b.tables ↔ TableInv b := Iff.rfl

theorem tableInv_powerOn (cfg : Params) : TableInv (Block.powerOn cfg) := by
  refine ⟨Nat.zero_le _, List.nodup_nil, fun s => ?_, fun i _ => atSym_replicate _ _, ?_⟩
  · simp [Block.powerOn, ordered]
  · simp [countSum_eq, Block.powerOn]

/-- FREQ_SCAN leaves a sound table: the counts are the occurrences, whose sum is the length (41_frequency R121). -/
theorem tableInv_scanCommit (b : Block) {ss : List Sym} (hlen : ss.length < 2 ^ 32) : TableInv (scanCommit b ss) := by
  have hord := length_le_128_of_nodup (nodup_tally_ord ss)
  have hndist : (scanCommit b ss).ndist.toNat = (tally ss).ord.length := by
    simp only [scanCommit_eq, BitVec.toNat_ofNat]
    omega
  have hcount (s : Sym) : (atSym (scanCommit b ss).count s).toNat = ss.count s := by
    have hle : ss.count s ≤ ss.length := List.count_le_length
    have hval : atSym (scanCommit b ss).count s = BitVec.ofNat 32 (atSym (tally ss).cnt s) := by
      simp [scanCommit_eq, atSym]
    rw [hval, atSym_tally_cnt, BitVec.toNat_ofNat]
    omega
  have hordered : ordered (scanCommit b ss) = (tally ss).ord := by
    rw [ordered, hndist]
    exact take_orderTable hord
  refine ⟨by omega, hordered ▸ nodup_tally_ord ss, fun s => ?_, fun i hi => ?_, ?_⟩
  · rw [hordered, mem_tally_ord, ← List.count_pos_iff, ← hcount, ← BitVec.toNat_ne_iff_ne, Nat.pos_iff_ne_zero]
    rfl
  · rw [hndist] at hi
    rw [scanCommit_eq, atSym_orderTable]
    exact List.getD_eq_default _ _ hi
  · have hsum : ∑ s : Sym, ss.count s = ss.length := by
      simpa using Multiset.sum_count_eq_card (s := Finset.univ) (m := (ss : Multiset Sym)) (by simp)
    rw [countSum_eq, Finset.sum_congr rfl fun s _ => hcount s, hsum]
    exact Nat.mod_eq_of_lt hlen

/-- FREQ_LOAD of a new symbol adds it to a sound table; a table of 128 symbols has no new one
(41_frequency R125, R126). -/
theorem tableInv_loadCommit {b : Block} {sym : Sym} (hb : TableInv b) (harg : b.arg ≠ 0)
    (hnew : atSym b.count sym = 0) (hfit : b.total.toNat + b.arg.toNat < 2 ^ 32) : TableInv (loadCommit b sym) := by
  obtain ⟨hle, hnodup, hmem, hzero, htotal⟩ := hb
  have hnot : sym ∉ ordered b := by rwa [← hmem, not_not]
  have hnodup' : (ordered b ++ [sym]).Nodup :=
    hnodup.append (List.nodup_singleton sym) (List.disjoint_singleton.mpr hnot)
  have hlt : b.ndist.toNat < 128 := by
    have := length_le_128_of_nodup hnodup'
    rw [List.length_append, length_ordered hle] at this
    exact this
  have hndist : (loadCommit b sym).ndist.toNat = b.ndist.toNat + 1 := by
    rw [loadCommit_eq, BitVec.toNat_add]
    exact Nat.mod_eq_of_lt (by simp; omega)
  have hordered : ordered (loadCommit b sym) = ordered b ++ [sym] := by
    rw [ordered, hndist]
    exact take_succ_setIfInBounds b.order hlt sym
  refine ⟨by omega, hordered ▸ hnodup', fun s => ?_, fun i hi => ?_, ?_⟩
  · rw [hordered, List.mem_append, List.mem_singleton, loadCommit_eq, atSym_setSym, ← hmem]
    split
    · next h => exact ⟨fun _ => .inr h, fun _ => harg⟩
    · next h => simp [h]
  · rw [hndist] at hi
    rw [← hzero i (by omega)]
    exact Vector.getElem_setIfInBounds_ne _ (by omega)
  · have htot : (loadCommit b sym).total.toNat = b.total.toNat + b.arg.toNat := by
      rw [loadCommit_eq, BitVec.toNat_add]
      exact Nat.mod_eq_of_lt hfit
    rw [htot, htotal, countSum_eq, countSum_eq]
    exact (sum_setSym b.count sym b.arg BitVec.toNat (by rw [hnew]; rfl)).symm

/-- No change of the tables loses the soundness of the frequency table. -/
theorem TableChange.tableInv {b b' : Block} (h : TableChange b b') (hb : TableInv b) : TableInv b' := by
  cases h with
  | kept => exact hb
  | empty => exact tableInv_powerOn b.cfg
  | scan ss hlen => exact tableInv_scanCommit b hlen
  | load sym harg hnew hfit => exact tableInv_loadCommit hb harg hnew hfit
  | build => exact hb
  | codes => exact hb

/-- Settles O46: a step changes the tables in one of five ways, and each leaves a sound frequency table. -/
theorem stepKeepsTheFrequencyTable : Obligations.StepKeepsTheFrequencyTable := by
  intro s t hs h
  obtain ⟨b', hchange, htables⟩ := step_tables h
  rw [← tableInv_tables, htables, tableInv_tables]
  exact hchange.tableInv hs

end Sys2Proof.Machine
end

section
/-! The sorted frequency list of a sound table (41_frequency R127 to R132): its symbols, its counts and their sum. -/

namespace Sys2Proof.Machine

open Sys2Proof.Safety

theorem freqList_perm (b : Block) : (freqList b).Perm (listEntries b) := sortLeaves_perm _ _ _

theorem realLeaves_eq (b : Block) : realLeaves b = (ordered b).map fun s => ⟨s, (atSym b.count s).toNat⟩ := rfl

/-- The entries before sorting: ORDER's symbols with their counts, and the synthetic one with count 0. -/
theorem listEntries_eq (b : Block) : listEntries b = realLeaves b ++ (synthSym b).toList.map fun t => ⟨t, 0⟩ := by
  unfold listEntries
  cases synthSym b <;> simp

theorem map_sym_listEntries (b : Block) : (listEntries b).map Leaf.sym = ordered b ++ (synthSym b).toList := by
  rw [listEntries_eq, realLeaves_eq, List.map_append, List.map_map, List.map_map]
  exact congrArg₂ _ (List.map_id _) (List.map_id _)

/-- The synthetic symbol is the successor of the only one in ORDER, and so none of the table's (41_frequency R128). -/
theorem synthSym_not_mem_ordered {b : Block} {x : Sym} (h : synthSym b = some x) : x ∉ ordered b := by
  unfold synthSym at h
  split at h
  · next hone =>
    cases h
    have hlist : ordered b = [atSym b.order 0] := by simp [ordered, hone, atSym, List.take_one, List.head?_eq_getElem?]
    rw [hlist, List.mem_singleton]
    generalize atSym b.order 0 = y
    revert y
    decide
  · cases h

/-- The symbols of the list: those of the table and the synthetic one. -/
theorem exists_mem_freqList_sym (b : Block) (s : Sym) :
    (∃ l ∈ freqList b, l.sym = s) ↔ s ∈ ordered b ∨ synthSym b = some s := by
  rw [← List.mem_map, ((freqList_perm b).map Leaf.sym).mem_iff, map_sym_listEntries]
  simp

section
variable {b : Block} (hb : TableInv b)
include hb

/-- Each symbol has one entry (41_frequency R132). -/
theorem nodup_freqList_sym : ((freqList b).map Leaf.sym).Nodup := by
  obtain ⟨-, hnodup, -, -, -⟩ := hb
  rw [((freqList_perm b).map Leaf.sym).nodup_iff, map_sym_listEntries]
  refine hnodup.append (by cases synthSym b <;> simp) fun x hx hsynth => ?_
  exact synthSym_not_mem_ordered (Option.mem_toList.mp hsynth) hx

/-- Every entry has its symbol's count; the synthetic symbol has none (41_frequency R128). -/
theorem cnt_of_mem_freqList {l : Leaf} (hl : l ∈ freqList b) : l.cnt = (atSym b.count l.sym).toNat := by
  obtain ⟨-, -, hmem, -, -⟩ := hb
  rw [(freqList_perm b).mem_iff, listEntries_eq, realLeaves_eq, List.mem_append, List.mem_map, List.mem_map] at hl
  obtain ⟨s, -, rfl⟩ | ⟨x, hx, rfl⟩ := hl
  · rfl
  · have hzero : atSym b.count x = 0 := by
      by_contra hne
      exact synthSym_not_mem_ordered (Option.mem_toList.mp hx) ((hmem x).mp hne)
    simp [hzero]

/-- The counts of the list sum to TOTAL (41_frequency R131). -/
theorem sum_cnt_freqList : ((freqList b).map Leaf.cnt).sum = b.total.toNat := by
  obtain ⟨-, hnodup, hmem, -, htotal⟩ := hb
  rw [((freqList_perm b).map Leaf.cnt).sum_eq, listEntries_eq, realLeaves_eq, List.map_append, List.map_map,
    List.map_map, List.sum_append, htotal, ← sum_ordered hnodup hmem]
  cases synthSym b <;> simp [Function.comp_def]

/-- The list's length is NDIST, or 2 with a synthetic entry (41_frequency R132). -/
theorem length_freqList_of_tableInv :
    (freqList b).length = b.ndist.toNat + if (synthSym b).isSome then 1 else 0 := by
  obtain ⟨hle, -⟩ := hb
  rw [length_freqList, min_eq_left hle, synthSym]
  split <;> rfl

theorem length_freqList_bounds (hne : b.ndist ≠ 0) : 2 ≤ (freqList b).length ∧ (freqList b).length ≤ 128 := by
  obtain ⟨hle, -⟩ := hb
  have hpos : b.ndist.toNat ≠ 0 := by simpa [← BitVec.toNat_inj] using hne
  rw [length_freqList, min_eq_left hle]
  split
  · next h => simp [h]
  · next h =>
    have : b.ndist.toNat ≠ 1 := fun h1 => h (BitVec.eq_of_toNat_eq h1)
    omega

end

end Sys2Proof.Machine
end

section
/-! The two-queue merge as a forest that grows to one tree (42_tree_builder R142 to R147): the queues are seen as one
list of roots, whose order does not matter to what is claimed here. -/

namespace Sys2Proof.Machine

/-! ## The queues as a list of roots -/

/-- Both queues' entries. -/
def Queues.entries (q : Queues) : List QEntry := q.src ++ q.mrg

@[simp] theorem Queues.length_entries (q : Queues) : q.entries.length = q.src.length + q.mrg.length := by
  simp [entries]

theorem selectFront_perm {mode : WeightMode} {q q' : Queues} {x : QEntry} (h : selectFront mode q = some (x, q')) :
    q.entries.Perm (x :: q'.entries) := by
  obtain ⟨rfl, -⟩ | ⟨rfl, -⟩ := (selectFront_some mode q q' x).mp h
  · exact .refl _
  · exact List.perm_middle

/-- A merge replaces two roots by the merged one. -/
theorem mergeOnce_perm {mode : WeightMode} {k : Nat} {q q' : Queues} {nd : Node}
    (h : mergeOnce mode k q = some (nd, q')) :
    ∃ x y rest, q.entries.Perm (x :: y :: rest) ∧ q'.entries.Perm (mergedEntry mode k x y :: rest) ∧
      nd = combineNode mode x y := by
  obtain ⟨x, y, q1, q2, h1, h2, rfl, rfl⟩ := (mergeOnce_some mode k q q' nd).mp h
  refine ⟨x, y, q2.entries, (selectFront_perm h1).trans ((selectFront_perm h2).cons x), ?_, rfl⟩
  simp only [Queues.entries, ← List.append_assoc]
  exact List.perm_append_singleton _ _

/-! ## The forest -/

/-- Whether a node is internal with `k` as a child (10_state R40). -/
def Node.hasChild (k : BitVec 8) (nd : Node) : Bool := nd.used && !nd.leaf && (nd.left == k || nd.right == k)

/-- What an internal node at index `k` is: no symbol, two different children with smaller indexes, and the exact sum of
their weights (10_state R40, 42_tree_builder R147). -/
structure InternalOk (nds : List Node) (k : Nat) (nd : Node) : Prop where
  sym_eq : nd.sym = 0
  left_lt : nd.left.toNat < k
  right_lt : nd.right.toNat < k
  left_ne_right : nd.left ≠ nd.right
  cw_eq : nd.cw.toNat =
    (nds.getD nd.left.toNat Node.zero).cw.toNat + (nds.getD nd.right.toNat Node.zero).cw.toNat

/-- The nodes written so far are a forest with the roots `es`, of weight `total` in all: every node has one parent or
is one of the roots, and not both. -/
structure ForestInv (total : Nat) (nds : List Node) (es : List QEntry) : Prop where
  owned : ∀ k : BitVec 8, nds.countP (Node.hasChild k) + (es.map QEntry.idx).count k.toNat =
    if k.toNat < nds.length then 1 else 0
  root_lt : ∀ e ∈ es, e.idx < nds.length
  root_cw : ∀ e ∈ es, (nds.getD e.idx Node.zero).cw.toNat = e.cw
  internal : ∀ k, k < nds.length → (nds.getD k Node.zero).leaf = false → InternalOk nds k (nds.getD k Node.zero)
  sum_cw : (es.map QEntry.cw).sum = total

theorem ForestInv.of_perm {total : Nat} {nds : List Node} {es es' : List QEntry} (h : ForestInv total nds es)
    (hp : es.Perm es') : ForestInv total nds es' where
  owned k := by rw [← (hp.map QEntry.idx).count_eq]; exact h.owned k
  root_lt e he := h.root_lt e (hp.mem_iff.mpr he)
  root_cw e he := h.root_cw e (hp.mem_iff.mpr he)
  internal := h.internal
  sum_cw := by rw [← (hp.map QEntry.cw).sum_eq]; exact h.sum_cw

/-- Writing one more node changes no node before it. -/
theorem getD_append_singleton {nds : List Node} (nd : Node) {j : Nat} (h : j < nds.length) :
    (nds ++ [nd]).getD j Node.zero = nds.getD j Node.zero := List.getD_append _ _ _ _ h

theorem InternalOk.append {nds : List Node} {k : Nat} {nd : Node} (h : InternalOk nds k nd) (hk : k ≤ nds.length)
    (new : Node) : InternalOk (nds ++ [new]) k nd where
  sym_eq := h.sym_eq
  left_lt := h.left_lt
  right_lt := h.right_lt
  left_ne_right := h.left_ne_right
  cw_eq := by
    rw [getD_append_singleton new (h.left_lt.trans_le hk), getD_append_singleton new (h.right_lt.trans_le hk)]
    exact h.cw_eq

/-- Merging two roots of a forest gives a forest, while node indexes fit their field and weights theirs. -/
theorem ForestInv.merge {total : Nat} {nds : List Node} {x y : QEntry} {rest : List QEntry} (mode : WeightMode)
    (h : ForestInv total nds (x :: y :: rest)) (hlen : nds.length < 256) (htotal : total < 2 ^ 32) :
    ForestInv total (nds ++ [combineNode mode x y]) (mergedEntry mode nds.length x y :: rest) := by
  have hx : x.idx < nds.length := h.root_lt x (by simp)
  have hy : y.idx < nds.length := h.root_lt y (by simp)
  have hxval : (BitVec.ofNat 8 x.idx).toNat = x.idx := Nat.mod_eq_of_lt (by omega)
  have hyval : (BitVec.ofNat 8 y.idx).toNat = y.idx := Nat.mod_eq_of_lt (by omega)
  have hxcw := h.root_cw x (by simp)
  have hycw := h.root_cw y (by simp)
  have hsum : x.cw + (y.cw + (rest.map QEntry.cw).sum) = total := by simpa using h.sum_cw
  have hcw : (combineNode mode x y).cw.toNat = x.cw + y.cw := Nat.mod_eq_of_lt (by omega)
  have hne : x.idx ≠ y.idx := by
    intro heq
    have := h.owned (BitVec.ofNat 8 x.idx)
    rw [hxval, if_pos hx, List.map_cons, List.map_cons, ← heq, List.count_cons_self, List.count_cons_self] at this
    omega
  have hnew : (nds ++ [combineNode mode x y]).getD nds.length Node.zero = combineNode mode x y := by simp
  refine ⟨fun k => ?_, fun e he => ?_, fun e he => ?_, fun k hk hleaf => ?_, ?_⟩
  · have hchild : (combineNode mode x y).hasChild k = true ↔ x.idx = k.toNat ∨ y.idx = k.toNat := by
      simp [Node.hasChild, combineNode, ← BitVec.toNat_inj, hxval, hyval]
    have howned := h.owned k
    simp only [List.map_cons, List.count_cons, beq_iff_eq] at howned
    simp only [List.countP_append, List.countP_singleton, hchild, List.map_cons, List.count_cons, beq_iff_eq,
      List.length_append, List.length_singleton, mergedEntry]
    split_ifs at howned ⊢ <;> omega
  · rw [List.length_append, List.length_singleton]
    obtain rfl | he := List.mem_cons.mp he
    · exact Nat.lt_succ_self _
    · exact (h.root_lt e (by simp [he])).trans (Nat.lt_succ_self _)
  · obtain rfl | he := List.mem_cons.mp he
    · exact (congrArg _ (congrArg _ hnew)).trans hcw
    · have he' : e ∈ x :: y :: rest := by simp [he]
      rw [getD_append_singleton _ (h.root_lt e he')]
      exact h.root_cw e he'
  · rw [List.length_append, List.length_singleton] at hk
    obtain hk | rfl := Nat.lt_succ_iff_lt_or_eq.mp hk
    · rw [getD_append_singleton _ hk] at hleaf ⊢
      exact (h.internal k hk hleaf).append hk.le _
    · rw [hnew]
      refine ⟨rfl, hxval.trans_lt hx, hyval.trans_lt hy, fun heq => hne ?_, ?_⟩
      · rw [← hxval, ← hyval]
        exact congrArg BitVec.toNat heq
      · show (combineNode mode x y).cw.toNat = ((nds ++ _).getD (BitVec.ofNat 8 x.idx).toNat _).cw.toNat +
          ((nds ++ _).getD (BitVec.ofNat 8 y.idx).toNat _).cw.toNat
        rw [hxval, hyval, getD_append_singleton _ hx, getD_append_singleton _ hy, hxcw, hycw, hcw]
  · simp only [List.map_cons, List.sum_cons, mergedEntry]
    omega

/-- The merge loop makes one tree of a forest (42_tree_builder R144). -/
theorem ForestInv.mergeLoop {total : Nat} (mode : WeightMode) (htotal : total < 2 ^ 32) (fuel : Nat) :
    ∀ {nds : List Node} {q : Queues}, ForestInv total nds q.entries → 1 ≤ q.entries.length →
      q.entries.length ≤ fuel → nds.length + q.entries.length ≤ 257 →
      ∃ e, ForestInv total (nds ++ Machine.mergeLoop mode fuel nds.length q) [e] := by
  induction fuel with
  | zero => intro nds q _ hpos hfuel; omega
  | succ fuel ih =>
    intro nds q hq hpos hfuel hroom
    cases hm : mergeOnce mode nds.length q with
    | none =>
      have hone : q.entries.length = 1 := by
        have := (mergeOnce_isSome mode nds.length q).not.mp (by simp [hm])
        rw [Queues.length_entries] at *
        omega
      obtain ⟨e, he⟩ := List.length_eq_one_iff.mp hone
      exact ⟨e, by simpa [Machine.mergeLoop, hm, he] using hq⟩
    | some p =>
      obtain ⟨nd, q'⟩ := p
      obtain ⟨x, y, rest, hperm, hperm', rfl⟩ := mergeOnce_perm hm
      have hlen := hperm.length_eq
      have hlen' := hperm'.length_eq
      simp only [List.length_cons] at hlen hlen'
      have hmerged := ((hq.of_perm hperm).merge mode (by omega) htotal).of_perm hperm'.symm
      obtain ⟨e, he⟩ := ih hmerged (by omega) (by omega) (by rw [List.length_append, List.length_singleton]; omega)
      refine ⟨e, ?_⟩
      rw [mergeLoop_succ _ _ _ _ _ _ hm]
      simpa using he

/-- In a forest of one tree the root is the last node: a parent comes after its children. -/
theorem ForestInv.root_idx {total : Nat} {nds : List Node} {e : QEntry} (h : ForestInv total nds [e])
    (hpos : 0 < nds.length) (hlen : nds.length ≤ 256) : e.idx = nds.length - 1 := by
  have hval : (BitVec.ofNat 8 (nds.length - 1)).toNat = nds.length - 1 := Nat.mod_eq_of_lt (by omega)
  have hnone : nds.countP (Node.hasChild (BitVec.ofNat 8 (nds.length - 1))) = 0 := by
    rw [List.countP_eq_zero]
    intro nd hnd hchild
    obtain ⟨j, hj, rfl⟩ := List.getElem_of_mem hnd
    simp only [Node.hasChild, Bool.and_eq_true, Bool.or_eq_true, Bool.not_eq_true', beq_iff_eq] at hchild
    obtain ⟨⟨-, hleaf⟩, hchild⟩ := hchild
    have hint := h.internal j hj
    rw [List.getD_eq_getElem _ _ hj] at hint
    obtain hleft | hright := hchild
    · have := (hint hleaf).left_lt
      rw [hleft, hval] at this
      omega
    · have := (hint hleaf).right_lt
      rw [hright, hval] at this
      omega
  have howned := h.owned (BitVec.ofNat 8 (nds.length - 1))
  rw [hnone, hval, if_pos (by omega)] at howned
  by_contra hne
  simp [hne] at howned

/-! ## The nodes of the whole tree -/

/-- Every node the loop writes is internal (42_tree_builder R143). -/
theorem internal_of_mem_mergeLoop (mode : WeightMode) (fuel : Nat) :
    ∀ (k : Nat) (q : Queues) (nd : Node), nd ∈ mergeLoop mode fuel k q → nd.used = true ∧ nd.leaf = false := by
  induction fuel with
  | zero => intro k q nd h; simp [mergeLoop] at h
  | succ fuel ih =>
    intro k q nd h
    cases hm : mergeOnce mode k q with
    | none => simp [mergeLoop, hm] at h
    | some p =>
      rw [mergeLoop_succ _ _ _ _ _ _ hm] at h
      obtain rfl | h := List.mem_cons.mp h
      · obtain ⟨-, -, -, -, -, hused, hleaf, -⟩ := mergeOnce_mrg _ _ _ _ _ hm
        exact ⟨hused, hleaf⟩
      · exact ih _ _ _ h

/-- The leaves alone are a forest. -/
theorem forestInv_leaves (mode : WeightMode) (total : Nat) (ls : List Leaf)
    (hcnt : (ls.map Leaf.cnt).sum = total) (htotal : total < 2 ^ 32) :
    ForestInv total (ls.map (leafNode mode total)) (startQueues mode total ls).entries := by
  have hentries : (startQueues mode total ls).entries =
      ls.mapIdx fun i l => ⟨i, l.cnt, leafPw mode total l.cnt⟩ := by simp [startQueues, Queues.entries]
  have hidx : (startQueues mode total ls).entries.map QEntry.idx = List.range ls.length := by
    rw [hentries]
    apply List.ext_getElem <;> simp
  have hleaf (nd : Node) (hnd : nd ∈ ls.map (leafNode mode total)) : nd.leaf = true := by
    obtain ⟨l, -, rfl⟩ := List.mem_map.mp hnd
    rfl
  have hsmall (l : Leaf) (hl : l ∈ ls) : l.cnt < 2 ^ 32 :=
    (List.single_le_sum (by simp) _ (List.mem_map_of_mem (f := Leaf.cnt) hl)).trans_lt (hcnt ▸ htotal)
  refine ⟨fun k => ?_, fun e he => ?_, fun e he => ?_, fun k hk hint => ?_, ?_⟩
  · have hnone : (ls.map (leafNode mode total)).countP (Node.hasChild k) = 0 := by
      rw [List.countP_eq_zero]
      intro nd hnd
      simp [Node.hasChild, hleaf nd hnd]
    rw [hnone, hidx, Nat.zero_add, List.length_map, List.nodup_range.count]
    simp
  · rw [hentries] at he
    obtain ⟨i, hi, rfl⟩ := List.mem_mapIdx.mp he
    simpa using hi
  · rw [hentries] at he
    obtain ⟨i, hi, rfl⟩ := List.mem_mapIdx.mp he
    simpa [hi, leafNode] using hsmall _ (List.getElem_mem hi)
  · rw [List.getD_eq_getElem _ _ hk, hleaf _ (List.getElem_mem hk)] at hint
    cases hint
  · have hcw : (startQueues mode total ls).entries.map QEntry.cw = ls.map Leaf.cnt := by
      rw [hentries]
      apply List.ext_getElem <;> simp
    rw [hcw, hcnt]

section
variable (mode : WeightMode) (total : Nat) (ls : List Leaf)

theorem length_startQueues : (startQueues mode total ls).entries.length = ls.length := by
  simp [startQueues]

/-- n leaves and n - 1 merges (42_tree_builder R144, R146). -/
theorem length_treeNodes : (treeNodes mode total ls).length = ls.length + (ls.length - 1) := by
  rw [treeNodes, List.length_append, List.length_map, length_mergeLoop] <;> simp [startQueues]

/-- BUILD's nodes are one tree, whose root is the last of them. -/
theorem forestInv_treeNodes (hpos : 1 ≤ ls.length) (hlen : ls.length ≤ 128) (hcnt : (ls.map Leaf.cnt).sum = total)
    (htotal : total < 2 ^ 32) :
    ∃ e, ForestInv total (treeNodes mode total ls) [e] ∧ e.idx = 2 * ls.length - 2 := by
  have hstart := forestInv_leaves mode total ls hcnt htotal
  have hstartlen := length_startQueues mode total ls
  obtain ⟨e, he⟩ := hstart.mergeLoop mode htotal ls.length (by omega) (by omega) (by rw [List.length_map]; omega)
  rw [List.length_map] at he
  have htree := length_treeNodes mode total ls
  have hidx := ForestInv.root_idx (nds := treeNodes mode total ls) he (by omega) (by omega)
  exact ⟨e, he, by omega⟩

theorem getD_treeNodes_leaf {k : Nat} (hk : k < ls.length) :
    (treeNodes mode total ls).getD k Node.zero = leafNode mode total ls[k] := by
  rw [treeNodes, List.getD_append _ _ _ _ (by simpa using hk), List.getD_eq_getElem _ _ (by simpa using hk),
    List.getElem_map]

theorem getD_treeNodes_internal {k : Nat} (hk : ls.length ≤ k) (hlt : k < 2 * ls.length - 1) :
    ((treeNodes mode total ls).getD k Node.zero).used = true ∧
      ((treeNodes mode total ls).getD k Node.zero).leaf = false := by
  have hlen := length_treeNodes mode total ls
  rw [List.getD_eq_getElem _ _ (by omega)]
  apply internal_of_mem_mergeLoop mode ls.length ls.length (startQueues mode total ls)
  simp only [treeNodes]
  rw [List.getElem_append_right (by simpa using hk)]
  exact List.getElem_mem _

theorem getD_treeNodes_unused {k : Nat} (hpos : 1 ≤ ls.length) (hk : 2 * ls.length - 1 ≤ k) :
    (treeNodes mode total ls).getD k Node.zero = Node.zero := by
  apply List.getD_eq_default
  rw [length_treeNodes]
  omega

end

end Sys2Proof.Machine
end

section
/-! The tree invariant (10_state R34 to R36, R39, R40, R45): BUILD leaves a complete tree of a sound table, and every
step keeps it or empties NODE. -/

namespace Sys2Proof.Machine

open Sys2Proof.Safety

/-! ## The parents of a node in a node table -/

/-- A table of at most 256 nodes, read entry by entry: the nodes, then all-zero entries. -/
theorem map_getD_range (nds : List Node) {m : Nat} (h : nds.length ≤ m) :
    (List.range m).map (fun p => nds.getD p Node.zero) = nds ++ List.replicate (m - nds.length) Node.zero := by
  apply List.ext_getElem
  · rw [List.length_map, List.length_range, List.length_append, List.length_replicate]
    omega
  · intro i h1 h2
    rw [List.getElem_map, List.getElem_range]
    by_cases hi : i < nds.length
    · rw [List.getD_eq_getElem _ _ hi, List.getElem_append_left hi]
    · rw [List.getD_eq_default _ _ (by omega), List.getElem_append_right (by omega), List.getElem_replicate]

/-- The parents of a node are the nodes that have it as a child. -/
theorem length_parents {b : Block} {nds : List Node} (hnode : b.node = nodeTable nds) (hlen : nds.length ≤ 256)
    (k : BitVec 8) : (parents b k).length = nds.countP (Node.hasChild k) := by
  have hentry (p : Nat) (hp : p ∈ List.range 256) : atNode b.node (BitVec.ofNat 8 p) = nds.getD p Node.zero := by
    rw [hnode, atNode_nodeTable, BitVec.toNat_ofNat, Nat.mod_eq_of_lt (List.mem_range.mp hp)]
  calc (parents b k).length
      = (List.range 256).countP fun p => (atNode b.node (BitVec.ofNat 8 p)).hasChild k := by
        rw [List.countP_eq_length_filter]; rfl
    _ = (List.range 256).countP (Node.hasChild k ∘ fun p => nds.getD p Node.zero) :=
        List.countP_congr fun p hp => by rw [hentry p hp]; rfl
    _ = nds.countP (Node.hasChild k) := by
        rw [← List.countP_map, map_getD_range nds hlen, List.countP_append, List.countP_replicate]
        simp [Node.hasChild, Node.zero]

/-! ## With and without a tree -/

theorem treeInv_iff_of_treeValid {b : Block} (h : b.treeValid = true) :
    TreeInv b ↔ TreeNumbering b ∧ TreeStructure b ∧ TreeLeaves b ∧ TreeWeights b := by
  simp [TreeInv, h]

/-- `invalidate_tree()` leaves no tree (10_state R45), whatever else a command writes. -/
theorem treeInv_of_noTree {b : Block} (hvalid : b.treeValid = false) (h : NoTree b) : TreeInv b := by
  simpa [TreeInv, hvalid] using h

/-! ## The tree BUILD commits -/

section
variable {b : Block} (hb : TableInv b) (hne : b.ndist ≠ 0)

theorem node_buildCommit (b : Block) :
    (buildCommit b).node = nodeTable (treeNodes b.cfg.weightMode b.total.toNat (freqList b)) := rfl

/-- BUILD's node `k`. -/
theorem atNode_buildCommit (b : Block) (k : BitVec 8) : atNode (buildCommit b).node k =
    (treeNodes b.cfg.weightMode b.total.toNat (freqList b)).getD k.toNat Node.zero := atNode_nodeTable _ _

/-- The leaves stand first, in the list's order (42_tree_builder R146). -/
theorem atNode_buildCommit_leaf (b : Block) {k : BitVec 8} (hk : k.toNat < (freqList b).length) :
    atNode (buildCommit b).node k = leafNode b.cfg.weightMode b.total.toNat (freqList b)[k.toNat] := by
  rw [atNode_buildCommit, getD_treeNodes_leaf _ _ _ hk]

/-- The leaf symbols of BUILD's tree are those of the list. -/
theorem isLeafSym_buildCommit (b : Block) (s : Sym) :
    isLeafSym (buildCommit b) s = true ↔ ∃ l ∈ freqList b, l.sym = s := by
  rw [exists_mem_freqList_sym, isLeafSym, Bool.or_eq_true, decide_eq_true_eq, beq_iff_eq]
  rfl

include hb hne

theorem toNat_nleaf_buildCommit : (buildCommit b).nleaf.toNat = (freqList b).length := by
  have := (length_freqList_bounds hb hne).2
  exact Nat.mod_eq_of_lt (by omega)

theorem toNat_root_buildCommit : (buildCommit b).root.toNat = 2 * (freqList b).length - 2 := by
  have := (length_freqList_bounds hb hne).2
  rw [buildCommit_eq]
  simp only [BitVec.toNat_ofNat, length_treeNodes]
  omega

/-- Which nodes are used and which are leaves (42_tree_builder R146): leaves, internal nodes, unused entries. -/
theorem used_and_leaf_buildCommit (k : BitVec 8) :
    (atNode (buildCommit b).node k).used = decide (k.toNat < 2 * (freqList b).length - 1) ∧
      (atNode (buildCommit b).node k).leaf = decide (k.toNat < (freqList b).length) := by
  obtain ⟨hle2, -⟩ := length_freqList_bounds hb hne
  obtain hleaf | ⟨hle, hlt⟩ | hunused : k.toNat < (freqList b).length ∨
      ((freqList b).length ≤ k.toNat ∧ k.toNat < 2 * (freqList b).length - 1) ∨
      2 * (freqList b).length - 1 ≤ k.toNat := by omega
  · rw [atNode_buildCommit_leaf b hleaf, decide_eq_true (by omega), decide_eq_true hleaf]
    exact ⟨rfl, rfl⟩
  · rw [atNode_buildCommit, decide_eq_true hlt, decide_eq_false (by omega)]
    exact getD_treeNodes_internal _ _ _ hle hlt
  · rw [atNode_buildCommit, getD_treeNodes_unused _ _ _ (by omega) hunused, decide_eq_false (by omega),
      decide_eq_false (by omega)]
    exact ⟨rfl, rfl⟩

theorem used_buildCommit (k : BitVec 8) :
    (atNode (buildCommit b).node k).used = decide (k.toNat < 2 * (freqList b).length - 1) :=
  (used_and_leaf_buildCommit hb hne k).1

theorem leaf_buildCommit (k : BitVec 8) :
    (atNode (buildCommit b).node k).leaf = decide (k.toNat < (freqList b).length) :=
  (used_and_leaf_buildCommit hb hne k).2

theorem lt_of_leaf_buildCommit {k : BitVec 8} (h : (atNode (buildCommit b).node k).leaf = true) :
    k.toNat < (freqList b).length := by
  rwa [leaf_buildCommit hb hne, decide_eq_true_eq] at h

/-- BUILD's nodes as a forest of one tree. -/
theorem forestInv_buildCommit : ∃ e,
    ForestInv b.total.toNat (treeNodes b.cfg.weightMode b.total.toNat (freqList b)) [e] ∧
      e.idx = (buildCommit b).root.toNat := by
  obtain ⟨hle2, hle128⟩ := length_freqList_bounds hb hne
  rw [toNat_root_buildCommit hb hne]
  exact forestInv_treeNodes _ _ _ (by omega) hle128 (sum_cnt_freqList hb) b.total.isLt

/-- An internal node of BUILD's tree. -/
theorem internalOk_buildCommit {k : BitVec 8} (hused : (atNode (buildCommit b).node k).used = true)
    (hleaf : (atNode (buildCommit b).node k).leaf = false) :
    InternalOk (treeNodes b.cfg.weightMode b.total.toNat (freqList b)) k.toNat (atNode (buildCommit b).node k) := by
  obtain ⟨e, he, -⟩ := forestInv_buildCommit hb hne
  rw [used_buildCommit hb hne, decide_eq_true_eq] at hused
  rw [atNode_buildCommit] at hleaf ⊢
  refine he.internal k.toNat ?_ hleaf
  rw [length_treeNodes]
  omega

theorem treeNumbering_buildCommit : TreeNumbering (buildCommit b) := by
  obtain ⟨hle2, hle128⟩ := length_freqList_bounds hb hne
  unfold TreeNumbering
  rw [toNat_nleaf_buildCommit hb hne, toNat_root_buildCommit hb hne]
  refine ⟨hle2, hle128, rfl, used_buildCommit hb hne, leaf_buildCommit hb hne, fun k hk => ?_⟩
  rw [atNode_buildCommit, getD_treeNodes_unused _ _ _ (by omega) hk]

theorem treeStructure_buildCommit : TreeStructure (buildCommit b) := by
  refine ⟨fun k hleaf => ?_, fun k hused hleaf => ?_, fun k hk => ?_⟩
  · rw [atNode_buildCommit_leaf b (lt_of_leaf_buildCommit hb hne hleaf)]
    exact ⟨rfl, rfl⟩
  · have hint := internalOk_buildCommit hb hne hused hleaf
    exact ⟨hint.sym_eq, hint.left_lt, hint.right_lt, hint.left_ne_right⟩
  · obtain ⟨hle2, hle128⟩ := length_freqList_bounds hb hne
    have hlen := length_treeNodes b.cfg.weightMode b.total.toNat (freqList b)
    obtain ⟨e, he, hroot⟩ := forestInv_buildCommit hb hne
    rw [length_parents (node_buildCommit b) (by omega)]
    have howned := he.owned k
    rw [toNat_root_buildCommit hb hne] at hk hroot
    rw [if_pos (by omega), List.map_singleton, List.count_singleton, if_neg (by simp; omega)] at howned
    exact howned

theorem treeLeaves_buildCommit : TreeLeaves (buildCommit b) := by
  obtain ⟨hle2, hle128⟩ := length_freqList_bounds hb hne
  refine ⟨hne, rfl, ?_, fun j k hj hk hsym => ?_, fun k hk => ?_, fun s hs => ?_⟩
  · rw [toNat_nleaf_buildCommit hb hne]
    exact length_freqList_of_tableInv hb
  · have hj' := lt_of_leaf_buildCommit hb hne hj
    have hk' := lt_of_leaf_buildCommit hb hne hk
    rw [atNode_buildCommit_leaf b hj', atNode_buildCommit_leaf b hk'] at hsym
    apply BitVec.eq_of_toNat_eq
    refine ((nodup_freqList_sym hb).getElem_inj_iff (hi := by simpa using hj') (hj := by simpa using hk')).mp ?_
    rw [List.getElem_map, List.getElem_map]
    exact hsym
  · have hk' := lt_of_leaf_buildCommit hb hne hk
    rw [atNode_buildCommit_leaf b hk', isLeafSym_buildCommit b]
    exact ⟨_, List.getElem_mem hk', rfl⟩
  · obtain ⟨l, hl, rfl⟩ := (isLeafSym_buildCommit b s).mp hs
    obtain ⟨i, hi, rfl⟩ := List.getElem_of_mem hl
    have hval : (BitVec.ofNat 8 i).toNat = i := Nat.mod_eq_of_lt (by omega)
    refine ⟨BitVec.ofNat 8 i, ?_, ?_⟩
    · rw [leaf_buildCommit hb hne, hval, decide_eq_true hi]
    · rw [atNode_buildCommit_leaf b (hval.trans_lt hi)]
      simp [leafNode, hval]

theorem treeWeights_buildCommit : TreeWeights (buildCommit b) := by
  refine ⟨fun k hleaf => ?_, fun k hused hleaf => ?_, ?_⟩
  · have hk := lt_of_leaf_buildCommit hb hne hleaf
    rw [atNode_buildCommit_leaf b hk]
    apply BitVec.eq_of_toNat_eq
    have hcnt := cnt_of_mem_freqList hb (List.getElem_mem hk)
    have hlt := (atSym b.count (freqList b)[k.toNat].sym).isLt
    rw [← hcnt] at hlt
    exact (Nat.mod_eq_of_lt hlt).trans hcnt
  · rw [(internalOk_buildCommit hb hne hused hleaf).cw_eq, atNode_buildCommit b (atNode _ k).left,
      atNode_buildCommit b (atNode _ k).right]
  · obtain ⟨e, he, hroot⟩ := forestInv_buildCommit hb hne
    apply BitVec.eq_of_toNat_eq
    rw [atNode_buildCommit, ← hroot, he.root_cw e (List.mem_singleton_self e)]
    have hcw : e.cw = b.total.toNat := by simpa using he.sum_cw
    exact hcw

/-- BUILD of a sound table with a symbol leaves a complete tree. -/
theorem treeInv_buildCommit : TreeInv (buildCommit b) := by
  rw [treeInv_iff_of_treeValid rfl]
  exact ⟨treeNumbering_buildCommit hb hne, treeStructure_buildCommit hb hne, treeLeaves_buildCommit hb hne,
    treeWeights_buildCommit hb hne⟩

end

/-! ## Every change of the tree -/

theorem treeInv_tables (b : Block) : TreeInv b.tables ↔ TreeInv b := Iff.rfl

theorem treeInv_powerOn (cfg : Params) : TreeInv (Block.powerOn cfg) := ⟨rfl, rfl, rfl, rfl⟩

/-- No change of the tables loses the soundness of the tree. -/
theorem TableChange.treeInv {b b' : Block} (h : TableChange b b') (htable : TableInv b) (hb : TreeInv b) :
    TreeInv b' := by
  cases h with
  | kept => exact hb
  | empty => exact treeInv_powerOn b.cfg
  | scan => exact treeInv_of_noTree rfl ⟨rfl, rfl, rfl, rfl⟩
  | load => exact treeInv_of_noTree rfl ⟨rfl, rfl, rfl, rfl⟩
  | build hne => exact treeInv_buildCommit htable hne
  | codes => exact hb

/-- Settles O47: a step keeps the tree, or empties NODE, or is BUILD's, whose merge makes one tree of the leaves. -/
theorem stepKeepsTheTree : Obligations.StepKeepsTheTree := by
  intro s t htable hs h
  obtain ⟨b', hchange, htables⟩ := step_tables h
  rw [← treeInv_tables, htables, treeInv_tables]
  exact hchange.treeInv htable hs

end Sys2Proof.Machine
end

section
/-! The code table (10_state R41, R46; 43_code_table R161 to R166): on a sound tree the walk of GEN_CODES records
exactly the paths from the root to the leaves, and every step keeps the table's invariant. -/

namespace Sys2Proof.Machine

open Sys2Proof.Safety

/-! ## Paths -/

theorem leadsTo_leaf {nodes : Vector Node 256} {v : BitVec 8} (h : (atNode nodes v).leaf = true) (path : List Bool)
    (s : Sym) : leadsTo nodes v path = some s ↔ path = [] ∧ (atNode nodes v).sym = s := by
  cases path <;> simp [leadsTo, h]

/-- From an internal node whose children are used a path goes on from one of them. -/
theorem leadsTo_internal {nodes : Vector Node 256} {v : BitVec 8} (h : (atNode nodes v).leaf = false)
    (hused : ∀ bit, (atNode nodes (childOf (atNode nodes v) bit)).used = true) (path : List Bool) (s : Sym) :
    leadsTo nodes v path = some s ↔
      ∃ bit rest, path = bit :: rest ∧ leadsTo nodes (childOf (atNode nodes v) bit) rest = some s := by
  cases path <;> simp [leadsTo, h, hused]

/-! ## The walk of GEN_CODES -/

/-- From an entry of the walk's stack, `path` leads to the symbol `s`. -/
def StackLeads (nodes : Vector Node 256) (stack : List (BitVec 8 × List Bool)) (s : Sym) (path : List Bool) : Prop :=
  ∃ e ∈ stack, ∃ rest, leadsTo nodes e.1 rest = some s ∧ path = e.2 ++ rest

theorem stackLeads_leaf {nodes : Vector Node 256} {v : BitVec 8} (h : (atNode nodes v).leaf = true)
    (p : List Bool) (stack : List (BitVec 8 × List Bool)) (s : Sym) (path : List Bool) :
    StackLeads nodes ((v, p) :: stack) s path ↔
      ((atNode nodes v).sym = s ∧ path = p) ∨ StackLeads nodes stack s path := by
  simp [StackLeads, leadsTo_leaf h, and_assoc]

/-- Replacing an internal node by its children, each with its bit appended, keeps what the stack leads to. -/
theorem stackLeads_internal {nodes : Vector Node 256} {v : BitVec 8} (h : (atNode nodes v).leaf = false)
    (hused : ∀ bit, (atNode nodes (childOf (atNode nodes v) bit)).used = true) (p : List Bool)
    (stack : List (BitVec 8 × List Bool)) (s : Sym) (path : List Bool) :
    StackLeads nodes ((v, p) :: stack) s path ↔
      StackLeads nodes (((atNode nodes v).left, p ++ [false]) :: ((atNode nodes v).right, p ++ [true]) :: stack)
        s path := by
  simp only [StackLeads, List.mem_cons, exists_eq_or_imp, leadsTo_internal h hused]
  rw [← or_assoc]
  refine or_congr_left ⟨?_, ?_⟩
  · rintro ⟨_, ⟨bit, rest, rfl, hrest⟩, rfl⟩
    cases bit
    · exact .inl ⟨rest, hrest, by simp⟩
    · exact .inr ⟨rest, hrest, by simp⟩
  · rintro (⟨rest, hrest, rfl⟩ | ⟨rest, hrest, rfl⟩)
    · exact ⟨false :: rest, ⟨false, rest, rfl, hrest⟩, by simp⟩
    · exact ⟨true :: rest, ⟨true, rest, rfl, hrest⟩, by simp⟩

/-- When the walk ends, the entry of a symbol that the stack leads to is one of the paths to it, and every other entry
is as it was (43_code_table R162, R163). -/
theorem codeWalk_entry {nodes : Vector Node 256}
    (hclosed : ∀ v, (atNode nodes v).used = true → (atNode nodes v).leaf = false →
      ∀ bit, (atNode nodes (childOf (atNode nodes v) bit)).used = true)
    {acc' : CodeAcc} (s : Sym) (fuel : Nat) :
    ∀ {stack : List (BitVec 8 × List Bool)} {acc : CodeAcc}, (∀ e ∈ stack, (atNode nodes e.1).used = true) →
      codeWalk nodes fuel stack acc = some acc' →
      (∃ path, StackLeads nodes stack s path ∧ atSym acc'.ct s = CodeEntry.ofPath path) ∨
      ((∀ path, ¬ StackLeads nodes stack s path) ∧ atSym acc'.ct s = atSym acc.ct s) := by
  induction fuel with
  | zero =>
    intro stack acc hstack h
    cases stack with
    | nil => cases h; exact .inr ⟨by simp [StackLeads], rfl⟩
    | cons e stack => cases h
  | succ fuel ih =>
    intro stack acc hstack h
    match stack with
    | [] => cases h; exact .inr ⟨by simp [StackLeads], rfl⟩
    | (v, p) :: stack =>
      have hv : (atNode nodes v).used = true := hstack (v, p) List.mem_cons_self
      have hrest : ∀ e ∈ stack, (atNode nodes e.1).used = true := fun e he => hstack e (List.mem_cons_of_mem _ he)
      cases hleaf : (atNode nodes v).leaf with
      | true =>
        rw [codeWalk_leaf _ _ _ _ _ _ hleaf] at h
        simp only [stackLeads_leaf hleaf]
        obtain ⟨path, hpath, hentry⟩ | ⟨hnone, hentry⟩ := ih hrest h
        · exact .inl ⟨path, .inr hpath, hentry⟩
        · rw [hentry, CodeAcc.record, atSym_setSym]
          by_cases hs : s = (atNode nodes v).sym
          · exact .inl ⟨p, .inl ⟨hs.symm, rfl⟩, if_pos hs⟩
          · exact .inr ⟨fun path hpath => hpath.elim (fun hp => hs hp.1.symm) (hnone path), if_neg hs⟩
      | false =>
        rw [codeWalk_internal _ _ _ _ _ _ hleaf] at h
        have hchild := hclosed v hv hleaf
        simp only [stackLeads_internal hleaf hchild]
        refine ih (fun e he => ?_) h
        obtain rfl | rfl | he : e = ((atNode nodes v).left, p ++ [false]) ∨
            e = ((atNode nodes v).right, p ++ [true]) ∨ e ∈ stack := by simpa using he
        · exact hchild false
        · exact hchild true
        · exact hrest e he

/-! ## Paths in a sound tree -/

section
variable {b : Block} (hnum : TreeNumbering b) (hstruct : TreeStructure b)

include hnum in
theorem used_iff_lt_of_treeNumbering (k : BitVec 8) :
    (atNode b.node k).used = true ↔ k.toNat < 2 * b.nleaf.toNat - 1 := by
  obtain ⟨-, -, -, hused, -, -⟩ := hnum
  rw [hused, decide_eq_true_eq]

include hnum in
theorem leaf_eq_false_iff_le_of_treeNumbering (k : BitVec 8) :
    (atNode b.node k).leaf = false ↔ b.nleaf.toNat ≤ k.toNat := by
  obtain ⟨-, -, -, -, hleaf, -⟩ := hnum
  rw [hleaf, decide_eq_false_iff_not, not_lt]

include hnum in
/-- The root is used and internal. -/
theorem root_internal_of_treeNumbering :
    (atNode b.node b.root).used = true ∧ (atNode b.node b.root).leaf = false := by
  rw [used_iff_lt_of_treeNumbering hnum, leaf_eq_false_iff_le_of_treeNumbering hnum]
  obtain ⟨h2, -, hroot, -⟩ := hnum
  omega

include hstruct in
theorem childOf_lt {k : BitVec 8} (hused : (atNode b.node k).used = true) (hleaf : (atNode b.node k).leaf = false)
    (bit : Bool) : (childOf (atNode b.node k) bit).toNat < k.toNat := by
  obtain ⟨-, hinternal, -⟩ := hstruct
  obtain ⟨-, hl, hr, -⟩ := hinternal k hused hleaf
  cases bit
  · exact hl
  · exact hr

include hnum hstruct in
theorem childOf_used {k : BitVec 8} (hused : (atNode b.node k).used = true) (hleaf : (atNode b.node k).leaf = false)
    (bit : Bool) : (atNode b.node (childOf (atNode b.node k) bit)).used = true := by
  have hlt := childOf_lt hstruct hused hleaf bit
  rw [used_iff_lt_of_treeNumbering hnum] at hused ⊢
  omega

include hnum hstruct in
/-- A path meets each of the NLEAF - 1 internal nodes at most once, since indexes fall along it. -/
theorem length_le_of_leadsTo {s : Sym} (path : List Bool) : ∀ {k : BitVec 8}, (atNode b.node k).used = true →
    leadsTo b.node k path = some s → path.length ≤ k.toNat + 1 - b.nleaf.toNat := by
  induction path with
  | nil => intro k _ _; exact Nat.zero_le _
  | cons bit path ih =>
    intro k hused h
    have hleaf : (atNode b.node k).leaf = false := by
      by_contra hl
      have := (leadsTo_leaf (by simpa using hl) _ _).mp h
      simp at this
    obtain ⟨bit', rest, heq, hrest⟩ := (leadsTo_internal hleaf (childOf_used hnum hstruct hused hleaf) _ _).mp h
    cases heq
    have hlt := childOf_lt hstruct hused hleaf bit
    have := ih (childOf_used hnum hstruct hused hleaf bit) hrest
    rw [leaf_eq_false_iff_le_of_treeNumbering hnum] at hleaf
    rw [List.length_cons]
    omega

/-- A path ends at a leaf of its symbol. -/
theorem exists_leaf_of_leadsTo {nodes : Vector Node 256} {s : Sym} (path : List Bool) :
    ∀ {k : BitVec 8}, leadsTo nodes k path = some s →
      ∃ j, (atNode nodes j).leaf = true ∧ (atNode nodes j).sym = s := by
  induction path with
  | nil =>
    intro k h
    simp only [leadsTo, Option.ite_none_right_eq_some, Option.some.injEq] at h
    exact ⟨k, h⟩
  | cons bit path ih =>
    intro k h
    simp only [leadsTo, Option.ite_none_left_eq_some, Option.ite_none_right_eq_some] at h
    obtain ⟨-, -, hrest⟩ := h
    exact ih hrest

include hnum hstruct in
/-- Every path from a used node continues a path from the root: climb from parent to parent. -/
theorem exists_leadsTo_root {s : Sym} {k : BitVec 8} {path : List Bool} (hused : (atNode b.node k).used = true)
    (h : leadsTo b.node k path = some s) : ∃ path', leadsTo b.node b.root path' = some s := by
  have hk := (used_iff_lt_of_treeNumbering hnum k).mp hused
  obtain ⟨-, -, hroot, -⟩ := id hnum
  obtain ⟨-, -, hparents⟩ := id hstruct
  by_cases hlt : k.toNat < b.root.toNat
  · obtain ⟨q, hq⟩ := List.length_eq_one_iff.mp (hparents k hlt)
    have hparent : q ∈ parents b k := hq ▸ List.mem_singleton_self q
    simp only [parents, List.mem_filter, Bool.and_eq_true, Bool.not_eq_true', Bool.or_eq_true, beq_iff_eq] at hparent
    obtain ⟨-, ⟨hqused, hqleaf⟩, hchild⟩ := hparent
    obtain ⟨bit, hbit⟩ : ∃ bit, childOf (atNode b.node (BitVec.ofNat 8 q)) bit = k :=
      hchild.elim (fun hl => ⟨false, hl⟩) (fun hr => ⟨true, hr⟩)
    have hup : k.toNat < (BitVec.ofNat 8 q).toNat := hbit ▸ childOf_lt hstruct hqused hqleaf bit
    have hqlt := (used_iff_lt_of_treeNumbering hnum _).mp hqused
    refine exists_leadsTo_root hqused (path := bit :: path) ?_
    exact (leadsTo_internal hqleaf (childOf_used hnum hstruct hqused hqleaf) _ _).mpr ⟨bit, path, rfl, hbit ▸ h⟩
  · obtain rfl : k = b.root := BitVec.eq_of_toNat_eq (by omega)
    exact ⟨path, h⟩
termination_by b.root.toNat - k.toNat
decreasing_by omega

end

/-! ## Every change of the code table -/

/-- GEN_CODES on a sound tree leaves a sound code table: a leaf's entry is its path, every other is absent
(43_code_table R162, R166). -/
theorem codesInv_codesCommit {b : Block} {acc : CodeAcc} (htree : b.treeValid = true) (hb : TreeInv b)
    (hwalk : codeWalk b.node codeWalkFuel [(b.root, [])] CodeAcc.start = some acc) : CodesInv (codesCommit b acc) := by
  obtain ⟨hnum, hstruct, hleaves, -⟩ := (treeInv_iff_of_treeValid htree).mp hb
  obtain ⟨-, -, -, -, hleafsym, hsymleaf⟩ := hleaves
  obtain ⟨hrused, hrleaf⟩ := root_internal_of_treeNumbering hnum
  have hlead (s : Sym) (path : List Bool) :
      StackLeads b.node [(b.root, [])] s path ↔ leadsTo b.node b.root path = some s := by simp [StackLeads]
  have hsound (s : Sym) (path : List Bool) (h : leadsTo b.node b.root path = some s) : isLeafSym b s = true := by
    obtain ⟨j, hj, rfl⟩ := exists_leaf_of_leadsTo path h
    exact hleafsym j hj
  have hcomplete (s : Sym) (h : isLeafSym b s = true) : ∃ path, leadsTo b.node b.root path = some s := by
    obtain ⟨j, hj, hs⟩ := hsymleaf s h
    have hjlt : ¬ b.nleaf.toNat ≤ j.toNat := by
      rw [← leaf_eq_false_iff_le_of_treeNumbering hnum, hj]
      exact Bool.noConfusion
    have hjused := (used_iff_lt_of_treeNumbering hnum j).mpr (by omega)
    exact exists_leadsTo_root hnum hstruct hjused ((leadsTo_leaf hj [] s).mpr ⟨rfl, hs⟩)
  have hentry (s : Sym) := codeWalk_entry (fun v hu hl => childOf_used hnum hstruct hu hl) s codeWalkFuel
    (by simpa using hrused) hwalk
  simp only [hlead] at hentry
  refine ⟨htree, fun s => ?_⟩
  show if isLeafSym b s = true then _ else _
  obtain ⟨path, hpath, hs⟩ | ⟨hnone, hs⟩ := hentry s
  · rw [if_pos (hsound s path hpath)]
    have hlen := length_le_of_leadsTo hnum hstruct path hrused hpath
    obtain ⟨h2, h128, hroot, -⟩ := hnum
    have hp : (atSym (codesCommit b acc).code s).path = path := by
      rw [codesCommit_eq, hs]
      exact path_ofPath path (by omega)
    have hpos : path ≠ [] := by
      rintro rfl
      simp [leadsTo, hrleaf] at hpath
    rw [hp]
    exact ⟨hs, hpath, List.length_pos_iff.mpr hpos, by omega⟩
  · rw [if_neg fun h => (hcomplete s h).elim hnone]
    exact hs.trans (atSym_replicate _ _)

theorem codesInv_tables (b : Block) : CodesInv b.tables ↔ CodesInv b := Iff.rfl

theorem codesInv_powerOn (cfg : Params) : CodesInv (Block.powerOn cfg) := rfl

/-- No change of the tables loses the soundness of the code table. -/
theorem TableChange.codesInv {b b' : Block} (h : TableChange b b') (htree : TreeInv b) (hb : CodesInv b) :
    CodesInv b' := by
  cases h with
  | kept => exact hb
  | empty => exact codesInv_powerOn b.cfg
  | scan => rfl
  | load => rfl
  | build => rfl
  | codes acc hvalid hwalk => exact codesInv_codesCommit hvalid htree hwalk

end Sys2Proof.Machine
end

section
/-! The buffers (10_state R29, 20_memory R77): every step keeps them in canonical form and within their storage, and
OUT_LEN within OUTBUF. -/

namespace Sys2Proof

/-- The limits of 00_scope R8 and R9. -/
theorem Params.wellFormed_iff (p : Params) : p.wellFormed = true ↔
    1 ≤ p.maxSyms ∧ p.maxSyms ≤ 65536 ∧ p.maxBits % 32 = 0 ∧ 32 ≤ p.maxBits ∧ p.maxBits ≤ 2 ^ 21 - 32 := by
  simp [Params.wellFormed, and_assoc]

end Sys2Proof

namespace Sys2Proof.Machine

open Sys2Proof.Safety

/-! ## One buffer written -/

section
variable {b : Block} (hb : MemoryInv b)
include hb

theorem memoryInv_of_inbuf {m : Memory Byte} (hwf : Memory.wf m = true)
    (hin : Memory.within (symCells b.cfg) m = true) : MemoryInv { b with inbuf := m } := by
  obtain ⟨-, ho, hbit, hpk, -, ho', hbit', hpk'⟩ := hb
  exact ⟨hwf, ho, hbit, hpk, hin, ho', hbit', hpk'⟩

theorem memoryInv_of_outbuf {m : Memory Byte} (hwf : Memory.wf m = true)
    (hin : Memory.within (symCells b.cfg) m = true) : MemoryInv { b with outbuf := m } := by
  obtain ⟨hi, -, hbit, hpk, hi', -, hbit', hpk'⟩ := hb
  exact ⟨hi, hwf, hbit, hpk, hi', hin, hbit', hpk'⟩

theorem memoryInv_of_bitbuf {m : Memory Bool} (hwf : Memory.wf m = true)
    (hin : Memory.within b.cfg.maxBits m = true) : MemoryInv { b with bitbuf := m } := by
  obtain ⟨hi, ho, -, hpk, hi', ho', -, hpk'⟩ := hb
  exact ⟨hi, ho, hwf, hpk, hi', ho', hin, hpk'⟩

theorem memoryInv_of_pkbuf {m : Memory Byte} (hwf : Memory.wf m = true)
    (hin : Memory.within (maxPk b.cfg) m = true) : MemoryInv { b with pkbuf := m } := by
  obtain ⟨hi, ho, hbit, -, hi', ho', hbit', -⟩ := hb
  exact ⟨hi, ho, hbit, hwf, hi', ho', hbit', hin⟩

/-- A bitstring of at most MAX_BITS bits, with its tail fill, fits BITBUF, whose size is whole words. -/
theorem memoryInv_putBits (hcfg : b.cfg.wellFormed = true) {bs : List Bool} (hlen : bs.length ≤ b.cfg.maxBits) :
    MemoryInv { b with bitbuf := putBits b.bitbuf bs } := by
  obtain ⟨-, -, hword, -⟩ := (Params.wellFormed_iff _).mp hcfg
  have hfit := ceilDiv_le bs.length 32 (b.cfg.maxBits / 32) (by omega) (by omega)
  obtain ⟨-, -, hwf, -, -, -, hin, -⟩ := id hb
  exact memoryInv_of_bitbuf hb (wf_putBits _ _ hwf) (within_putBits _ _ _ hin (by omega))

/-- The bytes of a packed bitstring of at most MAX_BITS bits fit PKBUF (44_bit_packing R181). -/
theorem memoryInv_packBytes (hcfg : b.cfg.wellFormed = true) {bs : List Bool} (hlen : bs.length ≤ b.cfg.maxBits) :
    MemoryInv { b with pkbuf := putBytes b.pkbuf (packBytes (padded bs)) } := by
  obtain ⟨-, -, hword, -⟩ := (Params.wellFormed_iff _).mp hcfg
  have hbytes : (packBytes (padded bs)).length ≤ b.cfg.maxBits / 8 + 1 := by
    rw [length_packBytes, length_padded, padLen]
    omega
  have hpk : 4 * (maxPk b.cfg / 4) = maxPk b.cfg := by unfold maxPk; omega
  have hfit := ceilDiv_le (packBytes (padded bs)).length 4 (maxPk b.cfg / 4) (by omega) (by unfold maxPk at *; omega)
  obtain ⟨-, -, -, hwf, -, -, -, hin⟩ := id hb
  exact memoryInv_of_pkbuf hb (wf_putBytes _ _ hwf) (within_putBytes _ _ _ hin (by omega))

/-- At most MAX_SYMS bytes, with their tail fill, fit OUTBUF's storage. -/
theorem memoryInv_putBytes_outbuf {bytes : List Byte} (hlen : bytes.length ≤ b.cfg.maxSyms) :
    MemoryInv { b with outbuf := putBytes b.outbuf bytes } := by
  have hfit := ceilDiv_le bytes.length 4 (ceilDiv b.cfg.maxSyms 4) (by omega)
    (hlen.trans (le_ceilDiv _ _ (by omega)))
  obtain ⟨-, hwf, -, -, -, hin, -, -⟩ := id hb
  exact memoryInv_of_outbuf hb (wf_putBytes _ _ hwf) (within_putBytes _ _ _ hin hfit)

end

/-! ## Host writes -/

theorem wf_writeByteWord {m : Memory Byte} (h : Memory.wf m = true) (n : Nat) (v : Word) :
    Memory.wf (writeByteWord m n v) = true := Memory.wf_setRange _ _ _ h

theorem within_writeByteWord {m : Memory Byte} {words n : Nat} (h : Memory.within (4 * words) m = true)
    (hn : n < words) (v : Word) : Memory.within (4 * words) (writeByteWord m n v) = true :=
  Memory.within_setRange _ _ _ _ h (by simp only [List.length_cons, List.length_nil]; omega)

theorem wf_writeBitWord {m : Memory Bool} (h : Memory.wf m = true) (n : Nat) (v : Word) :
    Memory.wf (writeBitWord m n v) = true := Memory.wf_setRange _ _ _ h

theorem within_writeBitWord {m : Memory Bool} {words n : Nat} (h : Memory.within (32 * words) m = true)
    (hn : n < words) (v : Word) : Memory.within (32 * words) (writeBitWord m n v) = true :=
  Memory.within_setRange _ _ _ _ h (by rw [length_bitsOf]; omega)

theorem accessTarget_some {b : Block} {off : Offset} {lanes : BitVec 4} {t : Target}
    (h : accessTarget b off lanes = some t) : decodeOffset b.cfg off = some t := by
  unfold accessTarget at h
  split at h
  · exact h
  · cases h

/-- A write the port accepts stays in the buffer's storage (20_memory R77). -/
theorem memoryInv_busWrite {b c : Block} {off : Offset} {lanes : BitVec 4} {v : Word}
    (hcfg : b.cfg.wellFormed = true) (hb : MemoryInv b) (h : busWrite b off lanes v = .okay c) : MemoryInv c := by
  obtain ⟨t, b', hacc, hw, rfl⟩ := (busWrite_okay b c off lanes v).mp h
  split
  · exact hb
  obtain ⟨-, -, hword, -⟩ := (Params.wellFormed_iff _).mp hcfg
  have hbits : 32 * (b.cfg.maxBits / 32) = b.cfg.maxBits := by omega
  have hpk : 4 * (maxPk b.cfg / 4) = maxPk b.cfg := by unfold maxPk; omega
  have hdec := decodeOffset_cases _ _ _ (accessTarget_some hacc)
  obtain ⟨hwi, -, hwb, hwp, hi, -, hbit, hp⟩ := id hb
  obtain ⟨rfl, -⟩ | ⟨rfl, -⟩ | ⟨rfl, -⟩ | ⟨rfl, -⟩ | ⟨rfl, -⟩ | ⟨n, rfl, rfl⟩ | ⟨n, rfl, rfl⟩ | ⟨n, rfl, rfl⟩ :=
    writeTarget_cases b b' v t hw
  · exact hb
  · exact hb
  · exact hb
  · exact hb
  · exact hb
  · have hn : n < ceilDiv b.cfg.maxSyms 4 := by simpa using hdec
    exact memoryInv_of_inbuf hb (wf_writeByteWord hwi n v) (within_writeByteWord hi hn v)
  · have hn : n < b.cfg.maxBits / 32 := by simpa using hdec
    rw [← hbits] at hbit
    exact memoryInv_of_bitbuf hb (wf_writeBitWord hwb n v) (hbits ▸ within_writeBitWord hbit hn v)
  · have hn : n < maxPk b.cfg / 4 := by simpa using hdec
    rw [← hpk] at hp
    exact memoryInv_of_pkbuf hb (wf_writeByteWord hwp n v) (hpk ▸ within_writeByteWord hp hn v)

/-- No host write reaches the configuration, OUT_LEN or ERROR (20_memory R73). -/
theorem busWrite_frame {b c : Block} {off : Offset} {lanes : BitVec 4} {v : Word}
    (h : busWrite b off lanes v = .okay c) : c.cfg = b.cfg ∧ c.outLen = b.outLen ∧ c.error = b.error := by
  obtain ⟨t, b', -, hw, rfl⟩ := (busWrite_okay b c off lanes v).mp h
  split
  · exact ⟨rfl, rfl, rfl⟩
  · obtain ⟨rfl, -⟩ | ⟨rfl, -⟩ | ⟨rfl, -⟩ | ⟨rfl, -⟩ | ⟨rfl, -⟩ | ⟨n, rfl, -⟩ | ⟨n, rfl, -⟩ | ⟨n, rfl, -⟩ :=
      writeTarget_cases b b' v t hw <;> exact ⟨rfl, rfl, rfl⟩

/-! ## Commands and steps -/

/-- The configuration, which nothing changes, and the two invariants of the buffers. -/
structure BuffersOk (cfg : Params) (b : Block) : Prop where
  cfg_eq : b.cfg = cfg
  memoryInv : MemoryInv b
  outLenInv : OutLenInv b

theorem buffersOk_powerOn (cfg : Params) : BuffersOk cfg (Block.powerOn cfg) :=
  ⟨rfl, ⟨rfl, rfl, rfl, rfl, rfl, rfl, rfl, rfl⟩, Nat.zero_le _⟩

theorem BuffersOk.complete {cfg : Params} {b : Block} (hb : BuffersOk cfg b) (e : ErrCode) (r0 r1 : Word) :
    BuffersOk cfg (complete b e r0 r1) := ⟨hb.cfg_eq, hb.memoryInv, hb.outLenInv⟩

/-- What a command commits keeps the buffers within their storage: ENCODE and UNPACK check MAX_BITS, PACK's output is at
most MAX_PK bytes, DECODE checks MAX_SYMS. -/
theorem BuffersOk.commandResult {cfg : Params} (hcfg : cfg.wellFormed = true) {i : Instr} {b : Block} {c : Commit}
    (hb : BuffersOk cfg b) (h : commandResult i b = .ok c) : BuffersOk cfg c.blk := by
  obtain ⟨rfl, hmem, hout⟩ := hb
  cases i with
  | nop => cases h; exact ⟨rfl, hmem, hout⟩
  | clear => cases h; exact ⟨rfl, hmem, Nat.zero_le _⟩
  | freqScan =>
    obtain ⟨-, -, ss, -, rfl⟩ := (freqScan_ok b c).mp h
    exact ⟨rfl, hmem, hout⟩
  | freqLoad sym =>
    obtain ⟨-, -, -, rfl⟩ := (freqLoad_ok b sym c).mp h
    exact ⟨rfl, hmem, hout⟩
  | build =>
    obtain ⟨-, -, rfl⟩ := (buildTree_ok b c).mp h
    exact ⟨rfl, hmem, hout⟩
  | genCodes =>
    obtain ⟨-, -, acc, -, rfl⟩ := (genCodes_ok b c).mp h
    exact ⟨rfl, hmem, hout⟩
  | encode =>
    obtain ⟨-, hpos, -, out, hloop, rfl⟩ := (encodeSyms_ok b c).mp h
    obtain ⟨ss, -, -, -, -, hlen⟩ := encodeLoop_ok _ _ _ _ _ hloop
    exact ⟨rfl, memoryInv_putBits hmem hcfg (hlen.resolve_left hpos), hout⟩
  | pack =>
    obtain ⟨hle, bs, hbs, rfl⟩ := (packBits_ok b c).mp h
    have hlen := ((readCells_ok _ _ _ _).mp hbs).1
    exact ⟨rfl, memoryInv_packBytes hmem hcfg (hlen.trans_le hle), hout⟩
  | unpack =>
    obtain ⟨-, bytes, -, hlen, rfl⟩ := (unpackBytes_ok b c).mp h
    exact ⟨rfl, memoryInv_putBits hmem hcfg hlen, hout⟩
  | decode =>
    obtain ⟨-, hcap, -, d, hloop, rfl⟩ := (decodeBits_ok b c).mp h
    have hlen := (decodeLoop_ok b _ _ _ _ _ d (Nat.zero_le _) hloop).1
    exact ⟨rfl, memoryInv_putBytes_outbuf hmem (by simpa [hlen] using hcap),
      (Nat.mod_le _ _).trans (hlen.trans_le hcap)⟩

/-- Every step keeps the configuration and the invariants of the buffers. -/
theorem BuffersOk.step {cfg : Params} (hcfg : cfg.wellFormed = true) {s t : State} (hs : BuffersOk cfg s.blk)
    (h : step s = .next t) : BuffersOk cfg t.blk := by
  obtain hb | ⟨off, lanes, w, hb⟩ | hb | ⟨i, s', t', hs', hx, hb⟩ | hb := step_blk s t h
  · rwa [hb]
  · obtain ⟨rfl, hmem, hout⟩ := hs
    obtain ⟨hcfg', hout', -⟩ := busWrite_frame hb
    refine ⟨hcfg', memoryInv_busWrite hcfg hmem hb, ?_⟩
    unfold OutLenInv
    rwa [hcfg', hout']
  · exact hb ▸ hs.complete _ _ _
  · rw [← hb]
    rw [← hs'] at hs
    obtain ⟨c, hc, ht⟩ | ⟨code, r0, r1, -, ht | ht⟩ := exec_blk hx
    · exact ht ▸ (hs.commandResult hcfg hc).complete _ _ _
    · exact ht ▸ hs.complete _ _ _
    · have hzero : BuffersOk cfg { s'.blk with outLen := 0 } := ⟨hs.cfg_eq, hs.memoryInv, Nat.zero_le _⟩
      exact ht ▸ hzero.complete _ _ _
  · rw [hb, hs.cfg_eq]
    exact buffersOk_powerOn cfg

end Sys2Proof.Machine
end

section
/-! The error codes each command raises (60_exceptions R210, R220), and with them every invariant of the block at
once. -/

namespace Sys2Proof.Machine

open Sys2Proof.Safety

/-! ## The codes of each command -/

theorem readSyms_raise {m : Memory Byte} {n : Nat} {code : ErrCode} {r0 r1 : Word}
    (h : readSyms m n = .error (.raise code r0 r1)) : code = .symbolRange := by
  obtain ⟨j, -, hj, -⟩ := (readFrom_error _ _ _ _).mp h
  obtain ⟨-, he⟩ | ⟨v, -, -, he⟩ := (readSym_error _ _ _).mp hj
  · cases he
  · cases he; rfl

theorem readCells_ne_raise {α : Type} {buf : Buf} {m : Memory α} {n : Nat} {code : ErrCode} {r0 r1 : Word} :
    readCells buf m n ≠ .error (.raise code r0 r1) := by
  intro h
  obtain ⟨j, -, -, he, -⟩ := (readCells_error _ _ _ _).mp h
  cases he

theorem freqScan_raise {b : Block} {code : ErrCode} {r0 r1 : Word} (h : freqScan b = .error (.raise code r0 r1)) :
    code ∈ [ErrCode.emptyInput, .capacity, .symbolRange] := by
  simp only [freqScan] at h
  split at h
  · cases h; simp
  · split at h
    · cases h; simp
    · split at h
      · next e he => cases h; simp [readSyms_raise he]
      · cases h

theorem freqLoad_raise {sym : Sym} {b : Block} {code : ErrCode} {r0 r1 : Word}
    (h : freqLoad sym b = .error (.raise code r0 r1)) : code ∈ [ErrCode.malformedFreqList, .capacity] := by
  unfold freqLoad at h
  split at h
  · cases h; simp
  · split at h
    · cases h; simp
    · split at h
      · cases h; simp
      · cases h

theorem buildTree_raise {b : Block} {code : ErrCode} {r0 r1 : Word} (h : buildTree b = .error (.raise code r0 r1)) :
    code ∈ [ErrCode.emptyInput, .malformedFreqList] := by
  simp only [buildTree] at h
  split at h
  · cases h; simp
  · split at h
    · cases h; simp
    · cases h

/-- On a sound tree the root is internal, so GEN_CODES raises no CORRUPT_TREE_WALK (43_code_table R165). -/
theorem genCodes_raise {b : Block} {code : ErrCode} {r0 r1 : Word} (htree : TreeInv b)
    (h : genCodes b = .error (.raise code r0 r1)) : code = .emptyTree := by
  unfold genCodes at h
  generalize codeWalkFuel = fuel at h
  split at h
  · cases h; rfl
  · next hvalid =>
    obtain ⟨hnum, -⟩ := (treeInv_iff_of_treeValid (by simpa using hvalid)).mp htree
    rw [(root_internal_of_treeNumbering hnum).2] at h
    split at h
    · next hleaf => cases hleaf
    · split at h <;> cases h

theorem encodeLoop_raise {b : Block} {code : ErrCode} {r0 r1 : Word} (n : Nat) :
    ∀ {i : Nat} {out : List Bool}, encodeLoop b i out n = .error (.raise code r0 r1) →
      code ∈ [ErrCode.symbolRange, .unmappedSymbol, .capacity] := by
  induction n with
  | zero => intro i out h; cases h
  | succ n ih =>
    intro i out h
    simp only [encodeLoop] at h
    split at h
    · next e he =>
      cases h
      obtain ⟨-, he⟩ | ⟨v, -, -, he⟩ := (readSym_error _ _ _).mp he
      · cases he
      · cases he; simp
    · split at h
      · cases h; simp
      · split at h
        · cases h; simp
        · exact ih h

theorem encodeSyms_raise {b : Block} {code : ErrCode} {r0 r1 : Word} (h : encodeSyms b = .error (.raise code r0 r1)) :
    code ∈ [ErrCode.codeTableAbsent, .emptyInput, .capacity, .symbolRange, .unmappedSymbol] := by
  simp only [encodeSyms] at h
  split at h
  · cases h; simp
  · split at h
    · cases h; simp
    · split at h
      · cases h; simp
      · split at h
        · next e he =>
          cases h
          have := encodeLoop_raise _ he
          simp only [List.mem_cons, List.not_mem_nil, or_false] at this ⊢
          tauto
        · cases h

theorem packBits_raise {b : Block} {code : ErrCode} {r0 r1 : Word} (h : packBits b = .error (.raise code r0 r1)) :
    code = .capacity := by
  simp only [packBits] at h
  split at h
  · cases h; rfl
  · split at h
    · next e he => cases h; exact absurd he readCells_ne_raise
    · cases h

theorem unpackBytes_raise {b : Block} {code : ErrCode} {r0 r1 : Word}
    (h : unpackBytes b = .error (.raise code r0 r1)) : code = .capacity := by
  simp only [unpackBytes] at h
  split at h
  · cases h; rfl
  · split at h
    · next e he => cases h; exact absurd he readCells_ne_raise
    · split at h
      · cases h; rfl
      · cases h

/-- In a sound tree the walk stands on an internal node whose children are used, so DECODE raises no CORRUPT_TREE_WALK
(45_decoder R200). -/
theorem decodeLoop_raise {b : Block} (hnum : TreeNumbering b) (hstruct : TreeStructure b) {cnt : Nat}
    {code : ErrCode} {r0 r1 : Word} (left : Nat) :
    ∀ {cur : BitVec 8} {i : Nat} {out : List Sym}, (atNode b.node cur).used = true →
      (atNode b.node cur).leaf = false → decodeLoop b cnt cur i out left = .error (.raise code r0 r1) →
      code = .truncatedStream := by
  induction left with
  | zero =>
    intro cur i out _ _ h
    simp only [decodeLoop] at h
    split at h
    · cases h; rfl
    · cases h
  | succ left ih =>
    intro cur i out hused hleaf h
    simp only [decodeLoop] at h
    split at h
    · split at h
      · next e he =>
        cases h
        cases ((readCell_error _ _ _ _).mp he).2
      · next bit hbit =>
        have hchild := childOf_used hnum hstruct hused hleaf bit
        rw [if_neg (by simp [hleaf]), if_neg (by simp [hchild])] at h
        split at h
        · obtain ⟨hrused, hrleaf⟩ := root_internal_of_treeNumbering hnum
          exact ih hrused hrleaf h
        · next hl => exact ih hchild (by simpa using hl) h
    · cases h

theorem decodeBits_raise {b : Block} {code : ErrCode} {r0 r1 : Word} (htree : TreeInv b)
    (h : decodeBits b = .error (.raise code r0 r1)) : code ∈ [ErrCode.emptyTree, .capacity, .truncatedStream] := by
  simp only [decodeBits] at h
  split at h
  · cases h; simp
  · next hvalid =>
    split at h
    · cases h; simp
    · split at h
      · cases h; simp
      · split at h
        · next e he =>
          cases h
          obtain ⟨hnum, hstruct, -⟩ := (treeInv_iff_of_treeValid (by simpa using hvalid)).mp htree
          obtain ⟨hrused, hrleaf⟩ := root_internal_of_treeNumbering hnum
          simp [decodeLoop_raise hnum hstruct _ hrused hrleaf he]
        · cases h

theorem errorInv_of_mem {b : Block} {codes : List ErrCode} (h : b.error ∈ codes)
    (hcodes : .invalidBitChar ∉ codes ∧ .corruptTreeWalk ∉ codes ∧ .fileIo ∉ codes) : ErrorInv b := by
  obtain ⟨hbit, hwalk, hfile⟩ := hcodes
  exact ⟨fun he => hbit (he ▸ h), fun he => hwalk (he ▸ h), fun he => hfile (he ▸ h)⟩

/-- On a sound tree no command raises INVALID_BIT_CHAR, CORRUPT_TREE_WALK or FILE_IO (60_exceptions R220). -/
theorem errorInv_complete_of_raise {i : Instr} {b : Block} {code : ErrCode} {r0 r1 : Word} (htree : TreeInv b)
    (h : commandResult i b = .error (.raise code r0 r1)) (b' : Block) : ErrorInv (complete b' code r0 r1) := by
  cases i with
  | nop => cases h
  | clear => cases h
  | freqScan => exact errorInv_of_mem (freqScan_raise h) (by decide)
  | freqLoad sym => exact errorInv_of_mem (freqLoad_raise h) (by decide)
  | build => exact errorInv_of_mem (buildTree_raise h) (by decide)
  | genCodes => exact errorInv_of_mem (List.mem_singleton.mpr (genCodes_raise htree h)) (by decide)
  | encode => exact errorInv_of_mem (encodeSyms_raise h) (by decide)
  | pack => exact errorInv_of_mem (List.mem_singleton.mpr (packBits_raise h)) (by decide)
  | unpack => exact errorInv_of_mem (List.mem_singleton.mpr (unpackBytes_raise h)) (by decide)
  | decode => exact errorInv_of_mem (decodeBits_raise htree h) (by decide)

/-- A report of success meets the invariant of the error code. -/
theorem errorInv_complete_none (b : Block) (r0 r1 : Word) : ErrorInv (complete b .none r0 r1) := by
  simp [ErrorInv]

/-- Every step keeps the error code one of those that can be reported. -/
theorem step_errorInv {s t : State} (htree : TreeInv s.blk) (hs : ErrorInv s.blk) (h : step s = .next t) :
    ErrorInv t.blk := by
  obtain hb | ⟨off, lanes, w, hb⟩ | hb | ⟨i, s', t', hs', hx, hb⟩ | hb := step_blk s t h
  · rwa [hb]
  · obtain ⟨-, -, herror⟩ := busWrite_frame hb
    unfold ErrorInv
    rwa [herror]
  · rw [hb]
    simp [ErrorInv]
  · rw [← hb]
    rw [← hs'] at htree
    obtain ⟨c, -, ht⟩ | ⟨code, r0, r1, he, ht | ht⟩ := exec_blk hx
    · exact ht ▸ errorInv_complete_none _ _ _
    · exact ht ▸ errorInv_complete_of_raise htree he _
    · exact ht ▸ errorInv_complete_of_raise htree he _
  · rw [hb]
    simp [ErrorInv, Block.powerOn]

/-! ## Every invariant -/

/-- A block right after power-on meets every invariant, in any configuration within the limits. -/
theorem blockInv_powerOn {cfg : Params} (hcfg : cfg.wellFormed = true) : BlockInv (Block.powerOn cfg) :=
  ⟨hcfg, (buffersOk_powerOn cfg).memoryInv, (buffersOk_powerOn cfg).outLenInv, tableInv_powerOn cfg,
    treeInv_powerOn cfg, codesInv_powerOn cfg, by simp [ErrorInv, Block.powerOn]⟩

/-- Settles O8: every register and table of the power-on block is zero and every buffer empty. -/
theorem resetMeetsTheInvariants : Obligations.ResetMeetsTheInvariants :=
  ⟨blockInv_powerOn (by decide), fun _ => blockInv_powerOn⟩

/-- Settles O48: the buffers' invariants are kept by what each command checks, those of the table, the tree and the
codes by each change of the tables, and that of the error code because the tree is sound. -/
theorem stepKeepsEveryInvariant : Obligations.StepKeepsEveryInvariant := by
  rintro s t ⟨hcfg, hmem, hout, htable, htree, hcodes, herror⟩ h
  obtain ⟨hcfg', hmem', hout'⟩ := BuffersOk.step hcfg ⟨rfl, hmem, hout⟩ h
  obtain ⟨b', hchange, htables⟩ := step_tables h
  refine ⟨hcfg' ▸ hcfg, hmem', hout', ?_, ?_, ?_, step_errorInv htree herror h⟩
  · rw [← tableInv_tables, htables, tableInv_tables]
    exact hchange.tableInv htable
  · rw [← treeInv_tables, htables, treeInv_tables]
    exact hchange.treeInv htable htree
  · rw [← codesInv_tables, htables, codesInv_tables]
    exact hchange.codesInv htree hcodes

end Sys2Proof.Machine
end

section
/-! The control registers at the port (10_state R20 to R36, 20_memory R73). -/

namespace Sys2Proof.Machine

/-- A register's offset names it. -/
theorem decodeOffset_regOffset (p : Params) (r : Reg) : decodeOffset p (BitVec.ofNat 20 r.offset) = some (.reg r) := by
  cases r <;> rfl

/-- With BUSY = 0 a read at a register's offset shows the register. -/
theorem busRead_reg {b : Block} (hb : busy b = false) (r : Reg) (d : Word) :
    busRead b (BitVec.ofNat 20 r.offset) allLanes d = .okay (readReg b r) := by
  rw [busRead_okay]
  exact ⟨.reg r, by rw [accessTarget, if_pos rfl, decodeOffset_regOffset], by simp [hb, readTarget]⟩

/-- The six fields of a STATUS word at their bits, and 0 above (10_state R23). -/
theorem getLsbD_statusBits (busy err overrun anomaly treeValid codesValid : Bool) (j : Nat) :
    (statusBits busy err overrun anomaly treeValid codesValid).getLsbD j =
      [busy, err, overrun, anomaly, treeValid, codesValid].getD j false := by
  change ((((((0#26).concat codesValid).concat treeValid).concat anomaly).concat overrun).concat err
    |>.concat busy).getLsbD j = _
  simp only [BitVec.getLsbD_concat]
  rcases j with _ | _ | _ | _ | _ | _ | j <;> simp

/-- STATUS.ERR is 1 exactly when a code other than 0 is reported (10_state R23). -/
theorem errFlag_eq (b : Block) : errFlag b = decide (b.error ≠ .none) := by
  unfold errFlag
  cases b.error <;> rfl

/-- Settles O49: STATUS by its fields, ERROR by its table, and each register by its offset. -/
theorem statusShowsTheFlags : Obligations.StatusShowsTheFlags := by
  intro b
  have hbit : ∀ j, (readReg b .status).getLsbD j = [busy b, errFlag b, b.overrun, b.anomaly, b.treeValid,
      b.codesValid].getD j false := getLsbD_statusBits _ _ _ _ _ _
  refine ⟨hbit 0, (hbit 1).trans (errFlag_eq b), hbit 2, hbit 3, hbit 4, hbit 5, fun j hj => ?_, ?_, fun hb d => ?_⟩
  · rw [hbit]
    exact List.getD_eq_default _ _ hj
  · show b.error.code.setWidth 32 = _
    cases b.error <;> rfl
  · have hread := fun r => busRead_reg hb r d
    have hmode : readReg b .param2 = match b.cfg.weightMode with | .countExact => 0 | .binary64 => 1 := by
      show weightModeBit b.cfg.weightMode = _
      cases b.cfg.weightMode <;> rfl
    have hsynth : readReg b .synth = match b.synth with | none => 0 | some x => 0x100 ||| x.setWidth 32 := by
      show synthWord b.synth = _
      cases b.synth <;> rfl
    exact ⟨hread .id, hread .param0, hread .param1, (hread .param2).trans (congrArg _ hmode), hread .status,
      hread .error, hread .cmd, hread .arg, hread .result0, hread .result1, hread .inLen, hread .outLen, hread .bitLen,
      hread .pkLen, hread .total, hread .ndist, hread .nleaf, hread .root, (hread .synth).trans (congrArg _ hsynth)⟩

end Sys2Proof.Machine
end

section
/-! The buffers at every step, and the faults of a command (20_memory R77, R79; 40_control R117): a read of the input
stops at an unwritten cell of its range, and the walk of GEN_CODES ends on a sound tree. -/

namespace Sys2Proof.Machine

open Sys2Proof.Safety

/-- Settles O45: what each command checks before it commits keeps the buffers within their storage. -/
theorem stepKeepsBuffersCanonical : Obligations.StepKeepsBuffersCanonical := by
  intro s t hcfg hmem hout h
  obtain ⟨hcfg', hmem', hout'⟩ := BuffersOk.step hcfg ⟨rfl, hmem, hout⟩ h
  exact ⟨hcfg', hmem', hout'⟩

/-! ## Reads that meet an unwritten cell -/

/-- The fault is UNINIT at an unwritten cell of the first `n` of a buffer (20_memory R79). -/
def UninitBelow {α : Type} (buf : Buf) (m : Memory α) (n : Nat) (f : Fault) : Prop :=
  ∃ c, f = .uninit buf c ∧ Memory.get m c = none ∧ c < n

theorem readCell_fault {α : Type} {buf : Buf} {m : Memory α} {i n : Nat} {f : Fault} (hi : i < n)
    (h : readCell buf m i = .error (.fault f)) : UninitBelow buf m n f := by
  obtain ⟨hnone, he⟩ := (readCell_error _ _ _ _).mp h
  cases he
  exact ⟨i, rfl, hnone, hi⟩

theorem readSym_fault {m : Memory Byte} {i n : Nat} {f : Fault} (hi : i < n)
    (h : readSym m i = .error (.fault f)) : UninitBelow .inbuf m n f := by
  obtain ⟨hnone, he⟩ | ⟨v, -, -, he⟩ := (readSym_error _ _ _).mp h
  · cases he
    exact ⟨i, rfl, hnone, hi⟩
  · cases he

theorem readSyms_fault {m : Memory Byte} {n : Nat} {f : Fault} (h : readSyms m n = .error (.fault f)) :
    UninitBelow .inbuf m n f := by
  obtain ⟨j, hj, he, -⟩ := (readFrom_error _ _ _ _).mp h
  exact readSym_fault (by omega) he

theorem readCells_fault {α : Type} {buf : Buf} {m : Memory α} {n : Nat} {f : Fault}
    (h : readCells buf m n = .error (.fault f)) : UninitBelow buf m n f := by
  obtain ⟨j, hj, he, -⟩ := (readFrom_error _ _ _ _).mp h
  exact readCell_fault (by omega) he

theorem encodeLoop_fault {b : Block} {f : Fault} (n : Nat) : ∀ {i : Nat} {out : List Bool},
    encodeLoop b i out n = .error (.fault f) → UninitBelow .inbuf b.inbuf (i + n) f := by
  induction n with
  | zero => intro i out h; cases h
  | succ n ih =>
    intro i out h
    simp only [encodeLoop] at h
    split at h
    · next e he =>
      cases h
      exact readSym_fault (by omega) he
    · split at h
      · cases h
      · split at h
        · cases h
        · rw [Nat.add_comm n, ← Nat.add_assoc]
          exact ih h

theorem decodeLoop_fault {b : Block} {cnt : Nat} {f : Fault} (left : Nat) :
    ∀ {cur : BitVec 8} {i : Nat} {out : List Sym}, decodeLoop b cnt cur i out left = .error (.fault f) →
      UninitBelow .bitbuf b.bitbuf (i + left) f := by
  induction left with
  | zero =>
    intro cur i out h
    simp only [decodeLoop] at h
    split at h <;> cases h
  | succ left ih =>
    intro cur i out h
    simp only [decodeLoop] at h
    split at h
    · split at h
      · next e he =>
        cases h
        exact readCell_fault (by omega) he
      · rw [Nat.add_comm left, ← Nat.add_assoc]
        split at h
        · cases h
        · split at h
          · cases h
          · split at h
            · exact ih h
            · exact ih h
    · cases h

/-! ## The walk of GEN_CODES ends -/

/-- A bound on the pops the walk still makes: the children of node `v` have smaller indexes, so it has fewer than
`2 ^ (v + 1)` descendants, itself among them. -/
def popBound (stack : List (BitVec 8 × List Bool)) : Nat := (stack.map fun e => 2 ^ (e.1.toNat + 1) - 1).sum

theorem popBound_cons (v : BitVec 8) (path : List Bool) (stack : List (BitVec 8 × List Bool)) :
    popBound ((v, path) :: stack) = 2 ^ (v.toNat + 1) - 1 + popBound stack := by simp [popBound]

/-- Two smaller children make fewer pops than their parent. -/
theorem two_pow_children_lt {l r v : Nat} (hl : l < v) (hr : r < v) :
    2 ^ (l + 1) - 1 + (2 ^ (r + 1) - 1) < 2 ^ (v + 1) - 1 := by
  have h2l := Nat.pow_le_pow_right (n := 2) (by omega) (show l + 1 ≤ v by omega)
  have h2r := Nat.pow_le_pow_right (n := 2) (by omega) (show r + 1 ≤ v by omega)
  have hpos := Nat.two_pow_pos (l + 1)
  rw [Nat.pow_succ 2 v]
  omega

/-- With as much fuel as the bound the walk from used nodes ends. -/
theorem codeWalk_isSome {b : Block} (hnum : TreeNumbering b) (hstruct : TreeStructure b) (fuel : Nat) :
    ∀ {stack : List (BitVec 8 × List Bool)} {acc : CodeAcc}, (∀ e ∈ stack, (atNode b.node e.1).used = true) →
      popBound stack ≤ fuel → (codeWalk b.node fuel stack acc).isSome = true := by
  induction fuel with
  | zero =>
    intro stack acc _ hle
    match stack with
    | [] => rfl
    | (v, path) :: stack =>
      rw [popBound_cons, Nat.pow_succ] at hle
      have := Nat.two_pow_pos v.toNat
      omega
  | succ fuel ih =>
    intro stack acc hused hle
    match stack with
    | [] => rfl
    | (v, path) :: stack =>
      have hv : (atNode b.node v).used = true := hused (v, path) List.mem_cons_self
      have hrest : ∀ e ∈ stack, (atNode b.node e.1).used = true := fun e he => hused e (List.mem_cons_of_mem _ he)
      rw [popBound_cons] at hle
      cases hleaf : (atNode b.node v).leaf with
      | true =>
        rw [codeWalk_leaf _ _ _ _ _ _ hleaf]
        refine ih hrest ?_
        have := Nat.two_pow_pos v.toNat
        rw [Nat.pow_succ] at hle
        omega
      | false =>
        rw [codeWalk_internal _ _ _ _ _ _ hleaf]
        have hchild := childOf_used hnum hstruct hv hleaf
        refine ih (fun e he => ?_) ?_
        · obtain rfl | rfl | he : e = ((atNode b.node v).left, path ++ [false]) ∨
              e = ((atNode b.node v).right, path ++ [true]) ∨ e ∈ stack := by simpa using he
          · exact hchild false
          · exact hchild true
          · exact hrest e he
        · have hlt := two_pow_children_lt (childOf_lt hstruct hv hleaf false) (childOf_lt hstruct hv hleaf true)
          simp only [childOf, Bool.false_eq_true, if_false, if_true] at hlt
          rw [popBound_cons, popBound_cons]
          omega

/-- On a sound tree GEN_CODES never hangs (40_control R117). -/
theorem genCodes_ne_fault {b : Block} (htree : TreeInv b) (f : Fault) : genCodes b ≠ .error (.fault f) := by
  intro h
  unfold genCodes at h
  split at h
  · cases h
  · next hvalid =>
    obtain ⟨hnum, hstruct, -⟩ := (treeInv_iff_of_treeValid (by simpa using hvalid)).mp htree
    have hwalk : (codeWalk b.node codeWalkFuel [(b.root, [])] CodeAcc.start).isSome = true := by
      refine codeWalk_isSome hnum hstruct _ (by simpa using (root_internal_of_treeNumbering hnum).1) ?_
      have hle : 2 ^ (b.root.toNat + 1) ≤ codeWalkFuel :=
        Nat.pow_le_pow_right (by omega) (Nat.succ_le_of_lt b.root.isLt)
      rw [popBound_cons]
      exact (Nat.sub_le _ _).trans hle
    generalize codeWalk b.node codeWalkFuel [(b.root, [])] CodeAcc.start = result at h hwalk
    split at h
    · cases h
    · cases result with
      | none => cases hwalk
      | some acc => cases h

/-! ## The fault of each command -/

/-- A command's fault is the one its pseudocode stops with. -/
theorem commandResult_of_exec_fault {i : Instr} {s : State} {f : Fault} (h : exec i s = .fault f) :
    commandResult i s.blk = .error (.fault f) := by
  by_cases hi : i = .decode
  · subst hi
    rwa [exec_decode_eq, finishDecode_fault] at h
  · rwa [exec_eq_finish hi, finish_fault] at h

theorem freqScan_fault {b : Block} {f : Fault} (h : freqScan b = .error (.fault f)) :
    UninitBelow .inbuf b.inbuf b.inLen.toNat f := by
  simp only [freqScan] at h
  split at h
  · cases h
  · split at h
    · cases h
    · split at h
      · next e he => cases h; exact readSyms_fault he
      · cases h

theorem freqLoad_ne_fault (sym : Sym) (b : Block) (f : Fault) : freqLoad sym b ≠ .error (.fault f) := by
  unfold freqLoad
  split_ifs <;> exact nofun

theorem buildTree_ne_fault (b : Block) (f : Fault) : buildTree b ≠ .error (.fault f) := by
  simp only [buildTree]
  split_ifs <;> exact nofun

theorem encodeSyms_fault {b : Block} {f : Fault} (h : encodeSyms b = .error (.fault f)) :
    UninitBelow .inbuf b.inbuf b.inLen.toNat f := by
  simp only [encodeSyms] at h
  split at h
  · cases h
  · split at h
    · cases h
    · split at h
      · cases h
      · split at h
        · next e he => cases h; exact Nat.zero_add b.inLen.toNat ▸ encodeLoop_fault _ he
        · cases h

theorem packBits_fault {b : Block} {f : Fault} (h : packBits b = .error (.fault f)) :
    UninitBelow .bitbuf b.bitbuf b.bitLen.toNat f := by
  simp only [packBits] at h
  split at h
  · cases h
  · split at h
    · next e he => cases h; exact readCells_fault he
    · cases h

theorem unpackBytes_fault {b : Block} {f : Fault} (h : unpackBytes b = .error (.fault f)) :
    UninitBelow .pkbuf b.pkbuf b.pkLen.toNat f := by
  simp only [unpackBytes] at h
  split at h
  · cases h
  · split at h
    · next e he => cases h; exact readCells_fault he
    · split at h <;> cases h

theorem decodeBits_fault {b : Block} {f : Fault} (h : decodeBits b = .error (.fault f)) :
    UninitBelow .bitbuf b.bitbuf b.bitLen.toNat f := by
  simp only [decodeBits] at h
  split at h
  · cases h
  · split at h
    · cases h
    · split at h
      · cases h
      · split at h
        · next e he => cases h; exact Nat.zero_add b.bitLen.toNat ▸ decodeLoop_fault _ he
        · cases h

/-- Settles O43: five commands read a buffer and stop at the first unwritten cell they need; the others, GEN_CODES on a
sound tree among them, complete. -/
theorem faultsNameAnUnwrittenCell : Obligations.FaultsNameAnUnwrittenCell := by
  intro i s f _ htree h
  have hres := commandResult_of_exec_fault h
  cases i with
  | nop => cases hres
  | clear => cases hres
  | freqScan =>
    obtain ⟨c, hf, hnone, hc⟩ := freqScan_fault hres
    exact .inl ⟨c, hf, hnone, hc, .inl rfl⟩
  | freqLoad sym => exact absurd hres (freqLoad_ne_fault _ _ _)
  | build => exact absurd hres (buildTree_ne_fault _ _)
  | genCodes => exact absurd hres (genCodes_ne_fault htree _)
  | encode =>
    obtain ⟨c, hf, hnone, hc⟩ := encodeSyms_fault hres
    exact .inl ⟨c, hf, hnone, hc, .inr rfl⟩
  | pack =>
    obtain ⟨c, hf, hnone, hc⟩ := packBits_fault hres
    exact .inr (.inl ⟨c, hf, hnone, hc, .inl rfl⟩)
  | unpack =>
    obtain ⟨c, hf, hnone, hc⟩ := unpackBytes_fault hres
    exact .inr (.inr ⟨c, hf, hnone, hc, rfl⟩)
  | decode =>
    obtain ⟨c, hf, hnone, hc⟩ := decodeBits_fault hres
    exact .inr (.inl ⟨c, hf, hnone, hc, .inr rfl⟩)

end Sys2Proof.Machine
end

section
/-! The address map as a correspondence of offsets and locations (20_memory R72 to R77), and what one access at a
location's offset does. -/

namespace Sys2Proof.Machine

open Sys2Proof.Safety

/-! ## Locations and their offsets -/

/-- The byte offset of a location (20_memory R72 to R77). -/
def Target.offset : Target → Nat
  | .reg r => r.offset
  | .countw s => 0x01000 + 4 * s.toNat
  | .orderw i => 0x01200 + 4 * i.toNat
  | .nodew k w => 0x02000 + 16 * k.toNat + 4 * w.toNat
  | .codew s w => 0x03000 + 32 * s.toNat + 4 * w.toNat
  | .inbuf n => 0x10000 + 4 * n
  | .outbuf n => 0x20000 + 4 * n
  | .bitbuf n => 0x40000 + 4 * n
  | .pkbuf n => 0x80000 + 4 * n

/-- A buffer word is one of its buffer's storage and of its window; every other location is in the map. -/
def Target.InMap (p : Params) : Target → Prop
  | .inbuf n => n < ceilDiv p.maxSyms 4 ∧ n < 0x4000
  | .outbuf n => n < ceilDiv p.maxSyms 4 ∧ n < 0x4000
  | .bitbuf n => n < p.maxBits / 32 ∧ n < 0x10000
  | .pkbuf n => n < maxPk p / 4 ∧ n < 0x10000
  | _ => True

theorem Reg.offset_le (r : Reg) : r.offset ≤ 0x048 := by cases r <;> decide

theorem Reg.offset_mod (r : Reg) : r.offset % 4 = 0 := by cases r <;> rfl

/-- The 19 registers stand at 0x000, 0x004, ..., 0x048 (20_memory R73). -/
theorem Reg.exists_offset {a : Nat} (hmod : a % 4 = 0) (hle : a ≤ 0x048) : ∃ r : Reg, a = r.offset := by
  have hall : ∀ k : Fin 19, Reg.all[k].offset = 4 * k.val := by decide
  have hk : a / 4 < 19 := by omega
  have hoffset : Reg.all[a / 4].offset = 4 * (a / 4) := hall ⟨a / 4, hk⟩
  exact ⟨Reg.all[a / 4], by omega⟩

theorem Reg.offset_of_ofOffset {a : Nat} {r : Reg} (h : Reg.ofOffset a = some r) : a = r.offset :=
  (beq_iff_eq.mp (List.find?_some (p := fun r : Reg => r.offset == a) h)).symm

theorem Target.offset_lt {p : Params} {t : Target} (ht : t.InMap p) : t.offset < 2 ^ 20 := by
  cases t with
  | reg r => have := r.offset_le; simp only [offset]; omega
  | countw s => have := s.isLt; simp only [offset]; omega
  | orderw i => have := i.isLt; simp only [offset]; omega
  | nodew k w => have := k.isLt; have := w.isLt; simp only [offset]; omega
  | codew s w => have := s.isLt; have := w.isLt; simp only [offset]; omega
  | _ => simp only [offset, InMap] at *; omega

/-- An accepted offset is its location's. -/
theorem decodeOffset_offset_eq {p : Params} {off : Offset} {t : Target} (h : decodeOffset p off = some t) :
    off.toNat = t.offset ∧ t.InMap p := by
  unfold decodeOffset at h
  obtain ⟨-, h⟩ | ⟨hmod, h⟩ := ite_eq_iff.mp h
  · cases h
  obtain ⟨-, h⟩ | ⟨hreg, h⟩ := ite_eq_iff.mp h
  · obtain ⟨r, hr, rfl⟩ := Option.map_eq_some_iff.mp h
    exact ⟨Reg.offset_of_ofOffset hr, trivial⟩
  obtain ⟨hlt, h⟩ | ⟨hcount, h⟩ := ite_eq_iff.mp h
  · cases h; exact ⟨by simp only [Target.offset, BitVec.toNat_ofNat]; omega, trivial⟩
  obtain ⟨hlt, h⟩ | ⟨horder, h⟩ := ite_eq_iff.mp h
  · cases h; exact ⟨by simp only [Target.offset, BitVec.toNat_ofNat]; omega, trivial⟩
  obtain ⟨-, h⟩ | ⟨hgap, h⟩ := ite_eq_iff.mp h
  · cases h
  obtain ⟨hlt, h⟩ | ⟨hnode, h⟩ := ite_eq_iff.mp h
  · cases h; exact ⟨by simp only [Target.offset, BitVec.toNat_ofNat]; omega, trivial⟩
  obtain ⟨hlt, h⟩ | ⟨hcode, h⟩ := ite_eq_iff.mp h
  · cases h; exact ⟨by simp only [Target.offset, BitVec.toNat_ofNat]; omega, trivial⟩
  obtain ⟨-, h⟩ | ⟨hgap, h⟩ := ite_eq_iff.mp h
  · cases h
  obtain ⟨hlt, h⟩ | ⟨hin, h⟩ := ite_eq_iff.mp h
  · obtain ⟨hn, rfl⟩ := (windowWord_some _ _ _ _).mp h
    simp only [Target.offset, Target.InMap]; omega
  obtain ⟨hlt, h⟩ | ⟨hout, h⟩ := ite_eq_iff.mp h
  · obtain ⟨hn, rfl⟩ := (windowWord_some _ _ _ _).mp h
    simp only [Target.offset, Target.InMap]; omega
  obtain ⟨-, h⟩ | ⟨hgap, h⟩ := ite_eq_iff.mp h
  · cases h
  obtain ⟨hlt, h⟩ | ⟨hbit, h⟩ := ite_eq_iff.mp h
  · obtain ⟨hn, rfl⟩ := (windowWord_some _ _ _ _).mp h
    simp only [Target.offset, Target.InMap]; omega
  obtain ⟨hlt, h⟩ | ⟨-, h⟩ := ite_eq_iff.mp h
  · obtain ⟨hn, rfl⟩ := (windowWord_some _ _ _ _).mp h
    simp only [Target.offset, Target.InMap]; omega
  · cases h

theorem ofNat_eq_of_mod {w n : Nat} {x : BitVec w} (h : n % 2 ^ w = x.toNat) : BitVec.ofNat w n = x :=
  BitVec.eq_of_toNat_eq (by rw [BitVec.toNat_ofNat, h])

/-- The map accepts every location's offset, as that location. -/
theorem decodeOffset_of_offset_eq {p : Params} {off : Offset} {t : Target} (ht : t.InMap p)
    (h : off.toNat = t.offset) : decodeOffset p off = some t := by
  cases t with
  | reg r =>
    rw [show off = BitVec.ofNat 20 r.offset from BitVec.eq_of_toNat_eq (h.trans (Nat.mod_eq_of_lt
      (Target.offset_lt (t := .reg r) ht)).symm)]
    exact decodeOffset_regOffset p r
  | countw s =>
    have := s.isLt
    simp only [Target.offset] at h
    simp (disch := omega) only [decodeOffset, if_neg, if_pos]
    rw [ofNat_eq_of_mod (x := s) (by omega)]
  | orderw i =>
    have := i.isLt
    simp only [Target.offset] at h
    simp (disch := omega) only [decodeOffset, if_neg, if_pos]
    rw [ofNat_eq_of_mod (x := i) (by omega)]
  | nodew k w =>
    have := k.isLt
    have := w.isLt
    simp only [Target.offset] at h
    simp (disch := omega) only [decodeOffset, if_neg, if_pos]
    rw [ofNat_eq_of_mod (x := k) (by omega), ofNat_eq_of_mod (x := w) (by omega)]
  | codew s w =>
    have := s.isLt
    have := w.isLt
    simp only [Target.offset] at h
    simp (disch := omega) only [decodeOffset, if_neg, if_pos]
    rw [ofNat_eq_of_mod (x := s) (by omega), ofNat_eq_of_mod (x := w) (by omega)]
  | _ =>
    simp only [Target.offset, Target.InMap] at h ht
    simp (disch := omega) only [decodeOffset, if_neg, if_pos]
    exact (windowWord_some _ _ _ _).mpr ⟨by omega, by congr; omega⟩

/-- The map is a correspondence of offsets and locations. -/
theorem decodeOffset_some_iff {p : Params} {off : Offset} {t : Target} :
    decodeOffset p off = some t ↔ off.toNat = t.offset ∧ t.InMap p :=
  ⟨decodeOffset_offset_eq, fun h => decodeOffset_of_offset_eq h.2 h.1⟩

/-! ## Accesses at a location's offset -/

theorem accessTarget_some_iff {b : Block} {off : Offset} {lanes : BitVec 4} {t : Target} :
    accessTarget b off lanes = some t ↔ lanes = allLanes ∧ off.toNat = t.offset ∧ t.InMap b.cfg := by
  unfold accessTarget
  split <;> simp [*, decodeOffset_some_iff]

theorem accessTarget_offset {b : Block} {t : Target} (ht : t.InMap b.cfg) :
    accessTarget b (BitVec.ofNat 20 t.offset) allLanes = some t :=
  accessTarget_some_iff.mpr ⟨rfl, Nat.mod_eq_of_lt (Target.offset_lt ht), ht⟩

/-- With BUSY = 0 a read at a location's offset shows the location. -/
theorem busRead_offset {b : Block} (hb : busy b = false) {t : Target} (ht : t.InMap b.cfg) (d : Word) :
    busRead b (BitVec.ofNat 20 t.offset) allLanes d = .okay (readTarget b d t) :=
  (busRead_okay _ _ _ _ _).mpr ⟨t, accessTarget_offset ht, by simp [hb]⟩

/-- With BUSY = 0 a write at a writable location's offset writes the location. -/
theorem busWrite_offset {b b' : Block} (hb : busy b = false) {t : Target} (ht : t.InMap b.cfg) {v : Word}
    (hw : writeTarget b v t = some b') : busWrite b (BitVec.ofNat 20 t.offset) allLanes v = .okay b' :=
  (busWrite_okay _ _ _ _ _).mpr ⟨t, b', accessTarget_offset ht, hw, by simp [hb]⟩

/-! ## The map of a configuration within the limits

The capacities of 00_scope R8 and R9 fit the windows, and whole words. -/

section
variable {p : Params} (hcfg : p.wellFormed = true)
include hcfg

theorem inMap_inbuf {n : Nat} (h : 4 * n + 3 < symCells p) : (Target.inbuf n).InMap p := by
  obtain ⟨-, hsyms, -⟩ := (Params.wellFormed_iff p).mp hcfg
  unfold symCells ceilDiv at h
  unfold Target.InMap ceilDiv
  omega

theorem inMap_outbuf {n : Nat} (h : 4 * n + 3 < symCells p) : (Target.outbuf n).InMap p := inMap_inbuf hcfg h

theorem inMap_bitbuf {n : Nat} (h : 32 * n + 31 < p.maxBits) : (Target.bitbuf n).InMap p := by
  obtain ⟨-, -, -, -, hbits⟩ := (Params.wellFormed_iff p).mp hcfg
  unfold Target.InMap
  omega

theorem inMap_pkbuf {n : Nat} (h : 4 * n + 3 < maxPk p) : (Target.pkbuf n).InMap p := by
  obtain ⟨-, -, -, -, hbits⟩ := (Params.wellFormed_iff p).mp hcfg
  unfold maxPk at h
  unfold Target.InMap maxPk
  omega

/-- The offset of a location is readable. -/
theorem readable_of_inMap {off : Offset} {t : Target} (hoff : off.toNat = t.offset) (ht : t.InMap p) :
    readable p off = true := by
  obtain ⟨-, -, hword, -⟩ := (Params.wellFormed_iff p).mp hcfg
  simp only [readable, Bool.and_eq_true, Bool.or_eq_true, decide_eq_true_eq, hoff]
  cases t with
  | reg r => have := r.offset_le; have := r.offset_mod; simp only [Target.offset]; omega
  | countw s => have := s.isLt; simp only [Target.offset]; omega
  | orderw i => have := i.isLt; simp only [Target.offset]; omega
  | nodew k w => have := k.isLt; have := w.isLt; simp only [Target.offset]; omega
  | codew s w => have := s.isLt; have := w.isLt; simp only [Target.offset]; omega
  | _ => simp only [Target.InMap, Target.offset, symCells, maxPk] at *; omega

/-- A readable offset is a location's. -/
theorem exists_inMap_of_readable {off : Offset} (h : readable p off = true) :
    ∃ t : Target, off.toNat = t.offset ∧ t.InMap p := by
  obtain ⟨-, -, hword, -⟩ := (Params.wellFormed_iff p).mp hcfg
  simp only [readable, Bool.and_eq_true, Bool.or_eq_true, decide_eq_true_eq] at h
  obtain ⟨hmod, (((((hreg | ⟨hge, hlt⟩) | ⟨hge, hlt⟩) | ⟨hge, hlt⟩) | ⟨hge, hlt⟩) | ⟨hge, hlt⟩) | ⟨hge, hlt⟩⟩ := h
  · obtain ⟨r, hr⟩ := Reg.exists_offset hmod hreg
    exact ⟨.reg r, hr, trivial⟩
  · by_cases hcount : off.toNat < 0x01200
    · refine ⟨.countw (BitVec.ofNat 7 ((off.toNat - 0x01000) / 4)), ?_, trivial⟩
      simp only [Target.offset, BitVec.toNat_ofNat]; omega
    · refine ⟨.orderw (BitVec.ofNat 7 ((off.toNat - 0x01200) / 4)), ?_, trivial⟩
      simp only [Target.offset, BitVec.toNat_ofNat]; omega
  · by_cases hnode : off.toNat < 0x03000
    · refine ⟨.nodew (BitVec.ofNat 8 ((off.toNat - 0x02000) / 16)) (BitVec.ofNat 2 (off.toNat / 4)), ?_, trivial⟩
      simp only [Target.offset, BitVec.toNat_ofNat]; omega
    · refine ⟨.codew (BitVec.ofNat 7 ((off.toNat - 0x03000) / 32)) (BitVec.ofNat 3 (off.toNat / 4)), ?_, trivial⟩
      simp only [Target.offset, BitVec.toNat_ofNat]; omega
  · refine ⟨.inbuf ((off.toNat - 0x10000) / 4), ?_, inMap_inbuf hcfg ?_⟩
    · simp only [Target.offset]; omega
    · unfold symCells at *; omega
  · refine ⟨.outbuf ((off.toNat - 0x20000) / 4), ?_, inMap_outbuf hcfg ?_⟩
    · simp only [Target.offset]; omega
    · unfold symCells at *; omega
  · refine ⟨.bitbuf ((off.toNat - 0x40000) / 4), ?_, inMap_bitbuf hcfg ?_⟩
    · simp only [Target.offset]; omega
    · omega
  · refine ⟨.pkbuf ((off.toNat - 0x80000) / 4), ?_, inMap_pkbuf hcfg ?_⟩
    · simp only [Target.offset]; omega
    · unfold maxPk at *; omega

/-- The readable offsets are those of the map's locations. -/
theorem readable_iff {off : Offset} : readable p off = true ↔ ∃ t : Target, off.toNat = t.offset ∧ t.InMap p :=
  ⟨exists_inMap_of_readable hcfg, fun ⟨_, hoff, ht⟩ => readable_of_inMap hcfg hoff ht⟩

/-- At a location's offset, writable is what `writeTarget` accepts. -/
theorem writable_iff_of_inMap {off : Offset} {t : Target} (hoff : off.toNat = t.offset) (ht : t.InMap p) (b : Block)
    (v : Word) : writable p off = true ↔ (writeTarget b v t).isSome = true := by
  simp only [writable, readable_of_inMap hcfg hoff ht, hoff, Bool.true_and, Bool.or_eq_true, Bool.and_eq_true,
    decide_eq_true_eq, beq_iff_eq]
  cases t with
  | reg r => cases r <;> simp [Target.offset, Reg.offset, writeTarget]
  | countw s => have := s.isLt; simp [Target.offset, writeTarget]; omega
  | orderw i => have := i.isLt; simp [Target.offset, writeTarget]; omega
  | nodew k w => have := k.isLt; have := w.isLt; simp [Target.offset, writeTarget]; omega
  | codew s w => have := s.isLt; have := w.isLt; simp [Target.offset, writeTarget]; omega
  | inbuf n => obtain ⟨-, hn⟩ := ht; simp [Target.offset, writeTarget]; omega
  | outbuf n => obtain ⟨-, hn⟩ := ht; simp [Target.offset, writeTarget]; omega
  | bitbuf n => simp [Target.offset, writeTarget]
  | pkbuf n => simp [Target.offset, writeTarget]; omega

end

end Sys2Proof.Machine
end

section
/-! Reads and refusals at the port, and the host's statements (20_memory R61 to R64, 30_encoding R97, R98). -/

namespace Sys2Proof.Machine

open Sys2Proof.Safety

/-! ## SLVERR -/

theorem busRead_slverr {b : Block} {off : Offset} {lanes : BitVec 4} {d : Word} :
    busRead b off lanes d = .slverr ↔ ¬ ∃ t, accessTarget b off lanes = some t := by
  unfold busRead
  cases accessTarget b off lanes <;> simp

theorem busWrite_slverr {b : Block} {off : Offset} {lanes : BitVec 4} {v : Word} :
    busWrite b off lanes v = .slverr ↔
      ¬ ∃ t, accessTarget b off lanes = some t ∧ (writeTarget b v t).isSome = true := by
  unfold busWrite
  cases accessTarget b off lanes with
  | none => simp
  | some t => cases h : writeTarget b v t <;> simp [h]

/-- A read is refused exactly outside the readable offsets (20_memory R61 to R63). -/
theorem busRead_slverr_iff {b : Block} (hcfg : b.cfg.wellFormed = true) (off : Offset) (lanes : BitVec 4) (d : Word) :
    busRead b off lanes d = .slverr ↔ ¬ (lanes = 0xF ∧ readable b.cfg off = true) := by
  simp only [busRead_slverr, readable_iff hcfg, accessTarget_some_iff, exists_and_left, allLanes]

/-- A write is refused exactly outside the writable offsets (20_memory R61 to R64). -/
theorem busWrite_slverr_iff {b : Block} (hcfg : b.cfg.wellFormed = true) (off : Offset) (lanes : BitVec 4) (v : Word) :
    busWrite b off lanes v = .slverr ↔ ¬ (lanes = 0xF ∧ writable b.cfg off = true) := by
  rw [busWrite_slverr, not_iff_not]
  constructor
  · rintro ⟨t, hacc, hw⟩
    obtain ⟨hlanes, hoff, ht⟩ := accessTarget_some_iff.mp hacc
    exact ⟨hlanes, (writable_iff_of_inMap hcfg hoff ht b v).mpr hw⟩
  · rintro ⟨hlanes, hw⟩
    obtain ⟨t, hoff, ht⟩ := exists_inMap_of_readable hcfg (Bool.and_eq_true_iff.mp hw).1
    exact ⟨t, accessTarget_some_iff.mpr ⟨hlanes, hoff, ht⟩, (writable_iff_of_inMap hcfg hoff ht b v).mp hw⟩

/-! ## One statement of the host -/

section
variable {s : State} {rest : List HostStmt} {off : Offset} {lanes : BitVec 4} {v : HostVal} {w d : Word}

theorem hostStep_write_okay {b : Block} (hp : s.host.prog = .write off lanes v :: rest)
    (hv : hostValue s.host v = .ok w) (hb : busWrite s.blk off lanes w = .okay b) :
    hostStep s = .next (withProg { s with blk := b } rest) := by
  simp [hostStep, hp, hv, hb]

theorem hostStep_write_busError (hp : s.host.prog = .write off lanes v :: rest) (hv : hostValue s.host v = .ok w) :
    hostStep s = .fault .busError ↔ busWrite s.blk off lanes w = .slverr := by
  cases hb : busWrite s.blk off lanes w <;> simp [hostStep, hp, hv, hb]

theorem hostStep_read_okay {name : Option Nat} (hp : s.host.prog = .read off lanes name :: rest)
    (hd : busRead s.blk off lanes (nextDraw s) = .okay d) :
    hostStep s = .next (withProg (bindName (afterRead s d) d name) rest) := by
  simp [hostStep, hp, hd]

theorem hostStep_read_busError {name : Option Nat} (hp : s.host.prog = .read off lanes name :: rest) :
    hostStep s = .fault .busError ↔ busRead s.blk off lanes (nextDraw s) = .slverr := by
  cases hd : busRead s.blk off lanes (nextDraw s) <;> simp [hostStep, hp, hd]

theorem hostStep_check_okay (hp : s.host.prog = .check off v :: rest) (hv : hostValue s.host v = .ok w)
    (hd : busRead s.blk off allLanes (nextDraw s) = .okay d) :
    hostStep s = .next (withProg (noteCheck (afterRead s d) (d == w)) rest) := by
  simp [hostStep, hp, hv, hd]

theorem hostStep_check_busError (hp : s.host.prog = .check off v :: rest) (hv : hostValue s.host v = .ok w) :
    hostStep s = .fault .busError ↔ busRead s.blk off allLanes (nextDraw s) = .slverr := by
  cases hd : busRead s.blk off allLanes (nextDraw s) <;> simp [hostStep, hp, hv, hd]

/-- STATUS can always be read, and its bit 0 is BUSY also while busy (10_state R20, 40_control R111). -/
theorem exists_busRead_status (b : Block) (draw : Word) :
    ∃ d, busRead b (BitVec.ofNat 20 Reg.status.offset) allLanes draw = .okay d ∧ d.getLsbD 0 = busy b := by
  refine ⟨_, (busRead_okay _ _ _ _ _).mpr ⟨.reg .status, accessTarget_offset (t := .reg .status) trivial, rfl⟩, ?_⟩
  cases hb : busy b with
  | true => exact getLsbD_statusBits _ _ _ _ _ _ 0
  | false => exact (getLsbD_statusBits _ _ _ _ _ _ 0).trans hb

/-- WAIT stays in front while STATUS shows BUSY (30_encoding R98). -/
theorem hostStep_wait (hp : s.host.prog = .wait :: rest)
    (hd : busRead s.blk (BitVec.ofNat 20 Reg.status.offset) allLanes (nextDraw s) = .okay d)
    (hbusy : d.getLsbD 0 = busy s.blk) :
    hostStep s = .next (withProg (afterRead s d) (if busy s.blk then .wait :: rest else rest)) := by
  simp only [hostStep, hp, hd, hbusy]
  split
  · rw [← hp]; rfl
  · rfl

end

/-- A statement that makes a read leaves the block as it was (20_memory R64). -/
theorem hostStep_blk_of_not_write {s t : State} {st : HostStmt} {rest : List HostStmt}
    (hp : s.host.prog = st :: rest) (hst : ∀ off lanes v, st ≠ .write off lanes v) (h : hostStep s = .next t) :
    t.blk = s.blk := by
  obtain ⟨-, rfl⟩ | ⟨off, lanes, v, rest', w, b, hp', -⟩ | ⟨off, lanes, d, -, hblk, -⟩ := hostStep_next s t h
  · rfl
  · rw [hp] at hp'
    cases hp'
    exact absurd rfl (hst off lanes v)
  · exact hblk

/-! ## What a read's free value can change -/

/-- Below the buffer windows no bit of a read is free. -/
theorem readTarget_draw {t : Target} (ht : t.offset < 0x10000) (b : Block) (d d' : Word) :
    readTarget b d t = readTarget b d' t := by
  cases t with
  | inbuf n => simp only [Target.offset] at ht; omega
  | outbuf n => simp only [Target.offset] at ht; omega
  | bitbuf n => simp only [Target.offset] at ht; omega
  | pkbuf n => simp only [Target.offset] at ht; omega
  | _ => rfl

theorem busRead_draw {b : Block} (hb : busy b = false) {off : Offset} (hoff : off.toNat < 0x10000) (d d' : Word) :
    busRead b off allLanes d = busRead b off allLanes d' := by
  unfold busRead
  cases h : accessTarget b off allLanes with
  | none => rfl
  | some t =>
    obtain ⟨-, ht, -⟩ := accessTarget_some_iff.mp h
    simp only [hb, Bool.false_eq_true, if_false]
    rw [readTarget_draw (ht ▸ hoff) b d d']

theorem readByteWord_draw {m : Memory Byte} {n : Nat}
    (h : ∀ j : Nat, j < 4 → ∃ v, Memory.get m (4 * n + j) = some v) (d d' : Word) :
    readByteWord m n d = readByteWord m n d' := by
  have hlane : ∀ t, t < 4 → byteLane m n t d = byteLane m n t d' := by
    intro t ht
    obtain ⟨v, hv⟩ := h t ht
    simp [byteLane, hv]
  simp [readByteWord, hlane]

theorem getMsbD_readBitWord (m : Memory Bool) (n : Nat) (d : Word) {j : Nat} (hj : j < 32) :
    (readBitWord m n d).getMsbD j = (Memory.get m (32 * n + j)).getD (d.getMsbD j) := by
  simp [readBitWord, hj]

theorem readBitWord_draw {m : Memory Bool} {n : Nat}
    (h : ∀ j : Nat, j < 32 → ∃ v, Memory.get m (32 * n + j) = some v) (d d' : Word) :
    readBitWord m n d = readBitWord m n d' := by
  apply BitVec.eq_of_getMsbD_eq
  intro j hj
  obtain ⟨v, hv⟩ := h j hj
  rw [getMsbD_readBitWord _ _ _ hj, getMsbD_readBitWord _ _ _ hj, hv]
  rfl

/-- Settles O50: a read statement's step is the read, and only an unwritten cell shows bits of the free value. -/
theorem readsChangeNoBlockState : Obligations.ReadsChangeNoBlockState := by
  refine ⟨fun s off lanes name rest d hp hd => ?_, fun s rest hp => ?_, fun s off v rest w d hp hv hd => ?_,
    fun s t off lanes name rest hp h => ?_, fun s t rest hp h => ?_, fun s t off v rest hp h => ?_,
    fun b off d d' hb hoff => busRead_draw hb hoff d d', fun b n d d' _ => ?_⟩
  · rw [hostStep_read_okay hp hd]
    cases name <;> rfl
  · obtain ⟨d, hd, hbusy⟩ := exists_busRead_status s.blk (nextDraw s)
    exact ⟨d, hd, hbusy, hostStep_wait hp hd hbusy⟩
  · exact hostStep_check_okay hp hv hd
  · exact hostStep_blk_of_not_write hp (fun _ _ _ => nofun) h
  · exact hostStep_blk_of_not_write hp (fun _ _ _ => nofun) h
  · exact hostStep_blk_of_not_write hp (fun _ _ _ => nofun) h
  · exact ⟨fun h => readByteWord_draw h d d', fun h => readByteWord_draw h d d', fun h => readBitWord_draw h d d',
      fun h => readByteWord_draw h d d'⟩

/-- Settles O51: the accepted offsets are those of the map's locations, and a host step faults exactly when its access
is refused. -/
theorem slverrExactlyOutsideTheMap : Obligations.SlverrExactlyOutsideTheMap := by
  refine ⟨fun b off lanes d hcfg => busRead_slverr_iff hcfg off lanes d,
    fun b off lanes v hcfg => busWrite_slverr_iff hcfg off lanes v, fun s off lanes v w rest hcfg hp hv => ?_,
    fun s off lanes name rest hcfg hp => ?_, fun s off v w rest hcfg hp hv => ?_, fun s rest hp => ?_,
    fun s b' off lanes v w rest hp hv hb => hostStep_write_okay hp hv hb⟩
  · rw [hostStep_write_busError hp hv, busWrite_slverr_iff hcfg]
  · rw [hostStep_read_busError hp, busRead_slverr_iff hcfg]
  · rw [hostStep_check_busError hp hv, busRead_slverr_iff hcfg]
    simp [allLanes]
  · obtain ⟨d, hd, hbusy⟩ := exists_busRead_status s.blk (nextDraw s)
    rw [hostStep_wait hp hd hbusy]
    exact nofun

end Sys2Proof.Machine
end

section
/-! Words of the buffers at the port: byte lanes and bits of a word, and a word written and read back
(20_memory R66 to R69, R77, R78). -/

namespace Sys2Proof.Machine

open Sys2Proof.Safety

/-! ## Lanes and bits of a word -/

/-- Stream bit `j` of a word is bit `31 - j` (20_memory R68). -/
theorem getMsbD_eq_getLsbD_of_lt (v : Word) {j : Nat} (hj : j < 32) : v.getMsbD j = v.getLsbD (31 - j) := by
  rw [BitVec.getMsbD_eq_getLsbD, decide_eq_true hj, Bool.true_and]

/-- A word is its four lanes (20_memory R67). -/
theorem wordOfBytes_laneOf (v : Word) : wordOfBytes (laneOf v 0) (laneOf v 1) (laneOf v 2) (laneOf v 3) = v := by
  unfold wordOfBytes laneOf
  rw [BitVec.extractLsb'_append_extractLsb'_eq_extractLsb' (by rfl),
    BitVec.extractLsb'_append_extractLsb'_eq_extractLsb' (by rfl),
    BitVec.extractLsb'_append_extractLsb'_eq_extractLsb' (by rfl)]
  exact BitVec.extractLsb'_eq_self

/-- Lane `t` of a word read is the lane of the cell it shows (20_memory R67). -/
theorem laneOf_readByteWord (m : Memory Byte) (n : Nat) (d : Word) {t : Nat} (ht : t < 4) :
    laneOf (readByteWord m n d) t = byteLane m n t d := by
  obtain rfl | rfl | rfl | rfl : t = 0 ∨ t = 1 ∨ t = 2 ∨ t = 3 := by omega
  all_goals unfold laneOf readByteWord wordOfBytes
  · exact (BitVec.extractLsb'_append_eq_of_le (by decide)).trans <|
      (BitVec.extractLsb'_append_eq_of_le (by decide)).trans BitVec.extractLsb'_append_eq_left
  · exact (BitVec.extractLsb'_append_eq_of_le (by decide)).trans <|
      (BitVec.extractLsb'_append_eq_of_le (by decide)).trans BitVec.extractLsb'_append_eq_right
  · exact (BitVec.extractLsb'_append_eq_of_le (by decide)).trans BitVec.extractLsb'_append_eq_right
  · exact BitVec.extractLsb'_append_eq_right

/-- Stream bit `j` of a word's storage is a bit of lane `j / 8` (20_memory R69). -/
theorem getLsbD_laneOf (v : Word) (j : Nat) :
    v.getLsbD (31 - j % 32) = (laneOf v (j % 32 / 8)).getLsbD (7 - j % 8) := by
  unfold laneOf
  rw [BitVec.getLsbD_extractLsb', decide_eq_true (by omega), Bool.true_and]
  congr 1
  omega

theorem getLsbD_readByteWord (m : Memory Byte) (d : Word) (j : Nat) :
    (readByteWord m (j / 32) d).getLsbD (31 - j % 32) =
      ((Memory.get m (j / 8)).getD (laneOf d (j % 32 / 8))).getLsbD (7 - j % 8) := by
  rw [getLsbD_laneOf, laneOf_readByteWord _ _ _ (by omega), byteLane, show 4 * (j / 32) + j % 32 / 8 = j / 8 by omega]

theorem getLsbD_readBitWord (m : Memory Bool) (d : Word) (j : Nat) :
    (readBitWord m (j / 32) d).getLsbD (31 - j % 32) = (Memory.get m j).getD (d.getLsbD (31 - j % 32)) := by
  have hj : j % 32 < 32 := Nat.mod_lt _ (by omega)
  rw [← getMsbD_eq_getLsbD_of_lt _ hj, ← getMsbD_eq_getLsbD_of_lt _ hj, getMsbD_readBitWord _ _ _ hj, Nat.div_add_mod]

/-! ## A word written -/

theorem get_writeByteWord (m : Memory Byte) (n : Nat) (v : Word) {t : Nat} (ht : t < 4) :
    Memory.get (writeByteWord m n v) (4 * n + t) = some (laneOf v t) := by
  rw [writeByteWord, Memory.get_setRange, if_pos (by simpa using ht), Nat.add_sub_cancel_left]
  obtain rfl | rfl | rfl | rfl : t = 0 ∨ t = 1 ∨ t = 2 ∨ t = 3 := by omega
  all_goals rfl

theorem get_writeByteWord_other (m : Memory Byte) (n : Nat) (v : Word) {j : Nat} (hj : j < 4 * n ∨ 4 * n + 4 ≤ j) :
    Memory.get (writeByteWord m n v) j = Memory.get m j := by
  rw [writeByteWord, Memory.get_setRange, if_neg (by simp only [List.length_cons, List.length_nil]; omega)]

theorem get_writeBitWord (m : Memory Bool) (n : Nat) (v : Word) {j : Nat} (hj : j < 32) :
    Memory.get (writeBitWord m n v) (32 * n + j) = some (v.getLsbD (31 - j)) := by
  rw [writeBitWord, Memory.get_setRange, if_pos (by simpa using hj), Nat.add_sub_cancel_left, getElem?_bitsOf _ _ hj,
    getMsbD_eq_getLsbD_of_lt v hj]

theorem get_writeBitWord_other (m : Memory Bool) (n : Nat) (v : Word) {j : Nat}
    (hj : j < 32 * n ∨ 32 * n + 32 ≤ j) : Memory.get (writeBitWord m n v) j = Memory.get m j := by
  rw [writeBitWord, Memory.get_setRange, if_neg (by rw [length_bitsOf]; omega)]

/-- A word written to a byte buffer reads back, whatever the free value of the read. -/
theorem readByteWord_writeByteWord (m : Memory Byte) (n : Nat) (v d : Word) :
    readByteWord (writeByteWord m n v) n d = v := by
  have hlane : ∀ t, t < 4 → byteLane (writeByteWord m n v) n t d = laneOf v t := by
    intro t ht
    rw [byteLane, get_writeByteWord _ _ _ ht, Option.getD_some]
  simp [readByteWord, hlane, wordOfBytes_laneOf]

theorem readBitWord_writeBitWord (m : Memory Bool) (n : Nat) (v d : Word) :
    readBitWord (writeBitWord m n v) n d = v := by
  apply BitVec.eq_of_getMsbD_eq
  intro j hj
  rw [getMsbD_readBitWord _ _ _ hj, get_writeBitWord _ _ _ hj, Option.getD_some, getMsbD_eq_getLsbD_of_lt v hj]

theorem writeTarget_bitbuf (b : Block) (v : Word) (n : Nat) :
    writeTarget b v (.bitbuf n) = some { b with bitbuf := writeBitWord b.bitbuf n v } := rfl

/-- A write at a location's offset that shows at the location, and starts no command, reads back at the port. -/
theorem busWrite_busRead {b b' : Block} (hb : busy b = false) {t : Target} (ht : t.InMap b.cfg) {v d : Word}
    (hw : writeTarget b v t = some b') (hcfg : b'.cfg = b.cfg) (hpending : b'.pending = b.pending)
    (hshow : readTarget b' d t = v) :
    busWrite b (BitVec.ofNat 20 t.offset) allLanes v = .okay b' ∧
      busRead b' (BitVec.ofNat 20 t.offset) allLanes d = .okay v := by
  have hb' : busy b' = false := by rw [busy, hpending]; exact hb
  refine ⟨busWrite_offset hb ht hw, ?_⟩
  rw [busRead_offset hb' (hcfg ▸ ht), hshow]

/-- Settles O55: a write at a location's offset is a write of the location, whose cells the read then shows. -/
theorem writtenWordsReadBack : Obligations.WrittenWordsReadBack := by
  refine ⟨fun b v d hb => ?_, fun b v d n hcfg hb => ⟨fun hn => ?_, fun hn => ?_, fun hn => ?_⟩⟩
  · obtain ⟨hwArg, hrArg⟩ := busWrite_busRead hb (t := .reg .arg) (v := v) (d := d) trivial rfl rfl rfl rfl
    obtain ⟨hwIn, hrIn⟩ := busWrite_busRead hb (t := .reg .inLen) (v := v) (d := d) trivial rfl rfl rfl rfl
    obtain ⟨hwBit, hrBit⟩ := busWrite_busRead hb (t := .reg .bitLen) (v := v) (d := d) trivial rfl rfl rfl rfl
    obtain ⟨hwPk, hrPk⟩ := busWrite_busRead hb (t := .reg .pkLen) (v := v) (d := d) trivial rfl rfl rfl rfl
    exact ⟨hwArg, hrArg, hwIn, hrIn, hwBit, hrBit, hwPk, hrPk⟩
  · obtain ⟨hwrite, hread⟩ := busWrite_busRead hb (inMap_inbuf hcfg hn) (v := v) rfl rfl rfl
      (readByteWord_writeByteWord b.inbuf n v d)
    exact ⟨_, hwrite, hread, fun t ht => get_writeByteWord _ n v ht,
      fun j hj => get_writeByteWord_other _ n v hj, rfl⟩
  · obtain ⟨hwrite, hread⟩ := busWrite_busRead hb (inMap_pkbuf hcfg hn) (v := v) rfl rfl rfl
      (readByteWord_writeByteWord b.pkbuf n v d)
    exact ⟨_, hwrite, hread, fun t ht => get_writeByteWord _ n v ht,
      fun j hj => get_writeByteWord_other _ n v hj, rfl⟩
  · have hwrite := writeTarget_bitbuf b v n
    have hshow := readBitWord_writeBitWord b.bitbuf n v d
    have hcell : ∀ j, j < 32 → Memory.get (writeBitWord b.bitbuf n v) (32 * n + j) = some (v.getLsbD (31 - j)) :=
      fun j hj => get_writeBitWord _ n v hj
    have hother : ∀ j, j < 32 * n ∨ 32 * n + 32 ≤ j →
        Memory.get (writeBitWord b.bitbuf n v) j = Memory.get b.bitbuf j := fun j hj => get_writeBitWord_other _ n v hj
    -- The written cells are a variable from here on, so that no comparison of blocks computes them.
    generalize writeBitWord b.bitbuf n v = m at *
    obtain ⟨hwrite, hread⟩ := busWrite_busRead hb (inMap_bitbuf hcfg hn) hwrite rfl rfl hshow
    exact ⟨_, hwrite, hread, hcell, hother, rfl⟩

/-- Settles O56: the port shows the word of the location, and the word each cell in its lane or at its bit. -/
theorem bufferWordsShowTheirCells : Obligations.BufferWordsShowTheirCells := by
  refine ⟨fun b n d hcfg hb => ⟨fun hn => ⟨?_, ?_⟩, fun hn => ?_, fun hn => ?_⟩, fun m d j v h => ?_,
    fun m d j h => ?_, fun m d j v h => ?_, fun m d j h => ?_⟩
  · exact busRead_offset hb (inMap_inbuf hcfg hn) d
  · exact busRead_offset hb (inMap_outbuf hcfg hn) d
  · exact busRead_offset hb (inMap_bitbuf hcfg hn) d
  · exact busRead_offset hb (inMap_pkbuf hcfg hn) d
  · rw [getLsbD_readByteWord, h, Option.getD_some]
  · rw [getLsbD_readByteWord, h, Option.getD_none, ← getLsbD_laneOf]
  · rw [getLsbD_readBitWord, h, Option.getD_some]
  · rw [getLsbD_readBitWord, h, Option.getD_none]

end Sys2Proof.Machine
end

section
/-! The table windows at the port: the words of a NODEW and a CODEW entry by their fields (20_memory R74 to R76). -/

namespace Sys2Proof.Machine

/-! ## NODEW -/

theorem nodeWord_zero (nd : Node) : nodeWord nd 0 =
    BitVec.ofBool nd.used ++ BitVec.ofBool nd.leaf ++ 0#7 ++ nd.sym ++ nd.left ++ nd.right := rfl

/-- The fields of word 0 of a NODEW entry, used or not (20_memory R75). -/
theorem nodeWord_zero_fields (nd : Node) :
    (nodeWord nd 0).getLsbD 31 = nd.used ∧ (nodeWord nd 0).getLsbD 30 = nd.leaf ∧
    (nodeWord nd 0).extractLsb' 23 7 = 0 ∧ (nodeWord nd 0).extractLsb' 16 7 = nd.sym ∧
    (nodeWord nd 0).extractLsb' 8 8 = nd.left ∧ (nodeWord nd 0).extractLsb' 0 8 = nd.right := by
  rw [nodeWord_zero]
  refine ⟨?_, ?_, ?_, ?_, ?_, ?_⟩
  · simp only [BitVec.getLsbD_append]; simp
  · simp only [BitVec.getLsbD_append]; simp
  · rw [BitVec.extractLsb'_append_eq_of_le (by decide), BitVec.extractLsb'_append_eq_of_le (by decide),
      BitVec.extractLsb'_append_eq_of_le (by decide)]
    exact BitVec.extractLsb'_append_eq_right
  · rw [BitVec.extractLsb'_append_eq_of_le (by decide), BitVec.extractLsb'_append_eq_of_le (by decide)]
    exact BitVec.extractLsb'_append_eq_right
  · rw [BitVec.extractLsb'_append_eq_of_le (by decide)]
    exact BitVec.extractLsb'_append_eq_right
  · exact BitVec.extractLsb'_append_eq_right

/-- The example of 20_memory R75 for a leaf. -/
theorem nodeWord_zero_leaf (s : Sym) (cw : Word) (pw : BitVec 64) :
    nodeWord { Node.zero with used := true, leaf := true, sym := s, cw := cw, pw := pw } 0 =
      (0xC0000000 : Word) ||| (s.setWidth 32 <<< 16) := by
  show BitVec.ofBool true ++ BitVec.ofBool true ++ 0#7 ++ s ++ 0#8 ++ 0#8 = _
  revert s
  decide

/-- The example of 20_memory R75 for an internal node. -/
theorem nodeWord_zero_internal (l r : BitVec 8) (cw : Word) (pw : BitVec 64) :
    nodeWord { Node.zero with used := true, left := l, right := r, cw := cw, pw := pw } 0 =
      (0x80000000 : Word) ||| (l.setWidth 32 <<< 8) ||| r.setWidth 32 := by
  have hflags : BitVec.ofBool true ++ BitVec.ofBool false ++ 0#7 ++ 0#7 = 0x8000#16 := by decide
  have hwords := BitVec.setWidth_append_append_eq_shiftLeft_setWidth_or (b := 0x8000#16) (b' := l) (b'' := r)
    (w''' := 32)
  rw [BitVec.setWidth_eq] at hwords
  show BitVec.ofBool true ++ BitVec.ofBool false ++ 0#7 ++ 0#7 ++ l ++ r = _
  rw [hflags, hwords]
  rfl

/-- PW is words 2 and 3, the high one first. -/
theorem nodeWord_pw (nd : Node) : nodeWord nd 2 ++ nodeWord nd 3 = nd.pw := by
  show nd.pw.extractLsb' 32 32 ++ nd.pw.extractLsb' 0 32 = nd.pw
  rw [BitVec.extractLsb'_append_extractLsb'_eq_extractLsb' (by rfl)]
  exact BitVec.extractLsb'_eq_self

/-! ## CODEW -/

/-- The eight words of a CODEW entry. -/
def codeWords (e : CodeEntry) : List Word := (List.range 8).map fun n => codeWord e (BitVec.ofNat 3 n)

theorem getElem?_codeWords (e : CodeEntry) {n : Nat} (hn : n < 8) :
    (codeWords e)[n]? = some (codeWord e (BitVec.ofNat 3 n)) := by
  simp [codeWords, hn]

theorem codeWord_zero_fields (e : CodeEntry) :
    (codeWord e 0).getLsbD 31 = e.valid ∧ (codeWord e 0).extractLsb' 0 8 = e.len ∧
      (codeWord e 0).extractLsb' 8 23 = 0 := by
  have h : codeWord e 0 = BitVec.ofBool e.valid ++ 0#23 ++ e.len := rfl
  rw [h]
  refine ⟨?_, BitVec.extractLsb'_append_eq_right, ?_⟩
  · simp only [BitVec.getLsbD_append]; simp
  · rw [BitVec.extractLsb'_append_eq_of_le (by decide)]
    exact BitVec.extractLsb'_append_eq_right

/-- Words 1 to 4 are the 127 code bits and a zero. -/
theorem codeWord_bits (e : CodeEntry) {q : Nat} (hq : q < 4) :
    codeWord e (BitVec.ofNat 3 (1 + q)) = (e.bits ++ 0#1).extractLsb' (96 - 32 * q) 32 := by
  obtain rfl | rfl | rfl | rfl : q = 0 ∨ q = 1 ∨ q = 2 ∨ q = 3 := by omega
  all_goals rfl

/-- Code bit `j` stands at word `1 + j / 32`, bit `31 - j % 32` (20_memory R76). -/
theorem getLsbD_codeWord (e : CodeEntry) {j : Nat} (hj : j < 127) :
    (codeWord e (BitVec.ofNat 3 (1 + j / 32))).getLsbD (31 - j % 32) = e.bits.getMsbD j := by
  rw [codeWord_bits e (by omega), BitVec.getLsbD_extractLsb', decide_eq_true (by omega), Bool.true_and,
    BitVec.getLsbD_append, if_neg (by omega), BitVec.getMsbD_eq_getLsbD, decide_eq_true hj, Bool.true_and]
  congr 1
  omega

theorem getLsbD_codeWord_last (e : CodeEntry) : (codeWord e 4).getLsbD 0 = false := by
  have h : codeWord e 4 = (e.bits ++ 0#1).extractLsb' 0 32 := rfl
  rw [h, BitVec.getLsbD_extractLsb', BitVec.getLsbD_append]
  simp

/-- Settles O57: each window word is a location's, and its fields stand where the layouts say. -/
theorem tableWindowLayouts : Obligations.TableWindowLayouts := by
  refine fun b d hb => ⟨fun x => busRead_offset hb (t := .countw x) trivial d,
    fun i => busRead_offset hb (t := .orderw i) trivial d, fun k => ?_, fun x => ?_⟩
  · have hread (w : BitVec 2) := busRead_offset hb (t := .nodew k w) trivial d
    obtain ⟨hused, hleaf, hzero, hsym, hleft, hright⟩ := nodeWord_zero_fields (atNode b.node k)
    refine ⟨_, _, _, hread 0, hread 1, hread 2, hread 3, nodeWord_pw _, hused, hleaf, hzero, hsym, hleft, hright,
      fun s hnd => ?_, fun l r hnd => ?_⟩
    · exact (congrArg (nodeWord · 0) hnd).trans (nodeWord_zero_leaf _ _ _)
    · exact (congrArg (nodeWord · 0) hnd).trans (nodeWord_zero_internal _ _ _ _)
  · have hword {n : Nat} (hn : n < 8) {w : Word} (h : (codeWords (atSym b.code x))[n]? = some w) :
        codeWord (atSym b.code x) (BitVec.ofNat 3 n) = w := by
      rwa [getElem?_codeWords _ hn, Option.some.injEq] at h
    obtain ⟨hvalid, hlen, hzero⟩ := codeWord_zero_fields (atSym b.code x)
    refine ⟨codeWords (atSym b.code x), by simp [codeWords], fun n hn => ⟨_, getElem?_codeWords _ hn, ?_⟩,
      fun w h => ?_, fun j w hj h => ?_, fun w h => ?_, getElem?_codeWords _ (by decide),
      getElem?_codeWords _ (by decide), getElem?_codeWords _ (by decide)⟩
    · have := busRead_offset hb (t := .codew x (BitVec.ofNat 3 n)) trivial d
      rwa [Target.offset, BitVec.toNat_ofNat, Nat.mod_eq_of_lt hn] at this
    · rw [← hword (by decide) h]
      exact ⟨hvalid, hlen, hzero⟩
    · rw [← hword (by omega) h]
      exact getLsbD_codeWord _ hj
    · rw [← hword (by decide) h]
      exact getLsbD_codeWord_last _

end Sys2Proof.Machine
end

section
/-! The encoding of commands (30_encoding R90 to R95): a row of the opcode map selects exactly the word that encodes the
instruction it builds, and the illegal words by their fields are those no row selects. -/

namespace Sys2Proof

/-! ## The fields of a word -/

theorem reservedF0_append_opField (w : Word) : w.reservedF0 ++ w.opField = w :=
  (BitVec.extractLsb'_append_extractLsb'_eq_extractLsb' rfl).trans BitVec.extractLsb'_eq_self

theorem eq_ofNat_of_reservedF0 {w : Word} (hres : w.reservedF0 = 0#24) : w = BitVec.ofNat 32 w.opField.toNat :=
  calc w
      = 0#24 ++ w.opField := by rw [← hres, reservedF0_append_opField]
    _ = w.opField.setWidth 32 := (BitVec.setWidth_eq_append (by decide)).symm
    _ = BitVec.ofNat 32 w.opField.toNat := (BitVec.ofNat_toNat ..).symm

theorem reservedF1_append_symField_append_opField (w : Word) : w.reservedF1 ++ (w.symField ++ w.opField) = w := by
  have hlow : w.symField ++ w.opField = w.extractLsb' 0 15 := BitVec.extractLsb'_append_extractLsb'_eq_extractLsb' rfl
  rw [hlow]
  exact (BitVec.extractLsb'_append_extractLsb'_eq_extractLsb' rfl).trans BitVec.extractLsb'_eq_self

theorem opField_append (r : BitVec 17) (x : Sym) (op : BitVec 8) : Word.opField (r ++ (x ++ op)) = op :=
  (BitVec.extractLsb'_append_eq_of_add_le (by decide)).trans BitVec.extractLsb'_append_eq_right

theorem symField_append (r : BitVec 17) (x : Sym) (op : BitVec 8) : Word.symField (r ++ (x ++ op)) = x :=
  (BitVec.extractLsb'_append_eq_of_add_le (by decide)).trans BitVec.extractLsb'_append_eq_left

theorem reservedF1_append (r : BitVec 17) (x : Sym) (op : BitVec 8) : Word.reservedF1 (r ++ (x ++ op)) = r :=
  BitVec.extractLsb'_append_eq_left

/-! ## The words of FREQ_LOAD -/

theorem encode_freqLoad (x : Sym) : encode (.freqLoad x) = 0#17 ++ (x ++ 0x03#8) :=
  calc encode (.freqLoad x)
      = (x ++ 0x03#8).setWidth 32 := by
        rw [BitVec.setWidth_append_eq_shiftLeft_setWidth_or, BitVec.or_comm]
        rfl
    _ = 0#17 ++ (x ++ 0x03#8) := BitVec.setWidth_eq_append (by decide)

theorem eq_encode_freqLoad_iff (w : Word) :
    w = encode (.freqLoad w.symField) ↔ w.opField = 0x03#8 ∧ w.reservedF1 = 0#17 := by
  rw [encode_freqLoad]
  constructor
  · intro h
    rw [h]
    exact ⟨opField_append .., reservedF1_append ..⟩
  · rintro ⟨hop, hres⟩
    rw [← hop, ← hres, reservedF1_append_symField_append_opField]

/-- FREQ_LOAD's mask clears the SYM field and keeps the others (30_encoding R92). -/
theorem and_freqLoad_mask (w : Word) : w &&& 0xFFFF80FF#32 = w.reservedF1 ++ (0#7 ++ w.opField) :=
  calc w &&& 0xFFFF80FF#32
      = (w.reservedF1 ++ (w.symField ++ w.opField)) &&& (BitVec.allOnes 17 ++ (0#7 ++ BitVec.allOnes 8)) := by
        rw [reservedF1_append_symField_append_opField]
        rfl
    _ = w.reservedF1 ++ (0#7 ++ w.opField) := by
        simp only [BitVec.and_append, BitVec.and_allOnes, BitVec.and_zero]

theorem and_freqLoad_mask_eq_iff (w : Word) :
    w &&& 0xFFFF80FF#32 = 0x00000003#32 ↔ w.opField = 0x03#8 ∧ w.reservedF1 = 0#17 := by
  rw [and_freqLoad_mask]
  constructor
  · intro h
    exact ⟨(opField_append ..).symm.trans (congrArg Word.opField h),
      (reservedF1_append ..).symm.trans (congrArg Word.reservedF1 h)⟩
  · rintro ⟨hop, hres⟩
    rw [hop, hres]
    rfl

/-! ## The rows of the opcode map -/

/-- In a row of format F0, every row but FREQ_LOAD's, the mask is the whole word and the pattern is its place in the map
(30_encoding R91, R92). -/
theorem mask_pattern_of_ne_three :
    ∀ k : Fin opcodeRows.length, k.val ≠ 3 →
      opcodeRows[k].mask = BitVec.allOnes 32 ∧ opcodeRows[k].pattern = BitVec.ofNat 32 k := by decide

theorem encode_build_of_ne_three {k : Fin opcodeRows.length} (hk : k.val ≠ 3) (w : Word) :
    encode (opcodeRows[k].build w) = BitVec.ofNat 32 k := by
  fin_cases k
  pick_goal 4
  · exact absurd rfl hk
  all_goals rfl

/-- A row selects exactly the word that encodes the instruction it builds. -/
theorem selects_iff (k : Fin opcodeRows.length) (w : Word) :
    opcodeRows[k].selects w = true ↔ w = encode (opcodeRows[k].build w) := by
  rw [OpcodeRow.selects, beq_iff_eq]
  by_cases hk : k.val = 3
  · obtain rfl : k = ⟨3, by decide⟩ := Fin.ext hk
    exact (and_freqLoad_mask_eq_iff w).trans (eq_encode_freqLoad_iff w).symm
  · obtain ⟨hmask, hpattern⟩ := mask_pattern_of_ne_three k hk
    rw [hmask, hpattern, encode_build_of_ne_three hk, BitVec.and_allOnes]

/-- The OP of a word a row selects is the row's place in the map. -/
theorem opField_of_selects {k : Fin opcodeRows.length} {w : Word} (h : opcodeRows[k].selects w = true) :
    w.opField.toNat = k := by
  rw [selects_iff] at h
  by_cases hk : k.val = 3
  · obtain rfl : k = ⟨3, by decide⟩ := Fin.ext hk
    rw [((eq_encode_freqLoad_iff w).mp h).1]
    rfl
  · rw [encode_build_of_ne_three hk] at h
    have hlt : k.val < 10 := k.isLt
    rw [h, Word.opField, BitVec.extractLsb'_toNat, BitVec.toNat_ofNat]
    omega

theorem eq_of_selects {j k : Fin opcodeRows.length} {w : Word} (hj : opcodeRows[j].selects w = true)
    (hk : opcodeRows[k].selects w = true) : j = k :=
  Fin.ext ((opField_of_selects hj).symm.trans (opField_of_selects hk))

theorem exists_row_build_encode (i : Instr) : ∃ k : Fin opcodeRows.length, opcodeRows[k].build (encode i) = i := by
  cases i with
  | nop => exact ⟨⟨0, by decide⟩, rfl⟩
  | clear => exact ⟨⟨1, by decide⟩, rfl⟩
  | freqScan => exact ⟨⟨2, by decide⟩, rfl⟩
  | freqLoad x =>
    refine ⟨⟨3, by decide⟩, congrArg Instr.freqLoad ?_⟩
    rw [encode_freqLoad, symField_append]
  | build => exact ⟨⟨4, by decide⟩, rfl⟩
  | genCodes => exact ⟨⟨5, by decide⟩, rfl⟩
  | encode => exact ⟨⟨6, by decide⟩, rfl⟩
  | pack => exact ⟨⟨7, by decide⟩, rfl⟩
  | unpack => exact ⟨⟨8, by decide⟩, rfl⟩
  | decode => exact ⟨⟨9, by decide⟩, rfl⟩

/-! ## The decoder -/

/-- A selected row gives the instruction: the first that selects the word is the only one (30_encoding R94). -/
theorem decode_of_selects {k : Fin opcodeRows.length} {w : Word} (h : opcodeRows[k].selects w = true) :
    decode w = .ok (opcodeRows[k].build w) := by
  have hfind : opcodeRows.find? (fun r => r.selects w) = some opcodeRows[k] := by
    refine List.find?_eq_some_iff_getElem.mpr ⟨h, k, k.isLt, rfl, fun j hj => ?_⟩
    rw [Bool.not_eq_true', Bool.eq_false_iff]
    intro hsel
    exact hj.ne (congrArg Fin.val (eq_of_selects (j := ⟨j, hj.trans k.isLt⟩) hsel h))
  rw [decode, hfind]

theorem exists_selects_of_decode {w : Word} {i : Instr} (h : decode w = .ok i) :
    ∃ k : Fin opcodeRows.length, opcodeRows[k].selects w = true ∧ i = opcodeRows[k].build w := by
  cases hfind : opcodeRows.find? (fun r => r.selects w) with
  | none => simp [decode, hfind] at h
  | some r =>
    obtain ⟨hsel, n, hn, rfl, -⟩ := List.find?_eq_some_iff_getElem.mp hfind
    rw [decode, hfind] at h
    cases h
    exact ⟨⟨n, hn⟩, hsel, rfl⟩

theorem decode_eq_ok_iff (w : Word) (i : Instr) : decode w = .ok i ↔ w = encode i := by
  constructor
  · intro h
    obtain ⟨k, hsel, rfl⟩ := exists_selects_of_decode h
    exact (selects_iff k w).mp hsel
  · rintro rfl
    obtain ⟨k, hk⟩ := exists_row_build_encode i
    have hsel : opcodeRows[k].selects (encode i) = true := (selects_iff k _).mpr (by rw [hk])
    rw [decode_of_selects hsel, hk]

theorem exists_decode_error_iff (w : Word) : (∃ e, decode w = .error e) ↔ ¬ ∃ i, decode w = .ok i := by
  cases decode w <;> simp

/-- Settles O2: a row selects exactly the encoding of what it builds, and every instruction has a row. -/
theorem decodeIsInverseOfEncode : Obligations.DecodeIsInverseOfEncode := decode_eq_ok_iff

/-- Settles O3: OP is a selected row's place in the map, so no two rows select one word. -/
theorem opcodeRowsSelectAtMostOne : Obligations.OpcodeRowsSelectAtMostOne := by
  refine ⟨fun w i j => eq_of_selects, fun w hnone => ?_, fun w i => decode_of_selects, fun w x h => ?_⟩
  · rw [exists_decode_error_iff]
    rintro ⟨i, hi⟩
    obtain ⟨k, hsel, -⟩ := exists_selects_of_decode hi
    exact Bool.false_ne_true ((hnone k).symm.trans hsel)
  · rw [(decode_eq_ok_iff w _).mp h, encode_freqLoad]
    exact (symField_append ..).symm

/-- Settles O1, by running the decoder on the eight words. -/
theorem specExampleWordsDecode : Obligations.SpecExampleWordsDecode := by
  unfold Obligations.SpecExampleWordsDecode
  decide

/-! ## Legal and illegal words (30_encoding R95) -/

theorem legalCommand_encode (i : Instr) : Word.legalCommand (encode i) = true := by
  cases i with
  | freqLoad x => exact (Laws.LegalEncoding.freqLoad x).1
  | _ => rfl

theorem exists_encode_of_legalCommand {w : Word} (h : Word.legalCommand w = true) : ∃ i, w = encode i := by
  unfold Word.legalCommand at h
  split at h
  · next hop => exact ⟨_, (eq_encode_freqLoad_iff w).mpr ⟨hop, beq_iff_eq.mp h⟩⟩
  · next hop =>
    rw [Bool.and_eq_true, decide_eq_true_iff, beq_iff_eq] at h
    obtain ⟨hle, hres⟩ := h
    have hne : w.opField.toNat ≠ 3 := fun h => hop (BitVec.eq_of_toNat_eq h)
    have hrow := encode_build_of_ne_three (k := ⟨w.opField.toNat, Nat.lt_succ_of_le hle⟩) hne w
    exact ⟨_, (eq_ofNat_of_reservedF0 hres).trans hrow.symm⟩

theorem legalCommand_iff (w : Word) : Word.legalCommand w = true ↔ ∃ i, decode w = .ok i := by
  simp only [decode_eq_ok_iff]
  exact ⟨exists_encode_of_legalCommand, fun ⟨i, hi⟩ => hi ▸ legalCommand_encode i⟩

theorem exists_decode_error_iff_legalCommand (w : Word) :
    (∃ e, decode w = .error e) ↔ Word.legalCommand w = false := by
  rw [exists_decode_error_iff, ← legalCommand_iff, Bool.not_eq_true]

end Sys2Proof

namespace Sys2Proof.Machine

open Sys2Proof.Safety

theorem engineStep_of_decode_error {s : State} {w : Word} {e : IllegalWord} (hp : s.blk.pending = some w)
    (he : decode w = .error e) : engineStep s = failsWith s .illegalCommand 0 0 := by
  simp only [engineStep, hp, he]
  rfl

/-- Settles O4: the illegal words by their fields are those the decoder rejects, and the engine's step on one is the
report. -/
theorem illegalWordsCompleteAsIllegal : Obligations.IllegalWordsCompleteAsIllegal := by
  refine ⟨exists_decode_error_iff_legalCommand, fun s w hmove hp hw => ?_⟩
  obtain ⟨e, he⟩ := (exists_decode_error_iff_legalCommand w).mpr hw
  rw [step, hmove]
  exact engineStep_of_decode_error (s := popMove s) hp he

end Sys2Proof.Machine
end

section
/-! Host programs whose names are bound (30_encoding R97): only the host's step can be refused or change the host, and
on such a program it reads no unbound name and keeps the rest of the program such. -/

namespace Sys2Proof.Machine

/-! ## The engine -/

theorem exec_ne_refused (i : Instr) (s : State) (r : Refusal) : exec i s ≠ .refused r := by
  by_cases hi : i = .decode
  · subst hi
    exact finishDecode_ne_refused s _ r
  · rw [exec_eq_finish hi]
    exact finish_ne_refused s _ r

theorem exec_host {i : Instr} {s t : State} (h : exec i s = .next t) : t.host = s.host := by
  by_cases hi : i = .decode
  · subst hi
    rw [exec_decode_eq, finishDecode_next] at h
    obtain ⟨c, -, rfl⟩ | ⟨code, r0, r1, -, rfl⟩ := h <;> rfl
  · rw [exec_eq_finish hi, finish_next] at h
    obtain ⟨c, -, rfl⟩ | ⟨code, r0, r1, -, rfl⟩ := h <;> rfl

theorem engineStep_ne_refused (s : State) (r : Refusal) : engineStep s ≠ .refused r := by
  unfold engineStep
  split
  · exact nofun
  · split
    · exact finish_ne_refused s _ r
    · exact exec_ne_refused _ s r

theorem engineStep_host {s t : State} (h : engineStep s = .next t) : t.host = s.host := by
  obtain ⟨-, rfl⟩ | ⟨w, e, -, -, rfl⟩ | ⟨w, i, -, -, hexec⟩ := engineStep_next s t h
  · rfl
  · rfl
  · exact exec_host hexec

/-! ## Bound names -/

theorem Memory.mem_map_fst_iff {α : Type} (m : Memory α) (n : Nat) :
    n ∈ m.map Prod.fst ↔ ∃ v, Memory.get m n = some v := by
  induction m with
  | nil => simp
  | cons c m ih =>
    obtain ⟨k, v⟩ := c
    by_cases hk : k = n
    · simp [Memory.get, hk]
    · simp only [List.map_cons, List.mem_cons, Ne.symm hk, false_or, Memory.get, if_neg hk, ih]

/-- Binding a name binds it and unbinds none. -/
theorem cons_subset_map_fst_set (m : Memory Word) (n : Nat) (v : Word) :
    n :: m.map Prod.fst ⊆ (Memory.set m n v).map Prod.fst := by
  intro k hk
  rw [Memory.mem_map_fst_iff, Memory.get_set]
  split
  · exact ⟨v, rfl⟩
  · next hne => exact (Memory.mem_map_fst_iff m k).mp (List.mem_of_ne_of_mem hne hk)

theorem HostVal.isBound_of_subset {bound bound' : List Nat} (hsub : bound ⊆ bound') {v : HostVal}
    (h : v.isBound bound = true) : v.isBound bound' = true := by
  cases v with
  | lit w => rfl
  | name n => exact List.contains_iff_mem.mpr (hsub (List.contains_iff_mem.mp h))

theorem namesBound_of_subset (prog : List HostStmt) : ∀ {bound bound' : List Nat}, bound ⊆ bound' →
    namesBound bound prog = true → namesBound bound' prog = true := by
  induction prog with
  | nil => exact fun _ _ => rfl
  | cons st rest ih =>
    intro bound bound' hsub h
    cases st with
    | write off lanes v =>
      obtain ⟨hv, hrest⟩ := Bool.and_eq_true_iff.mp h
      exact Bool.and_eq_true_iff.mpr ⟨HostVal.isBound_of_subset hsub hv, ih hsub hrest⟩
    | read off lanes name =>
      cases name with
      | none => exact ih hsub h
      | some n => exact ih (List.cons_subset_cons n hsub) h
    | wait => exact ih hsub h
    | check off v =>
      obtain ⟨hv, hrest⟩ := Bool.and_eq_true_iff.mp h
      exact Bool.and_eq_true_iff.mpr ⟨HostVal.isBound_of_subset hsub hv, ih hsub hrest⟩

theorem exists_hostValue_of_isBound {h : HostAgent} {v : HostVal} (hv : v.isBound (h.vars.map Prod.fst) = true) :
    ∃ w, hostValue h v = .ok w := by
  cases v with
  | lit w => exact ⟨w, rfl⟩
  | name n =>
    obtain ⟨w, hw⟩ := (Memory.mem_map_fst_iff h.vars n).mp (List.contains_iff_mem.mp hv)
    exact ⟨w, by simp only [hostValue, hw]⟩

/-! ## The host -/

theorem wellFormed_withProg (s : State) (prog : List HostStmt) :
    (withProg s prog).host.wellFormed = namesBound (s.host.vars.map Prod.fst) prog := rfl

theorem wellFormed_after_read {s : State} {off : Offset} {lanes : BitVec 4} {name : Option Nat} {rest : List HostStmt}
    (h : namesBound (s.host.vars.map Prod.fst) (.read off lanes name :: rest) = true) (d : Word) :
    (withProg (bindName (afterRead s d) d name) rest).host.wellFormed = true := by
  rw [wellFormed_withProg]
  cases name with
  | none => exact h
  | some n => exact namesBound_of_subset rest (cons_subset_map_fst_set s.host.vars n d) h

/-- On a well-formed program the host's step goes on with one, or its access is refused. -/
theorem hostStep_of_wellFormed {s : State} (h : s.host.wellFormed = true) :
    (∃ t, hostStep s = .next t ∧ t.host.wellFormed = true) ∨ hostStep s = .fault .busError := by
  cases hp : s.host.prog with
  | nil => exact .inl ⟨s, by simp only [hostStep, hp], h⟩
  | cons st rest =>
    have hbound : namesBound (s.host.vars.map Prod.fst) (st :: rest) = true := hp ▸ h
    cases st with
    | write off lanes v =>
      obtain ⟨hv, hrest⟩ := Bool.and_eq_true_iff.mp hbound
      obtain ⟨w, hw⟩ := exists_hostValue_of_isBound hv
      cases hb : busWrite s.blk off lanes w with
      | slverr => exact .inr ((hostStep_write_busError hp hw).mpr hb)
      | okay b => exact .inl ⟨_, hostStep_write_okay hp hw hb, hrest⟩
    | read off lanes name =>
      cases hd : busRead s.blk off lanes (nextDraw s) with
      | slverr => exact .inr ((hostStep_read_busError hp).mpr hd)
      | okay d => exact .inl ⟨_, hostStep_read_okay hp hd, wellFormed_after_read hbound d⟩
    | wait =>
      obtain ⟨d, hd, hbusy⟩ := exists_busRead_status s.blk (nextDraw s)
      refine .inl ⟨_, hostStep_wait hp hd hbusy, ?_⟩
      split <;> exact hbound
    | check off v =>
      obtain ⟨hv, hrest⟩ := Bool.and_eq_true_iff.mp hbound
      obtain ⟨w, hw⟩ := exists_hostValue_of_isBound hv
      cases hd : busRead s.blk off allLanes (nextDraw s) with
      | slverr => exact .inr ((hostStep_check_busError hp hw).mpr hd)
      | okay d => exact .inl ⟨_, hostStep_check_okay hp hw hd, hrest⟩

/-- Settles O58: the engine refuses nothing and leaves the host as it is; the host's step keeps its program's names
bound; a reset is not the host's. -/
theorem boundHostProgramsAreNeverRefused : Obligations.BoundHostProgramsAreNeverRefused := by
  intro s hs
  cases hmove : nextMove s with
  | engine =>
    rw [step, hmove]
    refine ⟨engineStep_ne_refused _, fun t ht => ?_⟩
    rw [engineStep_host ht]
    exact hs
  | host =>
    rw [step, hmove]
    obtain ⟨t, ht, hwf⟩ | hfault := hostStep_of_wellFormed (s := popMove s) hs
    · simp [ht, hwf]
    · simp [hfault]
  | reset =>
    rw [step, hmove]
    exact ⟨fun _ => nofun, fun t ht => by cases ht; exact hs⟩

end Sys2Proof.Machine
end

section
/-! What the commands share (40_control R112 to R116): how a command ends and what it may write; NOP, CLEAR and the step
that runs the latched command. -/

namespace Sys2Proof.Machine

open Sys2Proof.Safety

/-! ## How a command ends -/

/-- The block an error report is made over: a failing DECODE has set OUT_LEN to 0 (45_decoder R202), every other command
has written nothing (60_exceptions R211). -/
def blockOnError : Instr → Block → Block
  | .decode, b => { b with outLen := 0 }
  | _, b => b

/-- A command that goes on reports success over its commit or an error over `blockOnError`, and changes nothing around
the block (40_control R112). -/
theorem exec_next {i : Instr} {s t : State} (h : exec i s = .next t) :
    (∃ c, commandResult i s.blk = .ok c ∧ t = { s with blk := complete c.blk .none c.r0 c.r1 }) ∨
    (∃ code r0 r1, commandResult i s.blk = .error (.raise code r0 r1) ∧
      t = { s with blk := complete (blockOnError i s.blk) code r0 r1 }) := by
  by_cases hi : i = .decode
  · subst hi
    rwa [exec_decode_eq, finishDecode_next] at h
  · have hkeep : blockOnError i s.blk = s.blk := by
      unfold blockOnError
      split
      · exact absurd rfl hi
      · rfl
    rw [exec_eq_finish hi, finish_next] at h
    rwa [hkeep]

/-- No command changes the configuration (00_scope R11). -/
theorem commandResult_cfg {i : Instr} {b : Block} {c : Commit} (h : commandResult i b = .ok c) : c.blk.cfg = b.cfg := by
  obtain ⟨b', hchange, htables⟩ := commandResult_tables h
  have hcfg : b'.cfg = b.cfg := by cases hchange <;> rfl
  exact (congrArg Block.cfg htables).trans hcfg

theorem blockOnError_cfg (i : Instr) (b : Block) : (blockOnError i b).cfg = b.cfg := by cases i <;> rfl

/-- Settles O42: a command that goes on ends in `complete`, which empties PENDING, and no command is refused. -/
theorem commandsCompleteOrFault : Obligations.CommandsCompleteOrFault := by
  intro i s
  cases h : exec i s with
  | fault f => exact .inr ⟨f, rfl⟩
  | refused r => exact absurd h (exec_ne_refused i s r)
  | next t =>
    obtain ⟨c, hc, rfl⟩ | ⟨code, r0, r1, -, rfl⟩ := exec_next h
    · exact .inl ⟨_, rfl, rfl, rfl, rfl, rfl, rfl, commandResult_cfg hc⟩
    · exact .inl ⟨_, rfl, rfl, rfl, rfl, rfl, rfl, blockOnError_cfg i s.blk⟩

/-! ## What a command may write -/

theorem laterKept_refl {α : Type} (m : Memory α) (w len : Nat) : LaterKept m m w len := fun _ _ => rfl

/-- An output whose length its register holds leaves the cells after its last word (44_bit_packing R183). -/
theorem laterKept_putBits (m : Memory Bool) {bs : List Bool} (hlen : bs.length < 2 ^ 32) :
    LaterKept m (putBits m bs) 32 (BitVec.ofNat 32 bs.length).toNat := by
  intro j hj
  rw [BitVec.toNat_ofNat, Nat.mod_eq_of_lt hlen] at hj
  have hle := le_ceilDiv bs.length 32 (by omega)
  rw [get_putBits, if_neg (by omega), if_neg (by omega)]

theorem laterKept_putBytes (m : Memory Byte) {bs : List Byte} (hlen : bs.length < 2 ^ 32) :
    LaterKept m (putBytes m bs) 4 (BitVec.ofNat 32 bs.length).toNat := by
  intro j hj
  rw [BitVec.toNat_ofNat, Nat.mod_eq_of_lt hlen] at hj
  have hle := le_ceilDiv bs.length 4 (by omega)
  rw [get_putBytes, if_neg (by omega), if_neg (by omega)]

/-- MAX_BITS is below 2^32 (00_scope R9), so BIT_LEN holds the length of what ENCODE and UNPACK write. -/
theorem lt_two_pow_of_le_maxBits {p : Params} (hcfg : p.wellFormed = true) {n : Nat} (h : n ≤ p.maxBits) :
    n < 2 ^ 32 := by
  obtain ⟨-, -, -, -, hbits⟩ := (Params.wellFormed_iff p).mp hcfg
  omega

/-- PACK writes fewer than 2^32 bytes whatever BIT_LEN is (44_bit_packing R179). -/
theorem length_packBytes_padded_lt {bs : List Bool} (h : bs.length < 2 ^ 32) :
    (packBytes (padded bs)).length < 2 ^ 32 := by
  rw [length_packBytes, length_padded, padLen]
  omega

/-- Settles O41: a success leaves the command's commit, an error the block it is reported over; of an output buffer only
the words of the output are written. -/
theorem commandsWriteOnlyTheirOwnState : Obligations.CommandsWriteOnlyTheirOwnState := by
  intro i s t h
  obtain ⟨c, hc, rfl⟩ | ⟨code, r0, r1, he, rfl⟩ := exec_next h
  · cases i with
    | nop => cases hc; exact ⟨s.blk, rfl, rfl⟩
    | clear =>
      cases hc
      refine ⟨_, ?_, rfl⟩
      rfl
    | freqScan =>
      obtain ⟨-, -, ss, -, rfl⟩ := (freqScan_ok _ c).mp hc
      exact ⟨scanCommit s.blk ss, rfl, rfl⟩
    | freqLoad sym =>
      obtain ⟨-, -, -, rfl⟩ := (freqLoad_ok _ sym c).mp hc
      exact ⟨loadCommit s.blk sym, rfl, rfl⟩
    | build =>
      obtain ⟨-, -, rfl⟩ := (buildTree_ok _ c).mp hc
      exact ⟨buildCommit s.blk, rfl, rfl⟩
    | genCodes =>
      obtain ⟨-, -, acc, -, rfl⟩ := (genCodes_ok _ c).mp hc
      exact ⟨codesCommit s.blk acc, rfl, rfl⟩
    | encode =>
      obtain ⟨-, hpos, -, out, hloop, rfl⟩ := (encodeSyms_ok _ c).mp hc
      obtain ⟨ss, -, -, -, -, hlen⟩ := encodeLoop_ok _ _ _ _ _ hloop
      exact ⟨bitsCommit s.blk out, rfl, rfl,
        fun hcfg => laterKept_putBits _ (lt_two_pow_of_le_maxBits hcfg (hlen.resolve_left hpos)), absurd rfl⟩
    | pack =>
      obtain ⟨-, bs, hbs, rfl⟩ := (packBits_ok _ c).mp hc
      have hlen : bs.length < 2 ^ 32 := ((readCells_ok _ _ _ _).mp hbs).1 ▸ s.blk.bitLen.isLt
      exact ⟨packCommit s.blk (packBytes (padded bs)), rfl, rfl,
        laterKept_putBytes _ (length_packBytes_padded_lt hlen), absurd rfl⟩
    | unpack =>
      obtain ⟨-, bytes, -, hlen, rfl⟩ := (unpackBytes_ok _ c).mp hc
      exact ⟨_, rfl, rfl, fun hcfg => laterKept_putBits _ (lt_two_pow_of_le_maxBits hcfg hlen), absurd rfl⟩
    | decode =>
      obtain ⟨-, -, -, d, hloop, rfl⟩ := (decodeBits_ok _ c).mp hc
      have hlen : d.out.length < 2 ^ 32 :=
        (decodeLoop_ok _ _ _ _ _ _ d (Nat.zero_le _) hloop).1 ▸ s.blk.arg.isLt
      have hkept := laterKept_putBytes s.blk.outbuf (bs := d.out.map (·.setWidth 8)) (by rwa [List.length_map])
      rw [List.length_map] at hkept
      exact ⟨decodeCommit s.blk d.out, rfl, rfl, hkept, absurd rfl⟩
  · refine ⟨blockOnError i s.blk, rfl, ?_⟩
    cases i with
    | nop => cases he
    | clear => cases he
    | freqScan => rfl
    | freqLoad sym => rfl
    | build => rfl
    | genCodes => rfl
    | encode => exact ⟨rfl, fun _ => laterKept_refl _ _ _, fun _ => rfl⟩
    | pack => exact ⟨rfl, laterKept_refl _ _ _, fun _ => rfl⟩
    | unpack => exact ⟨rfl, fun _ => laterKept_refl _ _ _, fun _ => rfl⟩
    | decode => exact ⟨rfl, laterKept_refl _ _ _, fun _ => rfl⟩

/-! ## NOP, CLEAR and the step -/

/-- Settles O9: NOP commits the block it found. -/
theorem nopOnlyReportsSuccess : Obligations.NopOnlyReportsSuccess := fun _ => rfl

/-- CLEAR leaves the power-on block but for the configuration and the buffers (40_control R114). -/
theorem exec_clear (s : State) : exec .clear s = .next { s with blk := { Block.powerOn s.blk.cfg with
    inbuf := s.blk.inbuf, outbuf := s.blk.outbuf, bitbuf := s.blk.bitbuf, pkbuf := s.blk.pkbuf } } := rfl

/-- Settles O10: each register and table of the power-on block is zero. -/
theorem clearKeepsOnlyBuffers : Obligations.ClearKeepsOnlyBuffers := by
  intro s
  refine ⟨_, exec_clear s, rfl, rfl, rfl, rfl, rfl, rfl, rfl, rfl, rfl, rfl, rfl, rfl, rfl, rfl, rfl, rfl, rfl,
    fun x => ⟨?_, ?_, ?_⟩, fun k => ?_, rfl⟩
  · exact atSym_replicate 0 x
  · exact atSym_replicate 0 x
  · exact atSym_replicate CodeEntry.absent x
  · exact atNode_replicate Node.zero k

theorem engineStep_of_decode_ok {s : State} {w : Word} {i : Instr} (hp : s.blk.pending = some w)
    (hi : decode w = .ok i) : engineStep s = exec i s := by
  simp only [engineStep, hp, hi]

/-- With nothing scheduled a latched command is the engine's to run (40_control R117). -/
theorem nextMove_of_pending {s : State} {w : Word} (hsched : s.sched = []) (hp : s.blk.pending = some w) :
    nextMove s = .engine := by
  simp only [nextMove, hsched, hp, Option.isSome_some, if_true]

/-- Settles O5: the engine's move is the engine's step, which runs what the latched word decodes to. -/
theorem stepRunsTheLatchedCommand : Obligations.StepRunsTheLatchedCommand := by
  refine ⟨fun s w i hmove hp hi => ?_, fun s hmove => ?_, fun s w => nextMove_of_pending⟩
  · rw [step, hmove]
    exact engineStep_of_decode_ok (s := popMove s) hp hi
  · rw [step, hmove]

end Sys2Proof.Machine
end

section
/-! The port and the latched command (40_control R110, R111): a write to CMD, and the accesses while a command is
latched. -/

namespace Sys2Proof.Machine

/-- Settles O54: CMD is writable at its offset and takes the word. -/
theorem cmdWriteLatchesAnyWord : Obligations.CmdWriteLatchesAnyWord :=
  fun _ _ hb => ⟨busWrite_offset hb (t := .reg .cmd) trivial rfl, rfl⟩

/-- Settles O52: a writable offset is a location's that takes a write, and the port discards it while busy. -/
theorem busyWritesAreDiscarded : Obligations.BusyWritesAreDiscarded := by
  intro b off v hcfg hb hw
  obtain ⟨t, hoff, ht⟩ := exists_inMap_of_readable hcfg (Bool.and_eq_true_iff.mp hw).1
  obtain ⟨b', hb'⟩ := Option.isSome_iff_exists.mp ((writable_iff_of_inMap hcfg hoff ht b v).mp hw)
  exact (busWrite_okay _ _ _ _ _).mpr
    ⟨t, b', accessTarget_some_iff.mpr ⟨rfl, hoff, ht⟩, hb', by rw [if_pos hb]⟩

/-- The location at a register's offset is the register. -/
theorem eq_reg_of_offset_eq {p : Params} {off : Offset} {t : Target} (hoff : off.toNat = t.offset) (ht : t.InMap p)
    {r : Reg} (hr : off = BitVec.ofNat 20 r.offset) : t = .reg r := by
  have hdec := decodeOffset_of_offset_eq ht hoff
  rw [hr, decodeOffset_regOffset] at hdec
  exact (Option.some.inj hdec).symm

/-- The registers a busy block shows: the constants and STATUS (40_control R111). -/
def Reg.shownBusy : List Reg := [.id, .param0, .param1, .param2, .status]

/-- A busy block shows the free value at every other location. -/
theorem readTargetBusy_eq_draw {t : Target} (h : ∀ r ∈ Reg.shownBusy, t ≠ .reg r) (b : Block) (d : Word) :
    readTargetBusy b d t = d := by
  unfold readTargetBusy
  split
  · exact absurd rfl (h .id (by decide))
  · exact absurd rfl (h .param0 (by decide))
  · exact absurd rfl (h .param1 (by decide))
  · exact absurd rfl (h .param2 (by decide))
  · exact absurd rfl (h .status (by decide))
  · rfl

/-- Bits 31 to 6 of a STATUS word are 0 (10_state R23). -/
theorem statusBits_and_mask (busy err overrun anomaly treeValid codesValid : Bool) :
    statusBits busy err overrun anomaly treeValid codesValid &&& 0x3F =
      statusBits busy err overrun anomaly treeValid codesValid := by
  decide +revert

/-- STATUS of a busy block: BUSY, OVERRUN and the free bits (40_control R111). -/
theorem statusWordBusy_fields (b : Block) (d : Word) :
    (statusWordBusy b d).getLsbD 0 = true ∧ (statusWordBusy b d).getLsbD 2 = b.overrun ∧
      (statusWordBusy b d).getLsbD 1 = d.getLsbD 1 ∧ (statusWordBusy b d).getLsbD 3 = d.getLsbD 3 ∧
      (statusWordBusy b d).getLsbD 4 = d.getLsbD 4 ∧ (statusWordBusy b d).getLsbD 5 = d.getLsbD 5 ∧
      statusWordBusy b d &&& 0x3F = statusWordBusy b d := by
  have hbit := getLsbD_statusBits true (d.getLsbD 1) b.overrun (d.getLsbD 3) (d.getLsbD 4) (d.getLsbD 5)
  exact ⟨hbit 0, hbit 2, hbit 1, hbit 3, hbit 4, hbit 5, statusBits_and_mask _ _ _ _ _ _⟩

/-- Settles O53: an accepted read is of a location, which is one of the five registers a busy block shows or free. -/
theorem busyReadsShowOnlyDefinedBits : Obligations.BusyReadsShowOnlyDefinedBits := by
  intro b off d hcfg hb hread
  obtain ⟨t, hoff, ht⟩ := exists_inMap_of_readable hcfg hread
  obtain ⟨-, hsyms, -, -, hbits⟩ := (Params.wellFormed_iff _).mp hcfg
  have hreg : ∀ r : Reg, off = BitVec.ofNat 20 r.offset → t = .reg r := fun r => eq_reg_of_offset_eq hoff ht
  refine ⟨readTargetBusy b d t, (busRead_okay _ _ _ _ _).mpr
      ⟨t, accessTarget_some_iff.mpr ⟨rfl, hoff, ht⟩, by rw [if_pos hb]⟩,
    fun h => ?_, fun h => ?_, fun h => ?_, fun h => ?_, fun h => ?_, fun hid h0 h1 h2 hstatus => ?_⟩
  · rw [hreg .id h]; rfl
  · rw [hreg .param0 h]
    exact Nat.mod_eq_of_lt (by omega)
  · rw [hreg .param1 h]
    exact Nat.mod_eq_of_lt (by omega)
  · rw [hreg .param2 h]
    show weightModeBit b.cfg.weightMode = _
    cases b.cfg.weightMode <;> rfl
  · rw [hreg .status h]
    exact statusWordBusy_fields b d
  · have hoff_ne : ∀ r ∈ Reg.shownBusy, off ≠ BitVec.ofNat 20 r.offset := by
      simpa [Reg.shownBusy, Reg.offset] using ⟨hid, h0, h1, h2, hstatus⟩
    refine readTargetBusy_eq_draw (fun r hr ht' => hoff_ne r hr ?_) b d
    rw [ht'] at hoff
    exact BitVec.eq_of_toNat_eq (hoff.trans (Nat.mod_eq_of_lt (Target.offset_lt (t := .reg r) (ht' ▸ ht))).symm)

end Sys2Proof.Machine
end

section
/-! How FREQ_SCAN and FREQ_LOAD end (41_frequency R121 to R126): what a command's result is at `exec`, the checks of the
two commands in order, and the tables they commit. -/

namespace Sys2Proof.Machine

open Sys2Proof.Safety

/-! ## From a command's result to its end -/

section
variable {i : Instr} (hi : i ≠ .decode) {s : State}
include hi

/-- A commit ends in a report of success (40_control R112). -/
theorem exec_of_ok {c : Commit} (h : commandResult i s.blk = .ok c) :
    exec i s = .next { s with blk := complete c.blk .none c.r0 c.r1 } := by
  rw [exec_eq_finish hi, h]
  rfl

/-- A raised error ends in its report over the block as it was (60_exceptions R211). -/
theorem exec_of_raise {code : ErrCode} {r0 r1 : Word} (h : commandResult i s.blk = .error (.raise code r0 r1)) :
    exec i s = failsWith s code r0 r1 := by
  rw [exec_eq_finish hi, h]
  rfl

theorem exec_of_fault {f : Fault} (h : commandResult i s.blk = .error (.fault f)) : exec i s = .fault f := by
  rw [exec_eq_finish hi, h]
  rfl

end

/-! ## The checks of FREQ_LOAD -/

/-- Settles O14: each check is reached when those before it pass. -/
theorem freqLoadRefusesInOrder : Obligations.FreqLoadRefusesInOrder := by
  intro s sym
  refine ⟨fun harg => exec_of_raise (by nofun) (if_pos harg), fun harg hold => exec_of_raise (by nofun) ?_,
    fun harg hnew hover => exec_of_raise (by nofun) ?_⟩
  · exact (if_neg harg).trans (if_pos hold)
  · exact (if_neg harg).trans ((if_neg (not_not.mpr hnew)).trans (if_pos hover))

/-! ## The checks of FREQ_SCAN -/

theorem readSym_of_lt {m : Memory Byte} {i : Nat} {v : Byte} (h : Memory.get m i = some v) (hv : v.toNat < 128) :
    readSym m i = .ok (v.setWidth 7) := by
  rw [readSym_ok, h, Option.some.injEq]
  apply BitVec.eq_of_toNat_eq
  simp only [BitVec.toNat_setWidth]
  omega

/-- A stream is read up to its first cell that is not a written symbol (60_exceptions R212). -/
theorem readSyms_of_first_error {m : Memory Byte} {n i : Nat} {e : Stop} (hi : i < n)
    (hbelow : ∀ j, j < i → ∃ v, Memory.get m j = some v ∧ v.toNat < 128) (he : readSym m i = .error e) :
    readSyms m n = .error e := by
  refine (readFrom_error _ _ _ _).mpr ⟨i, hi, (Nat.zero_add i).symm ▸ he, fun j hj => ?_⟩
  obtain ⟨v, hget, hv⟩ := hbelow j hj
  exact ⟨_, (Nat.zero_add j).symm ▸ readSym_of_lt hget hv⟩

/-- An error of the stream is FREQ_SCAN's when its checks of IN_LEN pass (41_frequency R121). -/
theorem freqScan_of_readSyms_error {b : Block} {e : Stop} (hpos : b.inLen.toNat ≠ 0)
    (hcap : b.inLen.toNat ≤ b.cfg.maxSyms) (h : readSyms b.inbuf b.inLen.toNat = .error e) : freqScan b = .error e := by
  simp only [freqScan, if_neg hpos, if_neg hcap.not_gt, h]

/-- Settles O12: IN_LEN is checked before the stream is read, and the stream stops at its first bad cell. -/
theorem freqScanStopsInOrder : Obligations.FreqScanStopsInOrder := by
  intro s
  refine ⟨fun hzero => exec_of_raise (by nofun) ?_, fun hne hcap => exec_of_raise (by nofun) ?_,
    fun i hcap hi hbelow => ?_⟩
  · exact if_pos (congrArg BitVec.toNat hzero)
  · exact (if_neg fun h => hne (BitVec.eq_of_toNat_eq h)).trans (if_pos hcap)
  have hstop : ∀ {e}, readSym s.blk.inbuf i = .error e → freqScan s.blk = .error e := fun he =>
    freqScan_of_readSyms_error (by omega) hcap (readSyms_of_first_error hi hbelow he)
  refine ⟨fun hnone => exec_of_fault (by nofun) (hstop ?_), fun v hget hv => exec_of_raise (by nofun) (hstop ?_)⟩
  · exact (readSym_error _ _ _).mpr (.inl ⟨hnone, rfl⟩)
  · exact (readSym_error _ _ _).mpr (.inr ⟨v, hget, hv, rfl⟩)

/-! ## What FREQ_SCAN commits -/

/-- The scan's list has one entry for each distinct symbol. -/
theorem length_tally_ord (ss : List Sym) : (tally ss).ord.length = ss.dedup.length := by
  refine ((List.perm_ext_iff_of_nodup (nodup_tally_ord ss) ss.nodup_dedup).mpr fun s => ?_).length_eq
  rw [mem_tally_ord, List.mem_dedup]

/-- The scan's list is in the order of first occurrences: a symbol that joins it occurs for the first time after all
before it (41_frequency R123). -/
theorem pairwise_idxOf_tally_ord (ss : List Sym) :
    (tally ss).ord.Pairwise fun x y => ss.idxOf x < ss.idxOf y := by
  induction ss using List.reverseRecOn with
  | nil => exact List.Pairwise.nil
  | append_singleton ss x ih =>
    have hkeep : ∀ y ∈ (tally ss).ord, (ss ++ [x]).idxOf y = ss.idxOf y := fun y hy =>
      List.idxOf_append_of_mem ((mem_tally_ord ss y).mp hy)
    have hold : (tally ss).ord.Pairwise fun y z => (ss ++ [x]).idxOf y < (ss ++ [x]).idxOf z :=
      ih.imp_of_mem fun hy hz hlt => by rwa [hkeep _ hy, hkeep _ hz]
    rw [tally_append_singleton, Tally.add, atSym_tally_cnt]
    by_cases h : ss.count x = 0
    · rw [if_pos h, List.pairwise_append]
      refine ⟨hold, List.pairwise_singleton _ _, fun y hy z hz => ?_⟩
      rw [List.mem_singleton.mp hz, hkeep y hy, List.idxOf_append_of_notMem (List.count_eq_zero.mp h)]
      have := List.idxOf_lt_length_iff.mpr ((mem_tally_ord ss y).mp hy)
      omega
    · rwa [if_neg h]

theorem toNat_ndist_scanCommit (b : Block) (ss : List Sym) : (scanCommit b ss).ndist.toNat = (tally ss).ord.length := by
  have := length_le_128_of_nodup (nodup_tally_ord ss)
  exact Nat.mod_eq_of_lt (by omega)

theorem toNat_count_scanCommit (b : Block) {ss : List Sym} (hlen : ss.length < 2 ^ 32) (x : Sym) :
    (atSym (scanCommit b ss).count x).toNat = ss.count x := by
  have hval : atSym (scanCommit b ss).count x = BitVec.ofNat 32 (atSym (tally ss).cnt x) := by
    simp [scanCommit_eq, atSym]
  rw [hval, atSym_tally_cnt]
  exact Nat.mod_eq_of_lt (List.count_le_length.trans_lt hlen)

theorem ordered_scanCommit (b : Block) (ss : List Sym) : ordered (scanCommit b ss) = (tally ss).ord := by
  rw [ordered, toNat_ndist_scanCommit]
  exact take_orderTable (length_le_128_of_nodup (nodup_tally_ord ss))

/-- FREQ_SCAN of a written stream commits it (41_frequency R121). -/
theorem freqScan_of_inputIs {b : Block} {ss : List Sym} (h : InputIs b ss) :
    freqScan b =
      .ok ⟨scanCommit b ss, BitVec.ofNat 32 (tally ss).ord.length, BitVec.ofNat 32 b.inLen.toNat⟩ := by
  obtain ⟨hlen, hpos, hcap, hholds⟩ := h
  refine (freqScan_ok _ _).mpr ⟨by omega, by omega, ss, (readSyms_ok _ _ _).mpr ⟨hlen.symm, fun j hj => ?_⟩, rfl⟩
  rw [hholds j (by rwa [List.length_map]), List.getElem?_map, List.getElem?_eq_getElem hj]
  rfl

/-- Settles O11: the commit is the table of the scan, which counts occurrences and lists first ones. -/
theorem freqScanCountsTheStream : Obligations.FreqScanCountsTheStream := by
  intro s ss hin
  have hinLen : s.blk.inLen.toNat = ss.length := hin.1
  have hlen : ss.length < 2 ^ 32 := hinLen ▸ s.blk.inLen.isLt
  have hndist := toNat_ndist_scanCommit s.blk ss
  have hordered := ordered_scanCommit s.blk ss
  obtain ⟨-, hnodup, -, hzero, -⟩ := tableInv_scanCommit s.blk hlen
  refine ⟨_, exec_of_ok (by nofun) (freqScan_of_inputIs hin), toNat_count_scanCommit s.blk hlen,
    hndist.trans (length_tally_ord ss), hnodup, fun x => ?_, ?_, hzero, Nat.mod_eq_of_lt hlen, rfl, ?_,
    congrArg (BitVec.ofNat 32) hinLen, rfl, ⟨rfl, rfl, rfl, rfl⟩, rfl, fun x => atSym_replicate _ x, rfl⟩
  · exact hordered ▸ mem_tally_ord ss x
  · exact hordered ▸ pairwise_idxOf_tally_ord ss
  · exact (Nat.mod_eq_of_lt (by omega)).trans hndist.symm

/-! ## What FREQ_LOAD commits -/

section
variable {b : Block} {sym : Sym}

/-- A sound table that lacks a symbol has a free slot in ORDER (41_frequency R125). -/
theorem ndist_lt_of_count_eq_zero (hb : TableInv b) (hnew : atSym b.count sym = 0) : b.ndist.toNat < 128 := by
  obtain ⟨hle, hnodup, hmem, -, -⟩ := hb
  have hnot : sym ∉ ordered b := by rwa [← hmem, not_not]
  have hlen := length_le_128_of_nodup (List.nodup_cons.mpr ⟨hnot, hnodup⟩)
  rwa [List.length_cons, length_ordered hle] at hlen

variable (sym)

theorem toNat_ndist_loadCommit (hlt : b.ndist.toNat < 128) :
    (loadCommit b sym).ndist.toNat = b.ndist.toNat + 1 := by
  rw [loadCommit_eq, BitVec.toNat_add]
  exact Nat.mod_eq_of_lt (by simp; omega)

theorem ordered_loadCommit (hlt : b.ndist.toNat < 128) : ordered (loadCommit b sym) = ordered b ++ [sym] := by
  rw [ordered, toNat_ndist_loadCommit sym hlt]
  exact take_succ_setIfInBounds b.order hlt sym

theorem toNat_total_loadCommit (hfit : b.total.toNat + b.arg.toNat ≤ 2 ^ 32 - 1) :
    (loadCommit b sym).total.toNat = b.total.toNat + b.arg.toNat := by
  rw [loadCommit_eq, BitVec.toNat_add]
  exact Nat.mod_eq_of_lt (by omega)

theorem atSym_order_loadCommit {i : Sym} (hi : i.toNat ≠ b.ndist.toNat) :
    atSym (loadCommit b sym).order i = atSym b.order i :=
  Vector.getElem_setIfInBounds_ne _ hi.symm

end

/-- Settles O13: the new symbol takes the free slot at NDIST, and neither NDIST nor TOTAL wraps. -/
theorem freqLoadAppendsOneEntry : Obligations.FreqLoadAppendsOneEntry := by
  intro s sym hb harg hnew hfit
  have hlt := ndist_lt_of_count_eq_zero hb hnew
  have hcount (x : Sym) := atSym_setSym s.blk.count sym x s.blk.arg
  refine ⟨_, exec_of_ok (by nofun) ((freqLoad_ok _ _ _).mpr ⟨harg, hnew, hfit, rfl⟩), hlt,
    (hcount sym).trans (if_pos rfl), fun x hx => (hcount x).trans (if_neg hx), ordered_loadCommit sym hlt,
    fun i => atSym_order_loadCommit sym, toNat_ndist_loadCommit sym hlt, toNat_total_loadCommit sym hfit, rfl, ?_, rfl,
    rfl, ⟨rfl, rfl, rfl, rfl⟩, rfl, fun x => atSym_replicate _ x, rfl⟩
  exact BitVec.toNat_setWidth_of_le (by omega)

end Sys2Proof.Machine
end

section
/-! The order of the frequency list (41_frequency R127 to R132): rounding COUNT / TOTAL to binary64 keeps the order of
counts, so both weight modes sort by count; the synthetic entry is the least; BUILD always has a list of two. -/

namespace Sys2Proof.Machine

open Sys2Proof.Safety

/-! ## Keys -/

theorem f64Scaled_rne_zero (den : Nat) : f64Scaled (rne 0 den) = 0 := by
  have hzero : rne 0 den = 0 := by simp [rne, f64Shift, roundHalfEven]
  rw [hzero]
  rfl

/-- Rounding moves a quotient `num / den` by at most one part in 2^53, since its binade's unit is at most one part in
2^52 of it; said in units of 2^-1074/den. -/
theorem rne_within_one_part {num den : Nat} (hden : 0 < den) (hlow : den < 2 ^ 32) (hnum : num < den * 2 ^ 1023) :
    2 ^ 53 * (f64Scaled (rne num den) * den) ≤ (2 ^ 53 + 1) * (num * f64Unit) ∧
      (2 ^ 53 - 1) * (num * f64Unit) ≤ 2 ^ 53 * (f64Scaled (rne num den) * den) := by
  obtain rfl | hpos := Nat.eq_zero_or_pos num
  · simp [f64Scaled_rne_zero]
  have hunit : 2 ^ 52 * (den * 2 ^ rneShift num den) ≤ num * f64Unit := by
    obtain hk | hk := rneShift_eq_zero_or_le num den
    · rw [hk, pow_zero, mul_one]
      calc 2 ^ 52 * den ≤ 2 ^ 84 := by omega
        _ ≤ f64Unit := pow_le_pow_right₀ one_le_two (by decide)
        _ ≤ num * f64Unit := Nat.le_mul_of_pos_left _ hpos
    · exact hk
  obtain ⟨hhalf, -⟩ := roundHalfEven_within_half (num * f64Unit) (den * 2 ^ rneShift num den) (by positivity)
  have hvalue : f64Scaled (rne num den) * den = rneSignificand num den * (den * 2 ^ rneShift num den) := by
    rw [f64Scaled_rne hden hnum]; ring
  rw [← rneSignificand, ← Nat.cast_mul, ← hvalue] at hhalf
  have habove := le_abs_self (((f64Scaled (rne num den) * den : Nat) : Int) - (num * f64Unit : Nat))
  have hbelow := neg_abs_le (((f64Scaled (rne num den) * den : Nat) : Int) - (num * f64Unit : Nat))
  omega

/-- Quotients of different numerators by one denominator below 2^32 are further apart than rounding moves them
(41_frequency R130). -/
theorem f64Scaled_rne_lt {c c' total : Nat} (hlt : c < c') (hle : c' ≤ total) (htotal : total < 2 ^ 32) :
    f64Scaled (rne c total) < f64Scaled (rne c' total) := by
  have hden : 0 < total := by omega
  have hfin : total < total * 2 ^ 1023 := lt_mul_of_one_lt_right hden (one_lt_pow₀ one_lt_two (by decide))
  obtain ⟨hupper, -⟩ := rne_within_one_part hden htotal (num := c) (by omega)
  obtain ⟨-, hlower⟩ := rne_within_one_part hden htotal (num := c') (by omega)
  have hunit : 0 < f64Unit := by unfold f64Unit; positivity
  have hnext : (c + 1) * f64Unit ≤ c' * f64Unit := Nat.mul_le_mul_right _ hlt
  have hsmall : c * f64Unit ≤ 2 ^ 32 * f64Unit := Nat.mul_le_mul_right _ (by omega)
  rw [Nat.succ_mul] at hnext
  generalize f64Unit = u at *
  refine Nat.lt_of_mul_lt_mul_right (a := total) ?_
  omega

/-- In both weight modes entries are ordered by count (41_frequency R129, R130). -/
theorem leafKey_lt {mode : WeightMode} {total : Nat} {x y : Leaf} (hlt : x.cnt < y.cnt) (hle : y.cnt ≤ total)
    (htotal : total < 2 ^ 32) : leafKey mode total x < leafKey mode total y := by
  cases mode with
  | countExact => exact hlt
  | binary64 => exact f64Scaled_rne_lt hlt hle htotal

theorem leafKey_le_iff {mode : WeightMode} {total : Nat} {x y : Leaf} (hx : x.cnt ≤ total) (hy : y.cnt ≤ total)
    (htotal : total < 2 ^ 32) : leafKey mode total x ≤ leafKey mode total y ↔ x.cnt ≤ y.cnt := by
  obtain hlt | heq | hgt := lt_trichotomy x.cnt y.cnt
  · exact iff_of_true (leafKey_lt hlt hy htotal).le hlt.le
  · exact iff_of_true (by rw [leafKey, leafKey, heq]) heq.le
  · exact iff_of_false (leafKey_lt hgt hx htotal).not_ge hgt.not_ge

theorem leafKey_of_cnt_eq_zero (mode : WeightMode) (total : Nat) (x : Sym) : leafKey mode total ⟨x, 0⟩ = 0 := by
  cases mode with
  | countExact => rfl
  | binary64 => exact f64Scaled_rne_zero total

/-! ## The sort -/

theorem total_leafKey (mode : WeightMode) (total : Nat) :
    Std.Total fun x y : Leaf => leafKey mode total x ≤ leafKey mode total y := ⟨fun _ _ => le_total _ _⟩

theorem isTrans_leafKey (mode : WeightMode) (total : Nat) :
    IsTrans Leaf fun x y => leafKey mode total x ≤ leafKey mode total y := ⟨fun _ _ _ => le_trans⟩

theorem pairwise_sortLeaves (mode : WeightMode) (total : Nat) (ls : List Leaf) :
    (sortLeaves mode total ls).Pairwise fun x y => leafKey mode total x ≤ leafKey mode total y :=
  have := total_leafKey mode total
  have := isTrans_leafKey mode total
  List.pairwise_insertionSort _ ls

/-- Entries in order stay in order: the sort is stable (00_scope R16). -/
theorem pair_sublist_sortLeaves {mode : WeightMode} {total : Nat} {ls : List Leaf} {x y : Leaf}
    (hsub : [x, y].Sublist ls) (hle : leafKey mode total x ≤ leafKey mode total y) :
    [x, y].Sublist (sortLeaves mode total ls) :=
  have := total_leafKey mode total
  have := isTrans_leafKey mode total
  List.pair_sublist_insertionSort hle hsub

/-- Settles O15: the sort orders by key and is stable. -/
theorem freqListIsAStableSort : Obligations.FreqListIsAStableSort :=
  fun b => ⟨freqList_perm b, pairwise_sortLeaves _ _ _, fun _ _ => pair_sublist_sortLeaves⟩

/-- Whether an entry goes before another is the same in both modes, so the sorts take the same steps. -/
theorem sortLeaves_countExact_eq_binary64 {total : Nat} {ls : List Leaf} (htotal : total < 2 ^ 32)
    (hle : ∀ l ∈ ls, l.cnt ≤ total) : sortLeaves .countExact total ls = sortLeaves .binary64 total ls := by
  have hmap := List.map_insertionSort (fun x y => leafKey .countExact total x ≤ leafKey .countExact total y)
    (fun x y => leafKey .binary64 total x ≤ leafKey .binary64 total y) id ls fun x hx y hy => by
      rw [leafKey_le_iff (hle x hx) (hle y hy) htotal]
      exact (leafKey_le_iff (hle x hx) (hle y hy) htotal).symm
  rwa [List.map_id, List.map_id] at hmap

/-- No count of a sound table's list is above TOTAL (41_frequency R131). -/
theorem cnt_le_total {b : Block} (hb : TableInv b) {l : Leaf} (hl : l ∈ listEntries b) : l.cnt ≤ b.total.toNat := by
  rw [← (freqList_perm b).mem_iff] at hl
  rw [← sum_cnt_freqList hb]
  exact List.le_sum_of_mem (List.mem_map_of_mem hl)

/-- Settles O18: both modes sort the entries by count. -/
theorem weightModesSortAlike : Obligations.WeightModesSortAlike :=
  fun b hb => sortLeaves_countExact_eq_binary64 b.total.isLt fun _ => cnt_le_total hb

/-! ## The synthetic entry -/

/-- The table of one symbol `r` has two entries, `r`'s and then that of its successor (41_frequency R127, R128). -/
theorem exists_listEntries_eq_pair {b : Block} (h : b.ndist = 1) :
    ∃ r : Sym, ordered b = [r] ∧ synthSym b = some (r + 1) ∧
      listEntries b = [⟨r, (atSym b.count r).toNat⟩, ⟨r + 1, 0⟩] := by
  have hord : ordered b = [atSym b.order 0] := by
    simp [ordered, h, atSym, List.take_one, List.head?_eq_getElem?]
  have hsynth : synthSym b = some (atSym b.order 0 + 1) := if_pos h
  refine ⟨_, hord, hsynth, ?_⟩
  rw [listEntries_eq, realLeaves_eq, hord, hsynth]
  rfl

theorem synthSym_eq_none {b : Block} (h : b.ndist ≠ 1) : synthSym b = none := if_neg h

theorem sortLeaves_pair {mode : WeightMode} {total : Nat} {x y : Leaf}
    (h : leafKey mode total y < leafKey mode total x) : sortLeaves mode total [x, y] = [y, x] := by
  simp [sortLeaves, h.not_ge]

/-- ORDER lists symbols with a count (10_state R38). -/
theorem count_pos_of_mem_ordered {b : Block} (hb : TableInv b) {x : Sym} (hx : x ∈ ordered b) :
    0 < (atSym b.count x).toNat := by
  obtain ⟨-, -, hmem, -, -⟩ := hb
  exact Nat.pos_of_ne_zero fun h => (hmem x).mpr hx (BitVec.eq_of_toNat_eq h)

/-- Settles O16: the one symbol's count is not 0, so its key is above the synthetic entry's key 0. -/
theorem syntheticLeafComesFirst : Obligations.SyntheticLeafComesFirst := by
  intro b hb
  refine ⟨fun hone => ?_, fun htwo => ?_⟩
  · obtain ⟨r, hord, hsynth, hentries⟩ := exists_listEntries_eq_pair hone
    have hkey : leafKey b.cfg.weightMode b.total.toNat ⟨r + 1, 0⟩ <
        leafKey b.cfg.weightMode b.total.toNat ⟨r, (atSym b.count r).toNat⟩ :=
      leafKey_lt (count_pos_of_mem_ordered hb (by simp [hord])) (cnt_le_total hb (by simp [hentries])) b.total.isLt
    have hzero := leafKey_of_cnt_eq_zero b.cfg.weightMode b.total.toNat (r + 1)
    refine ⟨r, r + 1, hord, BitVec.toNat_add _ _, synthSym_not_mem_ordered hsynth, hsynth, ?_, hzero, hzero ▸ hkey⟩
    rw [freqList, hentries, sortLeaves_pair hkey]
  · have hnone : synthSym b = none := synthSym_eq_none fun h => by simp [h] at htwo
    exact ⟨hnone, by simp [length_freqList_of_tableInv hb, hnone]⟩

/-! ## The length of the list -/

/-- Settles O17: a real entry's count is not 0, because ORDER lists the symbols that have one. -/
theorem freqListHasTwoToAll : Obligations.FreqListHasTwoToAll := by
  intro b hb hne
  obtain ⟨htwo, hall⟩ := length_freqList_bounds hb hne
  refine ⟨?_, htwo, hall, nodup_freqList_sym hb, fun l hl hzero => ?_, sum_cnt_freqList hb⟩
  · rw [length_freqList_of_tableInv hb, synthSym]
    split
    · next h => simp [h]
    · rfl
  · obtain hord | hsynth := (exists_mem_freqList_sym b l.sym).mp ⟨l, hl, rfl⟩
    · rw [cnt_of_mem_freqList hb hl] at hzero
      exact absurd hzero (count_pos_of_mem_ordered hb hord).ne'
    · exact hsynth

/-! ## BUILD -/

/-- A table with an entry has a list of at least two, whatever else the state holds (41_frequency R132). -/
theorem two_le_length_freqList {b : Block} (hne : b.ndist ≠ 0) : 2 ≤ (freqList b).length := by
  have hpos : b.ndist.toNat ≠ 0 := fun h => hne (BitVec.eq_of_toNat_eq h)
  rw [length_freqList]
  split
  · next h => simp [h]
  · next h =>
    have : b.ndist.toNat ≠ 1 := fun h1 => h (BitVec.eq_of_toNat_eq h1)
    omega

/-- Settles O20: BUILD's second check, of the list's length, always passes. -/
theorem buildFailsOnlyOnAnEmptyTable : Obligations.BuildFailsOnlyOnAnEmptyTable := by
  intro s
  refine ⟨fun hzero => exec_of_raise (by nofun) (if_pos hzero), fun hne => ?_⟩
  have hok := (buildTree_ok s.blk _).mpr ⟨hne, two_le_length_freqList hne, rfl⟩
  exact ⟨_, exec_of_ok (by nofun) hok, rfl⟩

end Sys2Proof.Machine
end

section
/-! Runs of the two-queue merge (42_tree_builder R140 to R147): a run grows by one merge at its end, each merge writes
the next node of the tree and queues one node fewer, and the queued count-weight stays the same. -/

namespace Sys2Proof.Machine

open Sys2Proof.Safety

/-! ## A run, one merge at a time -/

/-- The first merge of a run. -/
theorem queuesAfter_succ_eq_bind (mode : WeightMode) (m k : Nat) (q0 : Queues) :
    queuesAfter mode (m + 1) k q0 =
      (mergeOnce mode k q0).bind fun p => queuesAfter mode m (k + 1) p.2 := by
  rw [queuesAfter]
  cases mergeOnce mode k q0 <;> rfl

/-- A run of `m + 1` merges is a run of `m` and one merge more. -/
theorem queuesAfter_succ (mode : WeightMode) (m : Nat) : ∀ (k : Nat) (q0 q' : Queues),
    queuesAfter mode (m + 1) k q0 = some q' ↔
      ∃ q nd, queuesAfter mode m k q0 = some q ∧ mergeOnce mode (k + m) q = some (nd, q') := by
  induction m with
  | zero =>
    intro k q0 q'
    rw [queuesAfter_succ_eq_bind]
    cases h : mergeOnce mode k q0 <;> simp [queuesAfter, h, Prod.ext_iff]
  | succ m ih =>
    intro k q0 q'
    rw [queuesAfter_succ_eq_bind, queuesAfter_succ_eq_bind]
    cases mergeOnce mode k q0 with
    | none => simp
    | some p => simpa [Nat.add_right_comm k 1 m, Nat.add_assoc k m 1] using ih (k + 1) p.2 q'

/-- What holds of the first queues and is kept by each merge of a run holds at every step of the run. -/
theorem queuesAfter_induction {mode : WeightMode} {k : Nat} {q0 : Queues} {P : Nat → Queues → Prop} (start : P 0 q0)
    (merge : ∀ m q q' nd, queuesAfter mode m k q0 = some q → P m q → mergeOnce mode (k + m) q = some (nd, q') →
      P (m + 1) q') : ∀ m q, queuesAfter mode m k q0 = some q → P m q := by
  intro m
  induction m with
  | zero =>
    intro q h
    cases h
    exact start
  | succ m ih =>
    intro q' h
    obtain ⟨q, nd, hq, hnd⟩ := (queuesAfter_succ mode m k q0 q').mp h
    exact merge m q q' nd hq (ih q hq) hnd

/-- Each merge of a run queues one node fewer (42_tree_builder R144). -/
theorem length_queuesAfter {mode : WeightMode} {k m : Nat} {q0 q : Queues} (h : queuesAfter mode m k q0 = some q) :
    q.entries.length + m = q0.entries.length := by
  refine queuesAfter_induction (P := fun m q => q.entries.length + m = q0.entries.length) rfl ?_ m q h
  intro m q q' nd _ hlen hnd
  have := mergeOnce_length mode (k + m) q q' nd hnd
  rw [Queues.length_entries] at hlen ⊢
  omega

/-- A run goes on as long as two nodes are queued, so it can make any number of merges below the number of nodes queued
at first (42_tree_builder R144). -/
theorem exists_queuesAfter (mode : WeightMode) (k : Nat) (q0 : Queues) :
    ∀ m, m < q0.entries.length → ∃ q, queuesAfter mode m k q0 = some q := by
  intro m
  induction m with
  | zero => exact fun _ => ⟨q0, rfl⟩
  | succ m ih =>
    intro hm
    obtain ⟨q, hq⟩ := ih (by omega)
    have hlen := length_queuesAfter hq
    rw [Queues.length_entries] at hlen
    obtain ⟨p, hp⟩ := Option.isSome_iff_exists.mp ((mergeOnce_isSome mode (k + m) q).mpr (by omega))
    exact ⟨p.2, (queuesAfter_succ mode m k q0 p.2).mpr ⟨q, p.1, hq, hp⟩⟩

/-- The queues before a merge hold the two nodes it takes, so the run can still go on. -/
theorem lt_length_of_mergeOnce {mode : WeightMode} {k k' m : Nat} {q0 q : Queues} {p : Node × Queues}
    (hq : queuesAfter mode m k q0 = some q) (hp : mergeOnce mode k' q = some p) : m + 1 < q0.entries.length := by
  have hlen := length_queuesAfter hq
  have htwo := (mergeOnce_isSome mode k' q).mp (by simp [hp])
  rw [Queues.length_entries] at hlen
  omega

/-- No run merges as many times as there are nodes queued at first (42_tree_builder R144). -/
theorem queuesAfter_length_eq_none (mode : WeightMode) (k : Nat) {q0 : Queues} (hpos : 0 < q0.entries.length) :
    queuesAfter mode q0.entries.length k q0 = none := by
  obtain ⟨m, hm⟩ : ∃ m, q0.entries.length = m + 1 := ⟨_, (Nat.succ_pred_eq_of_pos hpos).symm⟩
  rw [hm, Option.eq_none_iff_forall_not_mem]
  intro q' hq'
  obtain ⟨q, nd, hq, hnd⟩ := (queuesAfter_succ mode m k q0 q').mp hq'
  have := lt_length_of_mergeOnce hq hnd
  omega

/-- When one node is left it is the one the last merge queued (42_tree_builder R144). -/
theorem queuesAfter_of_one_left {mode : WeightMode} {k m : Nat} {q0 q : Queues}
    (h : queuesAfter mode (m + 1) k q0 = some q) (hlen : q0.entries.length = m + 2) :
    ∃ r, q = ⟨[], [r]⟩ ∧ r.idx = k + m := by
  have hone := length_queuesAfter h
  obtain ⟨q', nd, -, hnd⟩ := (queuesAfter_succ mode m k q0 q).mp h
  obtain ⟨r, hlast, hidx, -⟩ := mergeOnce_mrg mode (k + m) q' q nd hnd
  obtain ⟨mrg, hmrg⟩ := List.getLast?_eq_some_iff.mp hlast
  rw [Queues.length_entries, hmrg, List.length_append, List.length_singleton] at hone
  have hsrc : q.src = [] := List.eq_nil_of_length_eq_zero (by omega)
  have hnil : mrg = [] := List.eq_nil_of_length_eq_zero (by omega)
  rw [hnil, List.nil_append] at hmrg
  exact ⟨r, congrArg₂ Queues.mk hsrc hmrg, hidx⟩

/-! ## The nodes a run writes -/

/-- The loop's nodes are those of the merges of its run, in order (42_tree_builder R146). -/
theorem getElem?_mergeLoop {mode : WeightMode} {q q' : Queues} {nd : Node} (m : Nat) :
    ∀ {fuel k : Nat} {q0 : Queues}, m < fuel → queuesAfter mode m k q0 = some q →
      mergeOnce mode (k + m) q = some (nd, q') → (mergeLoop mode fuel k q0)[m]? = some nd := by
  induction m with
  | zero =>
    intro fuel k q0 hfuel hq hnd
    obtain ⟨fuel, rfl⟩ := Nat.exists_eq_add_of_lt hfuel
    cases hq
    rw [Nat.zero_add, mergeLoop_succ mode fuel k q q' nd hnd, List.getElem?_cons_zero]
  | succ m ih =>
    intro fuel k q0 hfuel hq hnd
    obtain ⟨fuel, rfl⟩ : ∃ f, fuel = f + 1 := ⟨fuel - 1, by omega⟩
    rw [queuesAfter_succ_eq_bind] at hq
    obtain ⟨p, h, hq⟩ := Option.bind_eq_some_iff.mp hq
    rw [mergeLoop_succ mode fuel k q0 p.2 p.1 h, List.getElem?_cons_succ]
    exact ih (by omega) hq (by rwa [Nat.add_right_comm, Nat.add_assoc])

/-- At the start the leaves are queued (42_tree_builder R140). -/
theorem mem_entries_startQueues (mode : WeightMode) (total : Nat) (ls : List Leaf) (e : QEntry) :
    e ∈ (startQueues mode total ls).entries ↔
      ∃ (i : Nat) (hi : i < ls.length), ⟨i, ls[i].cnt, leafPw mode total ls[i].cnt⟩ = e := by
  simp [startQueues, Queues.entries, List.mem_mapIdx]

section
variable {mode : WeightMode} {total : Nat} {ls : List Leaf} {m : Nat} {q : Queues}
  (hq : queuesAfter mode m ls.length (startQueues mode total ls) = some q)
include hq

/-- Merge `m` writes node `n + m` of the tree (42_tree_builder R146). -/
theorem getElem?_treeNodes_merge {q' : Queues} {nd : Node} (hnd : mergeOnce mode (ls.length + m) q = some (nd, q')) :
    (treeNodes mode total ls)[ls.length + m]? = some nd := by
  have hm := lt_length_of_mergeOnce hq hnd
  rw [length_startQueues] at hm
  rw [treeNodes, List.getElem?_append_right (by simp), List.length_map, Nat.add_sub_cancel_left]
  exact getElem?_mergeLoop m (by omega) hq hnd

/-- A queued node is one of the tree's nodes written so far, and stands on its queue with that node's PW. -/
theorem pw_of_mem_queuesAfter : ∀ e ∈ q.entries,
    e.idx < ls.length + m ∧ ((treeNodes mode total ls).getD e.idx Node.zero).pw = e.pw := by
  refine queuesAfter_induction (P := fun m q => ∀ e ∈ q.entries,
    e.idx < ls.length + m ∧ ((treeNodes mode total ls).getD e.idx Node.zero).pw = e.pw) ?_ ?_ m q hq
  · intro e he
    obtain ⟨i, hi, rfl⟩ := (mem_entries_startQueues mode total ls e).mp he
    exact ⟨hi, congrArg Node.pw (getD_treeNodes_leaf mode total ls hi)⟩
  · intro m q q' nd hq ih hnd e he
    obtain ⟨x, y, rest, hperm, hperm', rfl⟩ := mergeOnce_perm hnd
    obtain rfl | he := List.mem_cons.mp (hperm'.mem_iff.mp he)
    · refine ⟨Nat.lt_succ_self _, ?_⟩
      simp [mergedEntry, combineNode, List.getD_eq_getElem?_getD, getElem?_treeNodes_merge hq hnd]
    · obtain ⟨hlt, hpw⟩ := ih e (hperm.mem_iff.mpr (by simp [he]))
      exact ⟨hlt.trans (Nat.lt_succ_self _), hpw⟩

end

/-- Settles O21: a run of m merges exists for every m < n and queues n - m nodes, so the last merge of a run of n - 1
leaves only the node it queued. -/
theorem mergesEndInOneRoot : Obligations.MergesEndInOneRoot := by
  refine ⟨fun mode x y src mrg => ⟨fun h => if_pos h, fun h => if_neg h.not_ge, rfl, rfl⟩, fun x => ⟨rfl, rfl⟩,
    fun mode k q q1 q2 a b ha hb => ?_, fun mode total ls m q q' nd hq hnd => getElem?_treeNodes_merge hq hnd,
    fun mode total ls htwo => ?_⟩
  · refine ⟨_, (mergeOnce_some mode k q _ _).mpr ⟨a, b, q1, q2, ha, hb, rfl, rfl⟩, rfl, rfl, rfl, rfl, rfl, rfl, ?_⟩
    cases mode with
    | countExact => rfl
    | binary64 => simp only [combineNode, mergedPw, f64Add, f64Unit]
  have hstart := length_startQueues mode total ls
  refine ⟨by rw [length_treeNodes]; omega, ?_, fun m hm => ?_, ?_⟩
  · obtain ⟨m, hm⟩ : ∃ m, ls.length - 1 = m + 1 := ⟨ls.length - 2, by omega⟩
    obtain ⟨q, hq⟩ := exists_queuesAfter mode ls.length (startQueues mode total ls) (m + 1) (by omega)
    obtain ⟨r, hroot, hidx⟩ := queuesAfter_of_one_left hq (by omega)
    exact ⟨q, r, by rwa [hm], hroot, by omega⟩
  · obtain ⟨q, hq⟩ := exists_queuesAfter mode ls.length (startQueues mode total ls) m (by omega)
    have hlen := length_queuesAfter hq
    rw [Queues.length_entries] at hlen
    exact ⟨q, hq, by omega⟩
  · have hnone := queuesAfter_length_eq_none mode ls.length (q0 := startQueues mode total ls) (by omega)
    rwa [hstart] at hnone

/-! ## The queued count-weight -/

theorem queuedWeight_startQueues (mode : WeightMode) (total : Nat) (ls : List Leaf) :
    queuedWeight (startQueues mode total ls) = (ls.map Leaf.cnt).sum := by
  have hcw : (startQueues mode total ls).entries.map QEntry.cw = ls.map Leaf.cnt := by
    apply List.ext_getElem <;> simp [startQueues, Queues.entries]
  exact congrArg List.sum hcw

/-- A merge queues the exact sum of the two weights it takes (42_tree_builder R143, R147). -/
theorem queuedWeight_mergeOnce {mode : WeightMode} {k : Nat} {q q' : Queues} {nd : Node}
    (h : mergeOnce mode k q = some (nd, q')) : queuedWeight q' = queuedWeight q := by
  obtain ⟨x, y, rest, hperm, hperm', -⟩ := mergeOnce_perm h
  calc queuedWeight q' = ((mergedEntry mode k x y :: rest).map QEntry.cw).sum := (hperm'.map QEntry.cw).sum_eq
    _ = ((x :: y :: rest).map QEntry.cw).sum := by simp [mergedEntry, Nat.add_assoc]
    _ = queuedWeight q := (hperm.map QEntry.cw).sum_eq.symm

/-- Settles O22: no merge of a run changes the queued weight. -/
theorem mergesConserveWeight : Obligations.MergesConserveWeight := by
  intro mode total ls m q hq
  refine queuesAfter_induction (P := fun _ q => queuedWeight q = (ls.map Leaf.cnt).sum)
    (queuedWeight_startQueues mode total ls) ?_ m q hq
  intro m q q' nd _ hsum hnd
  rw [queuedWeight_mergeOnce hnd, hsum]

end Sys2Proof.Machine
end

section
/-! The order of the merged queue (42_tree_builder R145): what two selections take is at most every key left, and a
merged node's key, exact or rounded, grows with theirs and is at least theirs. -/

namespace Sys2Proof.Machine

open Sys2Proof.Safety

/-! ## Rounding -/

theorem f64Unit_pos : 0 < f64Unit := by
  unfold f64Unit
  positivity

theorem zero_finite : (0 : BitVec 64).toNat < 2047 * 2 ^ 52 := by decide

/-- If `v` is nearest to `x` and `v'` to a greater `x'`, each of the two at least as near as the other, then they are in
order. -/
theorem le_of_nearest {v v' x x' : Int} (hlt : x < x') (h : |v - x| ≤ |v' - x|) (h' : |v' - x'| ≤ |v - x'|) :
    v ≤ v' := by
  rw [← sq_le_sq] at h h'
  nlinarith

/-- Rounding does not reverse an order: two quotients whose roundings changed places would each be nearer to the other's
(00_scope R15). -/
theorem f64Scaled_rne_mono {num num' den : Nat} (hden : 0 < den) (hle : num ≤ num') (hfit : num' < den * 2 ^ 1023) :
    f64Scaled (rne num den) ≤ f64Scaled (rne num' den) := by
  obtain rfl | hlt := hle.eq_or_lt
  · exact le_rfl
  obtain ⟨hfin', hnear', -⟩ := roundingIsNearestEven num' den (rne num den) hden hfit
    (rne_finite hden (hlt.trans hfit))
  obtain ⟨-, hnear, -⟩ := roundingIsNearestEven num den (rne num' den) hden (hlt.trans hfit) hfin'
  rw [← f64Unit] at hnear hnear'
  have hnum : num * f64Unit < num' * f64Unit := Nat.mul_lt_mul_of_pos_right hlt f64Unit_pos
  exact Nat.le_of_mul_le_mul_right (Int.ofNat_le.mp (le_of_nearest (Int.ofNat_lt.mpr hnum) hnear hnear')) hden

/-- Rounding at most doubles: 0 is no nearer than the rounded value. -/
theorem f64Scaled_rne_mul_le {num den : Nat} (hden : 0 < den) (hfit : num < den * 2 ^ 1023) :
    f64Scaled (rne num den) * den ≤ 2 * (num * f64Unit) := by
  obtain ⟨-, hnear, -⟩ := roundingIsNearestEven num den 0 hden hfit zero_finite
  have hzero : f64Scaled 0 = 0 := rfl
  rw [hzero, Nat.zero_mul, ← f64Unit, Nat.cast_zero, zero_sub, abs_neg, Nat.abs_cast] at hnear
  have := le_abs_self (((f64Scaled (rne num den) * den : Nat) : Int) - (num * f64Unit : Nat))
  omega

/-- The sum of two values rounds to no less than either: that one is itself a finite value. -/
theorem le_f64Scaled_rne_add {p : BitVec 64} {x : Nat} (hp : p.toNat < 2047 * 2 ^ 52)
    (hfit : x + f64Scaled p < f64Unit * 2 ^ 1023) : f64Scaled p ≤ f64Scaled (rne (x + f64Scaled p) f64Unit) := by
  obtain ⟨-, hnear, -⟩ := roundingIsNearestEven _ f64Unit p f64Unit_pos hfit hp
  have hge : f64Scaled p * f64Unit ≤ (x + f64Scaled p) * f64Unit := Nat.mul_le_mul_right _ (Nat.le_add_left _ _)
  rw [← f64Unit, abs_of_nonpos (sub_nonpos.mpr (Int.ofNat_le.mpr hge))] at hnear
  have := neg_le_of_abs_le hnear
  refine Nat.le_of_mul_le_mul_right ?_ f64Unit_pos
  omega

/-! ## The key of a merged node -/

/-- The key of a node merged of nodes with the keys `x` and `y` (42_tree_builder R143). -/
def sumKey (mode : WeightMode) (x y : Nat) : Nat :=
  match mode with
  | .countExact => x + y
  | .binary64 => f64Scaled (rne (x + y) f64Unit)

theorem key_mergedEntry (mode : WeightMode) (k : Nat) (a b : QEntry) :
    (mergedEntry mode k a b).key mode = sumKey mode (a.key mode) (b.key mode) := by
  cases mode <;> simp only [mergedEntry, QEntry.key, weightKey, mergedPw, f64Add, sumKey]

theorem sumKey_mono {mode : WeightMode} {x x' y y' : Nat} (hx : x ≤ x') (hy : y ≤ y')
    (hfit : x' + y' < f64Unit * 2 ^ 1023) : sumKey mode x y ≤ sumKey mode x' y' := by
  cases mode with
  | countExact => exact Nat.add_le_add hx hy
  | binary64 => exact f64Scaled_rne_mono f64Unit_pos (Nat.add_le_add hx hy) hfit

/-- Rounded or not, a sum of keys is at most twice the exact sum. -/
theorem sumKey_le {mode : WeightMode} {x y : Nat} (hfit : x + y < f64Unit * 2 ^ 1023) :
    sumKey mode x y ≤ 2 * (x + y) := by
  cases mode with
  | countExact => exact Nat.le_mul_of_pos_left _ two_pos
  | binary64 =>
    refine Nat.le_of_mul_le_mul_right ?_ f64Unit_pos
    rw [Nat.mul_assoc]
    exact f64Scaled_rne_mul_le f64Unit_pos hfit

/-- A merged node's key is at least that of its second child. -/
theorem key_le_sumKey {mode : WeightMode} {e : QEntry} {x : Nat} (he : e.pw.toNat < 2047 * 2 ^ 52)
    (hfit : x + e.key mode < f64Unit * 2 ^ 1023) : e.key mode ≤ sumKey mode x (e.key mode) := by
  cases mode with
  | countExact => exact Nat.le_add_left _ _
  | binary64 => exact le_f64Scaled_rne_add he hfit

/-! ## Keys stay small enough to round -/

/-- A queued node whose PW is a finite value and whose key is at most a bound. -/
structure QEntry.Bounded (mode : WeightMode) (bound : Nat) (e : QEntry) : Prop where
  pw_finite : e.pw.toNat < 2047 * 2 ^ 52
  key_le : e.key mode ≤ bound

/-- A merged node's key is at most four times the bound of the two, if rounding their sum is finite. -/
theorem QEntry.Bounded.merged {mode : WeightMode} {bound k : Nat} {a b : QEntry} (ha : a.Bounded mode bound)
    (hb : b.Bounded mode bound) (hfit : 2 * bound < f64Unit * 2 ^ 1023) :
    (mergedEntry mode k a b).Bounded mode (4 * bound) := by
  obtain ⟨-, hakey⟩ := ha
  obtain ⟨-, hbkey⟩ := hb
  have hsum : a.key mode + b.key mode < f64Unit * 2 ^ 1023 := by omega
  refine ⟨?_, ?_⟩
  · cases mode with
    | countExact => exact zero_finite
    | binary64 =>
      simp only [mergedEntry, mergedPw, f64Add]
      exact rne_finite f64Unit_pos hsum
  · have := sumKey_le (mode := mode) hsum
    rw [key_mergedEntry]
    omega

/-- The bound of the keys queued after `m` merges: each merge at most quadruples the greatest key. -/
def keyBound (m : Nat) : Nat := f64Unit * 2 ^ (2 * m + 1)

theorem keyBound_succ (m : Nat) : keyBound (m + 1) = 4 * keyBound m := by
  unfold keyBound
  ring

/-- In 128 merges no key passes half of the values that a rounded sum can have. -/
theorem two_mul_keyBound_lt {m : Nat} (hm : m ≤ 128) : 2 * keyBound m < f64Unit * 2 ^ 1023 := by
  have hpow : 2 ^ (2 * m + 1 + 1) < 2 ^ 1023 := pow_lt_pow_right₀ one_lt_two (by omega)
  rw [keyBound, Nat.mul_left_comm, ← pow_succ']
  exact Nat.mul_lt_mul_of_pos_left hpow f64Unit_pos

/-- A leaf's key is its count, or its share of TOTAL, which rounding at most doubles (41_frequency R129). -/
theorem bounded_leaf (mode : WeightMode) {total : Nat} (i : Nat) {l : Leaf} (hle : l.cnt ≤ total)
    (htotal : total < 2 ^ 32) :
    (QEntry.mk i l.cnt (leafPw mode total l.cnt)).Bounded mode (keyBound 0) := by
  have hbound : keyBound 0 = 2 * f64Unit := by simp [keyBound, mul_comm]
  rw [hbound]
  cases mode with
  | countExact =>
    refine ⟨zero_finite, ?_⟩
    calc l.cnt ≤ 2 ^ 32 := hle.trans htotal.le
      _ ≤ f64Unit := pow_le_pow_right₀ one_le_two (by decide)
      _ ≤ 2 * f64Unit := Nat.le_mul_of_pos_left _ two_pos
  | binary64 =>
    obtain rfl | hden := Nat.eq_zero_or_pos total
    · exact ⟨by simp [leafPw, rne], by simp [QEntry.key, weightKey, leafPw, rne, f64Scaled]⟩
    have hfit : l.cnt < total * 2 ^ 1023 :=
      hle.trans_lt (lt_mul_of_one_lt_right hden (one_lt_pow₀ one_lt_two (by decide)))
    refine ⟨rne_finite hden hfit, Nat.le_of_mul_le_mul_right ?_ hden⟩
    calc f64Scaled (rne l.cnt total) * total ≤ 2 * (l.cnt * f64Unit) := f64Scaled_rne_mul_le hden hfit
      _ ≤ 2 * (total * f64Unit) := Nat.mul_le_mul_left _ (Nat.mul_le_mul_right _ hle)
      _ = 2 * f64Unit * total := by ring

/-! ## Selection from ordered queues -/

/-- Both queues in ascending order of their keys. -/
structure Queues.Ascending (mode : WeightMode) (q : Queues) : Prop where
  src : q.src.Pairwise fun x y => x.key mode ≤ y.key mode
  mrg : q.mrg.Pairwise fun x y => x.key mode ≤ y.key mode

theorem key_le_of_le_head {mode : WeightMode} {key : Nat} {es : List QEntry}
    (hes : es.Pairwise fun x y => x.key mode ≤ y.key mode) (hhead : ∀ y, es.head? = some y → key ≤ y.key mode) :
    ∀ e ∈ es, key ≤ e.key mode := by
  cases es with
  | nil => nofun
  | cons y es =>
    have hy := hhead y rfl
    exact List.forall_mem_cons.mpr ⟨hy, fun e he => hy.trans ((List.pairwise_cons.mp hes).1 e he)⟩

/-- The key of what `select()` takes of ordered queues is the least, and they stay ordered (42_tree_builder R142). -/
theorem Queues.Ascending.select {mode : WeightMode} {q q' : Queues} {x : QEntry} (hq : q.Ascending mode)
    (h : selectFront mode q = some (x, q')) : q'.Ascending mode ∧ ∀ e ∈ q'.entries, x.key mode ≤ e.key mode := by
  obtain ⟨hsrc, hmrg⟩ := hq
  obtain ⟨rfl, hfront⟩ | ⟨rfl, hfront⟩ := (selectFront_some mode q q' x).mp h
  · obtain ⟨hrest, hsrc⟩ := List.pairwise_cons.mp hsrc
    refine ⟨⟨hsrc, hmrg⟩, fun e he => ?_⟩
    obtain he | he := List.mem_append.mp he
    · exact hrest e he
    · exact key_le_of_le_head hmrg hfront e he
  · obtain ⟨hrest, hmrg⟩ := List.pairwise_cons.mp hmrg
    refine ⟨⟨hsrc, hmrg⟩, fun e he => ?_⟩
    obtain he | he := List.mem_append.mp he
    · exact key_le_of_le_head hsrc (fun y hy => (hfront y hy).le) e he
    · exact hrest e he

/-- A selection queues nothing. -/
theorem mrg_subset_of_selectFront {mode : WeightMode} {q q' : Queues} {x : QEntry}
    (h : selectFront mode q = some (x, q')) : q'.mrg ⊆ q.mrg := by
  obtain ⟨rfl, -⟩ | ⟨rfl, -⟩ := (selectFront_some mode q q' x).mp h
  · exact List.Subset.refl _
  · exact List.subset_cons_self _ _

/-- A merge of ordered queues takes the two nodes of the least keys, in order (42_tree_builder R142). -/
theorem Queues.Ascending.mergeOnce {mode : WeightMode} {k : Nat} {q q' : Queues} {nd : Node} (hq : q.Ascending mode)
    (h : Machine.mergeOnce mode k q = some (nd, q')) : ∃ (a b : QEntry) (q2 : Queues),
      q.entries.Perm (a :: b :: q2.entries) ∧
      a.key mode ≤ b.key mode ∧ (∀ e ∈ q2.entries, b.key mode ≤ e.key mode) ∧ q2.Ascending mode ∧ q2.mrg ⊆ q.mrg ∧
      q' = ⟨q2.src, q2.mrg ++ [mergedEntry mode k a b]⟩ := by
  obtain ⟨a, b, q1, q2, ha, hb, -, rfl⟩ := (mergeOnce_some mode k q q' nd).mp h
  obtain ⟨hasc1, hleast1⟩ := hq.select ha
  obtain ⟨hasc2, hleast2⟩ := hasc1.select hb
  have hperm := selectFront_perm hb
  exact ⟨a, b, q2, (selectFront_perm ha).trans (hperm.cons a), hleast1 b (hperm.mem_iff.mpr (by simp)), hleast2, hasc2,
    List.Subset.trans (mrg_subset_of_selectFront hb) (mrg_subset_of_selectFront ha), rfl⟩

/-! ## The order of MRG -/

/-- What a run keeps (42_tree_builder R145): the queues are in order, and some `floor`, the key selected last, is at
most every key queued, while no merged node's key is above that of two keys `floor`. -/
structure MergeOrder (mode : WeightMode) (m : Nat) (q : Queues) : Prop where
  ascending : q.Ascending mode
  bounded : ∀ e ∈ q.entries, e.Bounded mode (keyBound m)
  floor : ∃ floor, (∀ e ∈ q.entries, floor ≤ e.key mode) ∧ ∀ e ∈ q.mrg, e.key mode ≤ sumKey mode floor floor

theorem mergeOrder_startQueues {mode : WeightMode} {total : Nat} {ls : List Leaf} (hcnt : (ls.map Leaf.cnt).sum ≤ total)
    (htotal : total < 2 ^ 32) (hls : ls.Pairwise fun x y => leafKey mode total x ≤ leafKey mode total y) :
    MergeOrder mode 0 (startQueues mode total ls) where
  ascending.src := by
    rw [startQueues, List.pairwise_iff_getElem]
    intro i j hi hj hij
    rw [List.getElem_mapIdx, List.getElem_mapIdx]
    exact List.pairwise_iff_getElem.mp hls i j (by simpa using hi) (by simpa using hj) hij
  ascending.mrg := .nil
  bounded e he := by
    obtain ⟨i, hi, rfl⟩ := (mem_entries_startQueues mode total ls e).mp he
    exact bounded_leaf mode i ((List.le_sum_of_mem (List.mem_map_of_mem (List.getElem_mem hi))).trans hcnt) htotal
  floor := ⟨0, fun _ _ => Nat.zero_le _, nofun⟩

/-- A merge keeps the order of MRG: the keys it takes are at least those of the merge before, so its node's key is at
least every merged key, and at least the keys it took (42_tree_builder R145). -/
theorem MergeOrder.merge {mode : WeightMode} {m k : Nat} {q q' : Queues} {nd : Node} (hq : MergeOrder mode m q)
    (hm : m ≤ 128) (h : mergeOnce mode k q = some (nd, q')) : MergeOrder mode (m + 1) q' := by
  obtain ⟨hasc, hbound, floor, hfloor, hceil⟩ := hq
  obtain ⟨a, b, q2, hperm, hab, hleast, hasc2, hsub, rfl⟩ := hasc.mergeOnce h
  have hamem : a ∈ q.entries := hperm.mem_iff.mpr (by simp)
  have hbmem : b ∈ q.entries := hperm.mem_iff.mpr (by simp)
  have hrest (e : QEntry) (he : e ∈ q2.entries) : e ∈ q.entries := hperm.mem_iff.mpr (by simp [he])
  have hfit : 2 * keyBound m < f64Unit * 2 ^ 1023 := two_mul_keyBound_lt hm
  have hakey := (hbound a hamem).key_le
  have hbkey := (hbound b hbmem).key_le
  have hnew : (mergedEntry mode k a b).key mode = sumKey mode (a.key mode) (b.key mode) := key_mergedEntry mode k a b
  have hge : b.key mode ≤ sumKey mode (a.key mode) (b.key mode) :=
    key_le_sumKey (hbound b hbmem).pw_finite (by omega)
  have hmrg (e : QEntry) (he : e ∈ q2.mrg) : e.key mode ≤ sumKey mode (a.key mode) (b.key mode) :=
    calc e.key mode
      _ ≤ sumKey mode floor floor := hceil e (hsub he)
      _ ≤ sumKey mode (a.key mode) (b.key mode) := sumKey_mono (hfloor a hamem) (hfloor b hbmem) (by omega)
  have hentries : ∀ e ∈ (⟨q2.src, q2.mrg ++ [mergedEntry mode k a b]⟩ : Queues).entries,
      e ∈ q2.entries ∨ e = mergedEntry mode k a b := by
    simp [Queues.entries, or_assoc]
  refine ⟨⟨hasc2.src, ?_⟩, fun e he => ?_, b.key mode, fun e he => ?_, fun e he => ?_⟩
  · refine List.pairwise_append.mpr ⟨hasc2.mrg, List.pairwise_singleton _ _, fun e he e' he' => ?_⟩
    rw [List.mem_singleton.mp he', hnew]
    exact hmrg e he
  · obtain he | rfl := hentries e he
    · obtain ⟨hfin, hle⟩ := hbound e (hrest e he)
      exact ⟨hfin, by rw [keyBound_succ]; omega⟩
    · rw [keyBound_succ]
      exact (hbound a hamem).merged (hbound b hbmem) hfit
  · obtain he | rfl := hentries e he
    · exact hleast e he
    · exact hnew ▸ hge
  · have hle : sumKey mode (a.key mode) (b.key mode) ≤ sumKey mode (b.key mode) (b.key mode) :=
      sumKey_mono hab le_rfl (by omega)
    obtain he | he := List.mem_append.mp he
    · exact (hmrg e he).trans hle
    · rw [List.mem_singleton.mp he, hnew]
      exact hle

/-- Settles O23: each merge appends a key that is at least all before it. -/
theorem mergedQueueNeverDecreases : Obligations.MergedQueueNeverDecreases := by
  intro mode total ls m q hlen hcnt htotal hls hq
  refine (queuesAfter_induction (P := MergeOrder mode) (mergeOrder_startQueues hcnt htotal hls) ?_ m q hq).ascending.mrg
  intro m q q' nd hq hord hnd
  have := lt_length_of_mergeOnce hq hnd
  rw [length_startQueues] at this
  exact hord.merge (by omega) hnd

end Sys2Proof.Machine
end

section
/-! What BUILD publishes (42_tree_builder R141 to R148): the tree of the merge entry by entry, the binary64 weights of
its nodes, and that it depends on ORDER, the counts and the weight mode alone. -/

namespace Sys2Proof.Machine

open Sys2Proof.Safety

/-! ## The PW of BUILD's nodes -/

/-- An internal node is the combination of the two nodes its merge took, and their PWs are those of its children
(42_tree_builder R143). -/
theorem exists_combineNode_treeNodes (mode : WeightMode) (total : Nat) {ls : List Leaf} (hls : ls.length ≤ 128)
    {k : Nat} (hk : ls.length ≤ k) (hlt : k < 2 * ls.length - 1) :
    ∃ x y, (treeNodes mode total ls).getD k Node.zero = combineNode mode x y ∧
      ((treeNodes mode total ls).getD (combineNode mode x y).left.toNat Node.zero).pw = x.pw ∧
      ((treeNodes mode total ls).getD (combineNode mode x y).right.toNat Node.zero).pw = y.pw := by
  obtain ⟨m, rfl⟩ := Nat.exists_eq_add_of_le hk
  have hstart := length_startQueues mode total ls
  obtain ⟨q, hq⟩ := exists_queuesAfter mode ls.length (startQueues mode total ls) m (by omega)
  have hlen := length_queuesAfter hq
  rw [Queues.length_entries] at hlen
  obtain ⟨⟨nd, q'⟩, hnd⟩ := Option.isSome_iff_exists.mp ((mergeOnce_isSome mode (ls.length + m) q).mpr (by omega))
  obtain ⟨x, y, rest, hperm, -, rfl⟩ := mergeOnce_perm hnd
  obtain ⟨hxidx, hxpw⟩ := pw_of_mem_queuesAfter hq x (hperm.mem_iff.mpr (by simp))
  obtain ⟨hyidx, hypw⟩ := pw_of_mem_queuesAfter hq y (hperm.mem_iff.mpr (by simp))
  have hnode : (treeNodes mode total ls).getD (ls.length + m) Node.zero = combineNode mode x y := by
    rw [List.getD_eq_getElem?_getD, getElem?_treeNodes_merge hq hnd, Option.getD_some]
  have hleft : (combineNode mode x y).left.toNat = x.idx := Nat.mod_eq_of_lt (by omega)
  have hright : (combineNode mode x y).right.toNat = y.idx := Nat.mod_eq_of_lt (by omega)
  exact ⟨x, y, hnode, hleft ▸ hxpw, hright ▸ hypw⟩

section
variable {b : Block} (hb : TableInv b) (hne : b.ndist ≠ 0)
include hb

/-- A leaf's CW holds its count whole (42_tree_builder R141). -/
theorem toNat_cw_leafNode {l : Leaf} (hl : l ∈ freqList b) (mode : WeightMode) :
    (leafNode mode b.total.toNat l).cw.toNat = l.cnt := by
  have hlt := (atSym b.count l.sym).isLt
  rw [← cnt_of_mem_freqList hb hl] at hlt
  exact Nat.mod_eq_of_lt hlt

/-- The leaves are the list's entries, symbols and counts (42_tree_builder R146). -/
theorem getElem?_freqList_of_leaf {k : BitVec 8} (hk : k.toNat < (freqList b).length) :
    (freqList b)[k.toNat]? =
      some ⟨(atNode (buildCommit b).node k).sym, (atNode (buildCommit b).node k).cw.toNat⟩ := by
  rw [atNode_buildCommit_leaf b hk, toNat_cw_leafNode hb (List.getElem_mem hk)]
  exact List.getElem?_eq_getElem hk

include hne

/-- A leaf's PW is that of its count (41_frequency R129, 42_tree_builder R141). -/
theorem pw_buildCommit_leaf {k : BitVec 8} (hleaf : (atNode (buildCommit b).node k).leaf = true) :
    (atNode (buildCommit b).node k).pw =
      leafPw b.cfg.weightMode b.total.toNat (atNode (buildCommit b).node k).cw.toNat := by
  have hk := lt_of_leaf_buildCommit hb hne hleaf
  rw [atNode_buildCommit_leaf b hk, toNat_cw_leafNode hb (List.getElem_mem hk)]
  rfl

/-- An internal node's PW is the merged PW of its children's (42_tree_builder R143). -/
theorem pw_buildCommit_internal {k : BitVec 8} (hused : (atNode (buildCommit b).node k).used = true)
    (hleaf : (atNode (buildCommit b).node k).leaf = false) :
    ∃ x y, (atNode (buildCommit b).node k).pw = mergedPw b.cfg.weightMode x y ∧
      (atNode (buildCommit b).node (atNode (buildCommit b).node k).left).pw = x.pw ∧
      (atNode (buildCommit b).node (atNode (buildCommit b).node k).right).pw = y.pw := by
  rw [used_buildCommit hb hne, decide_eq_true_eq] at hused
  rw [leaf_buildCommit hb hne, decide_eq_false_iff_not, not_lt] at hleaf
  obtain ⟨x, y, hnode, hleft, hright⟩ := exists_combineNode_treeNodes b.cfg.weightMode b.total.toNat
    (length_freqList_bounds hb hne).2 hleaf hused
  refine ⟨x, y, ?_⟩
  simp only [atNode_buildCommit, hnode]
  exact ⟨rfl, hleft, hright⟩

/-- Merge `m` writes NODE `n + m` (42_tree_builder R146). -/
theorem atNode_buildCommit_merge {m : Nat} {q q' : Queues} {nd : Node}
    (hq : queuesAfter b.cfg.weightMode m (freqList b).length
      (startQueues b.cfg.weightMode b.total.toNat (freqList b)) = some q)
    (hnd : mergeOnce b.cfg.weightMode ((freqList b).length + m) q = some (nd, q')) :
    atNode (buildCommit b).node (BitVec.ofNat 8 ((freqList b).length + m)) = nd := by
  have hle := (length_freqList_bounds hb hne).2
  have hm := lt_length_of_mergeOnce hq hnd
  rw [length_startQueues] at hm
  have hval : (BitVec.ofNat 8 ((freqList b).length + m)).toNat = (freqList b).length + m :=
    Nat.mod_eq_of_lt (by omega)
  rw [atNode_buildCommit, hval, List.getD_eq_getElem?_getD, getElem?_treeNodes_merge hq hnd, Option.getD_some]

end

/-- Settles O19: BUILD's commit is a complete tree, whose entries are the nodes of the merge. -/
theorem buildPublishesACompleteTree : Obligations.BuildPublishesACompleteTree := by
  intro s hb hne
  have hle := (length_freqList_bounds hb hne).2
  have hnleaf := toNat_nleaf_buildCommit hb hne
  refine ⟨_, exec_of_ok (by nofun) ((buildTree_ok _ _).mpr ⟨hne, two_le_length_freqList hne, rfl⟩), rfl,
    treeNumbering_buildCommit hb hne, treeStructure_buildCommit hb hne, treeLeaves_buildCommit hb hne,
    treeWeights_buildCommit hb hne, atNode_buildCommit s.blk, fun m q q' nd hq hnd => ?_, fun k hk => ?_,
    fun k hleaf => ?_, fun k hused hleaf => ?_, rfl, fun x => atSym_replicate _ x, rfl, ?_, ?_, rfl⟩
  · exact atNode_buildCommit_merge hb hne hq hnd
  · exact getElem?_freqList_of_leaf hb (hnleaf ▸ hk)
  · refine (pw_buildCommit_leaf hb hne hleaf).trans ?_
    cases s.blk.cfg.weightMode <;> rfl
  · obtain ⟨x, y, hpw, hleft, hright⟩ := pw_buildCommit_internal hb hne hused hleaf
    refine hpw.trans ?_
    dsimp only [complete]
    rw [hleft, hright]
    cases s.blk.cfg.weightMode with
    | countExact => rfl
    | binary64 => simp only [mergedPw, f64Add, f64Unit]
  · exact (Nat.mod_eq_of_lt (by omega)).trans hnleaf.symm
  · have hnodes := length_treeNodes s.blk.cfg.weightMode s.blk.total.toNat (freqList s.blk)
    refine (Nat.mod_eq_of_lt (by omega)).trans ?_
    show _ = 2 * (buildCommit s.blk).nleaf.toNat - 1
    omega

/-! ## BUILD's inputs -/

section
variable {b b' : Block} (hb : TableInv b) (hb' : TableInv b') (hord : ordered b = ordered b')
include hb hb' hord

/-- NDIST is the length of the list in ORDER (10_state R33). -/
theorem ndist_congr : b.ndist = b'.ndist := by
  obtain ⟨hle, -⟩ := hb
  obtain ⟨hle', -⟩ := hb'
  apply BitVec.eq_of_toNat_eq
  rw [← length_ordered hle, hord, length_ordered hle']

/-- The synthetic symbol is the successor of the only one in ORDER (41_frequency R128). -/
theorem synthSym_congr : synthSym b = synthSym b' := by
  have hndist := ndist_congr hb hb' hord
  by_cases hone : b.ndist = 1
  · obtain ⟨r, hr, hsynth, -⟩ := exists_listEntries_eq_pair hone
    obtain ⟨r', hr', hsynth', -⟩ := exists_listEntries_eq_pair (hndist ▸ hone : b'.ndist = 1)
    rw [hord, hr', List.singleton_inj] at hr
    rw [hsynth, hsynth', hr]
  · rw [synthSym_eq_none hone, synthSym_eq_none (hndist ▸ hone)]

variable (hcount : ∀ x ∈ ordered b, atSym b.count x = atSym b'.count x)
include hcount

theorem listEntries_congr : listEntries b = listEntries b' := by
  have hreal : realLeaves b = realLeaves b' := by
    rw [realLeaves_eq, realLeaves_eq, ← hord]
    exact List.map_congr_left fun x hx => by rw [hcount x hx]
  rw [listEntries_eq, listEntries_eq, hreal, synthSym_congr hb hb' hord]

/-- TOTAL is the sum of the list's counts (41_frequency R131). -/
theorem total_congr : b.total = b'.total := by
  apply BitVec.eq_of_toNat_eq
  rw [← sum_cnt_freqList hb, ← sum_cnt_freqList hb', ((freqList_perm b).map Leaf.cnt).sum_eq,
    ((freqList_perm b').map Leaf.cnt).sum_eq, listEntries_congr hb hb' hord hcount]

end

/-- Settles O24: BUILD reads its sorted list, TOTAL, the weight mode and the synthetic symbol, and all of them are the
same in two blocks with the same ORDER, counts and mode. -/
theorem buildDependsOnlyOnOrderedCounts : Obligations.BuildDependsOnlyOnOrderedCounts := by
  intro s s' hb hb' hne hmode hord hcount
  have hsynth := synthSym_congr hb hb' hord
  have htotal := total_congr hb hb' hord hcount
  have hlist : freqList s.blk = freqList s'.blk := by
    rw [freqList, freqList, hmode, htotal, listEntries_congr hb hb' hord hcount]
  have hne' : s'.blk.ndist ≠ 0 := ndist_congr hb hb' hord ▸ hne
  refine ⟨_, _, exec_of_ok (by nofun) ((buildTree_ok _ _).mpr ⟨hne, two_le_length_freqList hne, rfl⟩),
    exec_of_ok (by nofun) ((buildTree_ok _ _).mpr ⟨hne', two_le_length_freqList hne', rfl⟩), ?_, ?_, ?_, hsynth⟩
  all_goals simp only [complete, buildCommit_eq, hmode, htotal, hlist]

end Sys2Proof.Machine
end

section
/-! The codes as paths (43_code_table R161 to R167): every node of a sound tree has one parent, so a symbol has one path
from the root, which is its code; what GEN_CODES commits, that no code begins another, the Kraft sum, and a single
symbol's codes. -/

namespace Sys2Proof.Machine

open Sys2Proof.Safety

/-! ## The one path to a node -/

/-- `path` descends from the root to node `k` through internal nodes (43_code_table R162). -/
inductive PathTo (b : Block) : List Bool → BitVec 8 → Prop
  | root : PathTo b [] b.root
  | child {path : List Bool} {k : BitVec 8} (bit : Bool) (hpath : PathTo b path k)
      (hleaf : (atNode b.node k).leaf = false) : PathTo b (path ++ [bit]) (childOf (atNode b.node k) bit)

theorem mem_parents_childOf {b : Block} {k : BitVec 8} (hused : (atNode b.node k).used = true)
    (hleaf : (atNode b.node k).leaf = false) (bit : Bool) : k.toNat ∈ parents b (childOf (atNode b.node k) bit) := by
  cases bit <;> simp [parents, childOf, hused, hleaf, k.isLt]

section
variable {b : Block} (hnum : TreeNumbering b) (hstruct : TreeStructure b)
include hnum hstruct

/-- A child is below the root, which has the greatest index (42_tree_builder R146). -/
theorem childOf_lt_root {k : BitVec 8} (hused : (atNode b.node k).used = true)
    (hleaf : (atNode b.node k).leaf = false) (bit : Bool) :
    (childOf (atNode b.node k) bit).toNat < b.root.toNat := by
  have hlt := childOf_lt hstruct hused hleaf bit
  rw [used_iff_lt_of_treeNumbering hnum] at hused
  obtain ⟨-, -, hroot, -⟩ := hnum
  omega

/-- A node is the child of one internal node, by one bit (10_state R40). -/
theorem parent_unique {k k' : BitVec 8} {bit bit' : Bool} (hused : (atNode b.node k).used = true)
    (hleaf : (atNode b.node k).leaf = false) (hused' : (atNode b.node k').used = true)
    (hleaf' : (atNode b.node k').leaf = false)
    (hchild : childOf (atNode b.node k) bit = childOf (atNode b.node k') bit') : k = k' ∧ bit = bit' := by
  have hbelow := childOf_lt_root hnum hstruct hused hleaf bit
  obtain ⟨-, hinternal, hparents⟩ := hstruct
  obtain ⟨q, hq⟩ := List.length_eq_one_iff.mp (hparents _ hbelow)
  have hk := mem_parents_childOf hused hleaf bit
  have hk' := hchild ▸ mem_parents_childOf hused' hleaf' bit'
  rw [hq, List.mem_singleton] at hk hk'
  obtain rfl : k = k' := BitVec.eq_of_toNat_eq (hk.trans hk'.symm)
  obtain ⟨-, -, -, hne⟩ := hinternal k hused hleaf
  exact ⟨rfl, Bool.injective_iff.mpr hne hchild⟩

variable {path : List Bool} {k : BitVec 8}

theorem PathTo.used (h : PathTo b path k) : (atNode b.node k).used = true := by
  induction h with
  | root => exact (root_internal_of_treeNumbering hnum).1
  | child bit _ hleaf ih => exact childOf_used hnum hstruct ih hleaf bit

/-- Indexes fall along a path. -/
theorem PathTo.length_add_le (h : PathTo b path k) : path.length + k.toNat ≤ b.root.toNat := by
  induction h with
  | root => rw [List.length_nil, Nat.zero_add]
  | child bit hpath hleaf ih =>
    have := childOf_lt hstruct (hpath.used hnum hstruct) hleaf bit
    rw [List.length_append, List.length_singleton]
    omega

/-- A node has one path: climb from parent to parent. -/
theorem PathTo.unique {path' : List Bool} {k' : BitVec 8} (h : PathTo b path k) (h' : PathTo b path' k')
    (heq : k = k') : path = path' := by
  induction h generalizing path' k' with
  | root =>
    cases h' with
    | root => rfl
    | child bit' hpath' hleaf' =>
      have := childOf_lt_root hnum hstruct (hpath'.used hnum hstruct) hleaf' bit'
      rw [← heq] at this
      exact absurd this (lt_irrefl _)
  | child bit hpath hleaf ih =>
    have hused := hpath.used hnum hstruct
    cases h' with
    | root =>
      have := childOf_lt_root hnum hstruct hused hleaf bit
      rw [heq] at this
      exact absurd this (lt_irrefl _)
    | child bit' hpath' hleaf' =>
      obtain ⟨hk, rfl⟩ := parent_unique hnum hstruct hused hleaf (hpath'.used hnum hstruct) hleaf' heq
      rw [ih hpath' hk]

/-- A path from the root goes on from the node it passes. -/
theorem PathTo.leadsTo_append (h : PathTo b path k) (rest : List Bool) :
    leadsTo b.node b.root (path ++ rest) = leadsTo b.node k rest := by
  induction h generalizing rest with
  | root => rfl
  | child bit hpath hleaf ih =>
    rw [List.append_assoc, ih]
    simp [leadsTo, hleaf, childOf_used hnum hstruct (hpath.used hnum hstruct) hleaf bit]

/-- A path that leads on to a symbol ends at the symbol's leaf. -/
theorem PathTo.exists_leaf (h : PathTo b path k) {s : Sym} {rest : List Bool}
    (hrest : leadsTo b.node k rest = some s) :
    ∃ j, PathTo b (path ++ rest) j ∧ (atNode b.node j).leaf = true ∧ (atNode b.node j).sym = s := by
  induction rest generalizing path k with
  | nil => exact ⟨k, by simpa using h, by simpa [leadsTo] using hrest⟩
  | cons bit rest ih =>
    cases hleaf : (atNode b.node k).leaf with
    | true => simp [leadsTo, hleaf] at hrest
    | false =>
      have hchild := childOf_used hnum hstruct (h.used hnum hstruct) hleaf
      obtain ⟨_, _, heq, hrest⟩ := (leadsTo_internal hleaf hchild _ _).mp hrest
      cases heq
      simpa using ih (.child bit h hleaf) hrest

theorem exists_pathTo_leaf {s : Sym} (h : leadsTo b.node b.root path = some s) :
    ∃ j, PathTo b path j ∧ (atNode b.node j).leaf = true ∧ (atNode b.node j).sym = s :=
  PathTo.root.exists_leaf hnum hstruct h

end

/-- A symbol has one path from the root: it has one leaf, and the leaf has one path (43_code_table R162). -/
theorem leadsTo_root_unique {b : Block} (hnum : TreeNumbering b) (hstruct : TreeStructure b) (hleaves : TreeLeaves b)
    {s : Sym} {path path' : List Bool} (h : leadsTo b.node b.root path = some s)
    (h' : leadsTo b.node b.root path' = some s) : path = path' := by
  obtain ⟨j, hj, hleaf, hs⟩ := exists_pathTo_leaf hnum hstruct h
  obtain ⟨j', hj', hleaf', hs'⟩ := exists_pathTo_leaf hnum hstruct h'
  obtain ⟨-, -, -, hinj, -, -⟩ := hleaves
  exact hj.unique hnum hstruct hj' (hinj j j' hleaf hleaf' (hs.trans hs'.symm))

/-! ## The codes -/

theorem codesInv_iff_of_codesValid {b : Block} (h : b.codesValid = true) :
    CodesInv b ↔ b.treeValid = true ∧ ∀ s, EntryOk b s := by simp [CodesInv, h]

theorem entryOk_of_isLeafSym {b : Block} {s : Sym} (h : isLeafSym b s = true) :
    EntryOk b s ↔ atSym b.code s = CodeEntry.ofPath (atSym b.code s).path ∧
      leadsTo b.node b.root (atSym b.code s).path = some s ∧
      1 ≤ (atSym b.code s).path.length ∧ (atSym b.code s).path.length ≤ 127 := by rw [EntryOk, if_pos h]

theorem entryOk_of_not_isLeafSym {b : Block} {s : Sym} (h : isLeafSym b s = false) :
    EntryOk b s ↔ atSym b.code s = CodeEntry.absent := by simp [EntryOk, h]

theorem treeInv_codesCommit (b : Block) (acc : CodeAcc) : TreeInv (codesCommit b acc) ↔ TreeInv b := Iff.rfl

theorem valid_ofPath (path : List Bool) : (CodeEntry.ofPath path).valid = true := rfl

section
variable {b : Block} (hcodes : CodesInv b) (hvalid : b.codesValid = true)
include hcodes hvalid

theorem valid_eq_isLeafSym (s : Sym) : (atSym b.code s).valid = isLeafSym b s := by
  have hentry := ((codesInv_iff_of_codesValid hvalid).mp hcodes).2 s
  cases hleaf : isLeafSym b s with
  | true => exact ((entryOk_of_isLeafSym hleaf).mp hentry).1 ▸ valid_ofPath _
  | false => exact (entryOk_of_not_isLeafSym hleaf).mp hentry ▸ rfl

/-- A valid code is the path to its symbol, 1 to 127 bits long. -/
theorem entry_of_valid {s : Sym} (h : (atSym b.code s).valid = true) :
    atSym b.code s = CodeEntry.ofPath (atSym b.code s).path ∧
      leadsTo b.node b.root (atSym b.code s).path = some s ∧
      1 ≤ (atSym b.code s).path.length ∧ (atSym b.code s).path.length ≤ 127 := by
  rw [← entryOk_of_isLeafSym (valid_eq_isLeafSym hcodes hvalid s ▸ h)]
  exact ((codesInv_iff_of_codesValid hvalid).mp hcodes).2 s

theorem eq_absent_of_not_valid {s : Sym} (h : (atSym b.code s).valid = false) :
    atSym b.code s = CodeEntry.absent := by
  rw [← entryOk_of_not_isLeafSym (valid_eq_isLeafSym hcodes hvalid s ▸ h)]
  exact ((codesInv_iff_of_codesValid hvalid).mp hcodes).2 s

theorem valid_iff_len_pos (s : Sym) : (atSym b.code s).valid = true ↔ 0 < (atSym b.code s).len.toNat := by
  cases hv : (atSym b.code s).valid with
  | true =>
    obtain ⟨-, -, hpos, -⟩ := entry_of_valid hcodes hvalid hv
    exact iff_of_true rfl (length_path _ ▸ hpos)
  | false =>
    rw [eq_absent_of_not_valid hcodes hvalid hv]
    decide

end

section
variable {b : Block} (htree : TreeInv b) (hcodes : CodesInv b) (hvalid : b.codesValid = true)
include htree hcodes hvalid

theorem treeInv_parts_of_codesValid : TreeNumbering b ∧ TreeStructure b ∧ TreeLeaves b := by
  obtain ⟨hnum, hstruct, hleaves, -⟩ :=
    (treeInv_iff_of_treeValid ((codesInv_iff_of_codesValid hvalid).mp hcodes).1).mp htree
  exact ⟨hnum, hstruct, hleaves⟩

/-- The valid codes are exactly the paths from the root to the leaves (43_code_table R162, R166). -/
theorem leadsTo_root_iff {s : Sym} {path : List Bool} :
    leadsTo b.node b.root path = some s ↔ (atSym b.code s).valid = true ∧ (atSym b.code s).path = path := by
  obtain ⟨hnum, hstruct, hleaves⟩ := treeInv_parts_of_codesValid htree hcodes hvalid
  constructor
  · intro h
    obtain ⟨j, hj, rfl⟩ := exists_leaf_of_leadsTo path h
    have hv : (atSym b.code (atNode b.node j).sym).valid = true := by
      obtain ⟨-, -, -, -, hleafsym, -⟩ := id hleaves
      rw [valid_eq_isLeafSym hcodes hvalid, hleafsym j hj]
    obtain ⟨-, hlead, -⟩ := entry_of_valid hcodes hvalid hv
    exact ⟨hv, leadsTo_root_unique hnum hstruct hleaves hlead h⟩
  · rintro ⟨hv, rfl⟩
    obtain ⟨-, hlead, -⟩ := entry_of_valid hcodes hvalid hv
    exact hlead

/-- The entry of a symbol is its path. -/
theorem code_eq_ofPath {s : Sym} {path : List Bool} (h : leadsTo b.node b.root path = some s) :
    atSym b.code s = CodeEntry.ofPath path := by
  obtain ⟨hv, rfl⟩ := (leadsTo_root_iff htree hcodes hvalid).mp h
  obtain ⟨hentry, -⟩ := entry_of_valid hcodes hvalid hv
  exact hentry

/-- A code that begins with the path to a node goes on from the node. -/
theorem leadsTo_of_append_eq_code {path rest : List Bool} {k : BitVec 8} (hpath : PathTo b path k) {s : Sym}
    (hv : (atSym b.code s).valid = true) (hrest : path ++ rest = (atSym b.code s).path) :
    leadsTo b.node k rest = some s := by
  obtain ⟨hnum, hstruct, -⟩ := treeInv_parts_of_codesValid htree hcodes hvalid
  rw [← hpath.leadsTo_append hnum hstruct, hrest, leadsTo_root_iff htree hcodes hvalid]
  exact ⟨hv, rfl⟩

/-- A code that begins with the path to a leaf is the leaf's. -/
theorem sym_eq_of_code_begins {path : List Bool} {k : BitVec 8} (hpath : PathTo b path k)
    (hleaf : (atNode b.node k).leaf = true) {s : Sym} (hv : (atSym b.code s).valid = true)
    (hbegins : path <+: (atSym b.code s).path) : (atNode b.node k).sym = s := by
  obtain ⟨rest, hrest⟩ := hbegins
  obtain ⟨-, hs⟩ := (leadsTo_leaf hleaf _ _).mp (leadsTo_of_append_eq_code htree hcodes hvalid hpath hv hrest)
  exact hs

end

/-- Settles O27: where the shorter code ends there is a leaf, so the longer one ends there too. -/
theorem codesArePrefixFree : Obligations.CodesArePrefixFree := by
  intro b x y _ htree hcodes hvalid hx hy hbegins
  obtain ⟨hnum, hstruct, -⟩ := treeInv_parts_of_codesValid htree hcodes hvalid
  have hlead := (leadsTo_root_iff htree hcodes hvalid).mpr ⟨hx, rfl⟩
  obtain ⟨j, hpath, hleaf, rfl⟩ := exists_pathTo_leaf hnum hstruct hlead
  exact sym_eq_of_code_begins htree hcodes hvalid hpath hleaf hy hbegins

/-! ## The Kraft sum -/

/-- What a symbol adds to the sum of 2^-LEN, times 2^127, if its code begins with `path` (43_code_table R164). -/
def kraftBelow (b : Block) (path : List Bool) (s : Sym) : Nat :=
  if (atSym b.code s).valid = true ∧ path <+: (atSym b.code s).path then 2 ^ (127 - (atSym b.code s).len.toNat) else 0

section
variable {b : Block} (htree : TreeInv b) (hcodes : CodesInv b) (hvalid : b.codesValid = true)
  {path : List Bool} {k : BitVec 8} (hpath : PathTo b path k)
include htree hcodes hvalid hpath

/-- Below a leaf there is its own symbol's code. -/
theorem kraftBelow_leaf (hleaf : (atNode b.node k).leaf = true) (s : Sym) :
    kraftBelow b path s = if s = (atNode b.node k).sym then 2 ^ (127 - path.length) else 0 := by
  obtain ⟨hnum, hstruct, -⟩ := treeInv_parts_of_codesValid htree hcodes hvalid
  have hcode : (atNode b.node k).sym = s ↔ (atSym b.code s).valid = true ∧ (atSym b.code s).path = path := by
    rw [← leadsTo_root_iff htree hcodes hvalid, ← List.append_nil path, hpath.leadsTo_append hnum hstruct,
      leadsTo_leaf hleaf]
    simp
  rw [kraftBelow]
  by_cases hs : s = (atNode b.node k).sym
  · obtain ⟨hv, hp⟩ := hcode.mp hs.symm
    rw [if_pos hs, if_pos ⟨hv, [], hp ▸ List.append_nil _⟩, ← length_path, hp]
  · rw [if_neg hs, if_neg fun h => hs (sym_eq_of_code_begins htree hcodes hvalid hpath hleaf h.1 h.2).symm]

/-- Below an internal node a code goes on with a 0 or a 1. -/
theorem kraftBelow_internal (hleaf : (atNode b.node k).leaf = false) (s : Sym) :
    kraftBelow b path s = kraftBelow b (path ++ [false]) s + kraftBelow b (path ++ [true]) s := by
  obtain ⟨hnum, hstruct, -⟩ := treeInv_parts_of_codesValid htree hcodes hvalid
  simp only [kraftBelow]
  by_cases h : (atSym b.code s).valid = true ∧ path <+: (atSym b.code s).path
  · obtain ⟨hv, rest, hrest⟩ := id h
    have hlead := leadsTo_of_append_eq_code htree hcodes hvalid hpath hv hrest
    rw [leadsTo_internal hleaf (childOf_used hnum hstruct (hpath.used hnum hstruct) hleaf)] at hlead
    obtain ⟨bit, rest, rfl, -⟩ := hlead
    rw [if_pos h, ← hrest]
    cases bit <;> simp [hv]
  · have hnone (bit : Bool) : ¬ ((atSym b.code s).valid = true ∧ path ++ [bit] <+: (atSym b.code s).path) :=
      fun ⟨hv, rest, hrest⟩ => h ⟨hv, bit :: rest, by simpa using hrest⟩
    rw [if_neg h, if_neg (hnone false), if_neg (hnone true)]

end

/-- The codes below a node fill the share of its path. -/
theorem sum_kraftBelow {b : Block} (htree : TreeInv b) (hcodes : CodesInv b) (hvalid : b.codesValid = true)
    {path : List Bool} {k : BitVec 8} (hpath : PathTo b path k) :
    ∑ s, kraftBelow b path s = 2 ^ (127 - path.length) := by
  obtain ⟨hnum, hstruct, -⟩ := treeInv_parts_of_codesValid htree hcodes hvalid
  cases hleaf : (atNode b.node k).leaf with
  | true => simp [kraftBelow_leaf htree hcodes hvalid hpath hleaf]
  | false =>
    have hused := hpath.used hnum hstruct
    have hdown (bit : Bool) := childOf_lt hstruct hused hleaf bit
    have hsum (bit : Bool) := sum_kraftBelow htree hcodes hvalid (.child bit hpath hleaf)
    have hlen : path.length + 1 ≤ 127 := by
      have hle := hpath.length_add_le hnum hstruct
      rw [leaf_eq_false_iff_le_of_treeNumbering hnum] at hleaf
      obtain ⟨-, h128, hroot, -⟩ := hnum
      omega
    simp only [kraftBelow_internal htree hcodes hvalid hpath hleaf, Finset.sum_add_distrib, hsum, List.length_append,
      List.length_singleton]
    rw [show 127 - path.length = 127 - (path.length + 1) + 1 by omega, Nat.pow_succ, Nat.mul_two]
termination_by k.toNat
decreasing_by exact hdown bit

/-- There is a code, since the sum is not 0. -/
theorem exists_valid {b : Block} (htree : TreeInv b) (hcodes : CodesInv b) (hvalid : b.codesValid = true) :
    ∃ s, (atSym b.code s).valid = true := by
  by_contra hnone
  rw [not_exists] at hnone
  simpa [kraftBelow, hnone] using sum_kraftBelow htree hcodes hvalid .root

/-- Settles O28: the codes that begin with a node's path fill its share, by induction on the tree, and every code begins
with the root's empty path. -/
theorem codesFillTheTree : Obligations.CodesFillTheTree := by
  intro b _ htree hcodes hvalid
  rw [sum_map_toList, ← Nat.sub_zero 127, ← List.length_nil (α := Bool), ← sum_kraftBelow htree hcodes hvalid .root]
  exact Finset.sum_congr rfl fun s _ => by simp [kraftBelow]

/-! ## GEN_CODES -/

/-- Settles O26: the check of TREE_VALID is GEN_CODES's first (43_code_table R161). -/
theorem genCodesNeedsATree : Obligations.GenCodesNeedsATree := fun _ h => exec_of_raise (by nofun) (if_pos h)

/-- On a sound tree GEN_CODES commits what its walk recorded (43_code_table R161). -/
theorem exists_genCodes_ok {b : Block} (hvalid : b.treeValid = true) (htree : TreeInv b) :
    ∃ acc, codeWalk b.node codeWalkFuel [(b.root, [])] CodeAcc.start = some acc ∧
      genCodes b = .ok ⟨codesCommit b acc, b.nleaf.setWidth 32, BitVec.ofNat 32 acc.maxLen⟩ := by
  obtain ⟨hnum, -⟩ := (treeInv_iff_of_treeValid hvalid).mp htree
  obtain ⟨-, hroot⟩ := root_internal_of_treeNumbering hnum
  cases hwalk : codeWalk b.node codeWalkFuel [(b.root, [])] CodeAcc.start with
  | none =>
    refine absurd ?_ (genCodes_ne_fault htree .codeWalkStuck)
    rw [genCodes, if_neg (by simp [hvalid]), if_neg (by simp [hroot]), hwalk]
  | some acc => exact ⟨acc, rfl, (genCodes_ok _ _).mpr ⟨hvalid, hroot, acc, hwalk, rfl⟩⟩

/-- The walk's `maxlen` is the least bound of the one it started with and of the paths it records
(43_code_table R161). -/
theorem maxLen_codeWalk_le_iff {nodes : Vector Node 256}
    (hclosed : ∀ v, (atNode nodes v).used = true → (atNode nodes v).leaf = false →
      ∀ bit, (atNode nodes (childOf (atNode nodes v) bit)).used = true)
    {fuel : Nat} {stack : List (BitVec 8 × List Bool)} {acc acc' : CodeAcc}
    (hstack : ∀ e ∈ stack, (atNode nodes e.1).used = true) (h : codeWalk nodes fuel stack acc = some acc') (n : Nat) :
    acc'.maxLen ≤ n ↔ acc.maxLen ≤ n ∧ ∀ s path, StackLeads nodes stack s path → path.length ≤ n := by
  fun_induction codeWalk nodes fuel stack acc with
  | case1 fuel acc => cases h; simp [StackLeads]
  | case2 => cases h
  | case3 fuel v path stack acc nd hleaf ih =>
    obtain ⟨-, hrest⟩ := List.forall_mem_cons.mp hstack
    rw [ih hrest h, CodeAcc.record, max_le_iff, and_assoc]
    simp [stackLeads_leaf hleaf, or_imp, forall_and]
  | case4 fuel v path stack acc nd hleaf ih =>
    rw [Bool.not_eq_true] at hleaf
    obtain ⟨hv, hrest⟩ := List.forall_mem_cons.mp hstack
    have hchild := hclosed v hv hleaf
    simp only [stackLeads_internal hleaf hchild]
    refine ih ?_ h
    simp only [List.forall_mem_cons]
    exact ⟨hchild false, hchild true, hrest⟩

section
variable {b : Block} {acc : CodeAcc} (hvalid : b.treeValid = true) (htree : TreeInv b)
  (hwalk : codeWalk b.node codeWalkFuel [(b.root, [])] CodeAcc.start = some acc)
include hvalid htree hwalk

/-- `maxlen` is the least bound of the lengths of the codes. -/
theorem maxLen_le_iff (n : Nat) : acc.maxLen ≤ n ↔ ∀ s, (atSym acc.ct s).len.toNat ≤ n := by
  obtain ⟨hnum, hstruct, -⟩ := (treeInv_iff_of_treeValid hvalid).mp htree
  have hcodes := codesInv_codesCommit hvalid htree hwalk
  have hpath {s : Sym} {path : List Bool} : leadsTo b.node b.root path = some s ↔
      (atSym acc.ct s).valid = true ∧ (atSym acc.ct s).path = path :=
    leadsTo_root_iff ((treeInv_codesCommit b acc).mpr htree) hcodes rfl
  have hroot : ∀ e ∈ [(b.root, ([] : List Bool))], (atNode b.node e.1).used = true := by
    simpa using (root_internal_of_treeNumbering hnum).1
  rw [maxLen_codeWalk_le_iff (fun v hu hl => childOf_used hnum hstruct hu hl) hroot hwalk]
  simp only [StackLeads, CodeAcc.start, List.mem_singleton, exists_eq_left, hpath]
  refine ⟨fun ⟨_, h⟩ s => ?_, fun h => ⟨Nat.zero_le n, ?_⟩⟩
  · by_contra hlt
    have hv := (valid_iff_len_pos hcodes rfl s).mpr (Nat.zero_lt_of_lt (not_le.mp hlt))
    exact hlt (length_path _ ▸ h s _ ⟨_, ⟨hv, rfl⟩, rfl⟩)
  · rintro s _ ⟨_, ⟨-, rfl⟩, rfl⟩
    exact length_path _ ▸ h s

/-- Some code is the longest, for the codes fill the tree and so there are some. -/
theorem exists_len_eq_maxLen :
    ∃ s, (atSym acc.ct s).valid = true ∧ (atSym acc.ct s).len.toNat = acc.maxLen := by
  have hcodes := codesInv_codesCommit hvalid htree hwalk
  have hle := maxLen_le_iff hvalid htree hwalk
  obtain ⟨x, hx⟩ := Finite.exists_max fun s => (atSym acc.ct s).len.toNat
  obtain ⟨y, hy⟩ := exists_valid ((treeInv_codesCommit b acc).mpr htree) hcodes rfl
  have hvalid_iff := valid_iff_len_pos hcodes rfl
  exact ⟨x, (hvalid_iff x).mpr (((hvalid_iff y).mp hy).trans_le (hx y)),
    le_antisymm ((hle _).mp le_rfl x) ((hle _).mpr hx)⟩

end

/-- Settles O25: the walk records every leaf's path, and `maxlen` is the least bound of their lengths. -/
theorem genCodesRecordsEveryPath : Obligations.GenCodesRecordsEveryPath := by
  intro s _ htree hvalid
  obtain ⟨acc, hwalk, hok⟩ := exists_genCodes_ok hvalid htree
  have hcodes := codesInv_codesCommit hvalid htree hwalk
  obtain ⟨x, hx, hlen⟩ := exists_len_eq_maxLen hvalid htree hwalk
  have hresult : (BitVec.ofNat 32 acc.maxLen).toNat = acc.maxLen := by
    have := (atSym acc.ct x).len.isLt
    rw [BitVec.toNat_ofNat]
    omega
  have hnleaf : (s.blk.nleaf.setWidth 32).toNat = s.blk.nleaf.toNat := BitVec.toNat_setWidth_of_le (by decide)
  exact ⟨_, exec_of_ok (by nofun) hok, rfl, hcodes.2, rfl, hnleaf,
    fun y => hresult.symm ▸ (maxLen_le_iff hvalid htree hwalk _).mp le_rfl y, ⟨x, hx, hlen.trans hresult.symm⟩, rfl⟩

/-! ## A single symbol -/

/-- Two leaves make one merge, which takes them in list order (42_tree_builder R142, R143). -/
theorem treeNodes_pair (mode : WeightMode) (total : Nat) (x y : Leaf) :
    treeNodes mode total [x, y] = [leafNode mode total x, leafNode mode total y,
      combineNode mode ⟨0, x.cnt, leafPw mode total x.cnt⟩ ⟨1, y.cnt, leafPw mode total y.cnt⟩] := rfl

section
variable {b : Block} {x y : Leaf} (hlist : freqList b = [x, y])
include hlist

theorem node_buildCommit_pair :
    (buildCommit b).root = 2 ∧ (atNode (buildCommit b).node 2).left = 0 ∧
      atNode (buildCommit b).node 0 = leafNode b.cfg.weightMode b.total.toNat x := by
  simp only [buildCommit_eq, atNode_nodeTable, hlist, treeNodes_pair]
  exact ⟨rfl, rfl, rfl⟩

/-- The paths of a tree of two leaves. -/
theorem leadsTo_buildCommit_pair :
    leadsTo (buildCommit b).node (buildCommit b).root [false] = some x.sym ∧
      leadsTo (buildCommit b).node (buildCommit b).root [true] = some y.sym := by
  simp only [leadsTo, buildCommit_eq, atNode_nodeTable, hlist, treeNodes_pair]
  exact ⟨rfl, rfl⟩

end

/-- Settles O29: the list is the synthetic entry and then r's, so these are the left and the right leaf of the root. -/
theorem singleSymbolGetsCodeOne : Obligations.SingleSymbolGetsCodeOne := by
  intro s r htable hord
  have hone : s.blk.ndist = 1 := by
    obtain ⟨hle, -⟩ := id htable
    exact BitVec.eq_of_toNat_eq (by rw [← length_ordered hle, hord]; rfl)
  have hne : s.blk.ndist ≠ 0 := by simp [hone]
  obtain ⟨r', t, hord', ht, -, hsynth, hlist, -⟩ := (syntheticLeafComesFirst s.blk htable).1 hone
  obtain rfl : r = r' := by simpa [hord] using hord'
  obtain rfl : t = r + 1 := BitVec.eq_of_toNat_eq (by simpa using ht)
  obtain ⟨r0, r1, hbuild⟩ : ∃ r0 r1, buildTree s.blk = .ok ⟨buildCommit s.blk, r0, r1⟩ :=
    ⟨_, _, (buildTree_ok _ _).mpr ⟨hne, two_le_length_freqList hne, rfl⟩⟩
  have htree : TreeInv (complete (buildCommit s.blk) .none r0 r1) := treeInv_buildCommit htable hne
  obtain ⟨acc, hwalk, hok⟩ := exists_genCodes_ok rfl htree
  have hcodes := codesInv_codesCommit rfl htree hwalk
  have hcode {x : Sym} {path : List Bool} :=
    code_eq_ofPath (s := x) (path := path) ((treeInv_codesCommit _ acc).mpr htree) hcodes rfl
  obtain ⟨hroot, hleft, hzero⟩ := node_buildCommit_pair hlist
  obtain ⟨hfalse, htrue⟩ := leadsTo_buildCommit_pair hlist
  refine ⟨_, _, exec_of_ok (by nofun) hbuild, exec_of_ok (by nofun) hok, rfl, rfl, hsynth, hcode hfalse, hcode htrue,
    congrArg Node.sym hzero, congrArg Node.leaf hzero, hroot ▸ hleft, fun x hx hx1 => ?_⟩
  refine (entryOk_of_not_isLeafSym ?_).mp (hcodes.2 x)
  show (decide (x ∈ ordered s.blk) || synthSym s.blk == some x) = false
  rw [hord, hsynth, Bool.or_eq_false_iff, decide_eq_false_iff_not, List.mem_singleton, beq_eq_false_iff_ne]
  exact ⟨hx, fun h => hx1 (Option.some.inj h).symm⟩

end Sys2Proof.Machine
end

section
/-! The buffers of ENCODE, PACK and UNPACK (44_bit_packing R175 to R187): what a read of a written range gives, what an
output with its tail fill leaves, and the bits of a byte stream. -/

namespace Sys2Proof.Machine

open Sys2Proof.Safety

/-! ## Reads of written cells -/

/-- A written range is read as what it holds. -/
theorem readCells_of_holds {α : Type} (buf : Buf) {m : Memory α} {n : Nat} {vs : List α} (hlen : n = vs.length)
    (h : Holds m vs) : readCells buf m n = .ok vs :=
  (readCells_ok _ _ _ _).mpr ⟨hlen.symm, fun j hj => (h j hj).trans (List.getElem?_eq_getElem hj)⟩

/-- The read of a range ends in UNINIT at its first unwritten cell (20_memory R79). -/
theorem readCells_of_first_unwritten {α : Type} (buf : Buf) {m : Memory α} {n i : Nat} (hi : i < n)
    (hbelow : ∀ j, j < i → ∃ v, Memory.get m j = some v) (hnone : Memory.get m i = none) :
    readCells buf m n = .error (.fault (.uninit buf i)) :=
  (readCells_error _ _ _ _).mpr ⟨i, hi, hnone, rfl, hbelow⟩

/-! ## What an output leaves in its buffer -/

/-- A buffer whose cells are those of an output, then its fill, then the old ones (44_bit_packing R183). -/
theorem holds_tailIs_laterKept_of_get {α : Type} {m m' : Memory α} {w : Nat} {vs : List α} {fill : α} (hw : 0 < w)
    (hget : ∀ j, Memory.get m' j = if j < vs.length then vs[j]?
      else if j < w * ceilDiv vs.length w then some fill else Memory.get m j) :
    Holds m' vs ∧ TailIs m' w vs.length fill ∧ LaterKept m m' w vs.length := by
  have hle := le_ceilDiv vs.length w hw
  refine ⟨fun j hj => ?_, fun j hlow hhigh => ?_, fun j hlater => ?_⟩
  · rw [hget, if_pos hj]
  · rw [hget, if_neg hlow.not_gt, if_pos hhigh]
  · rw [hget, if_neg (hle.trans hlater).not_gt, if_neg hlater.not_gt]

theorem holds_tailIs_laterKept_putBits (m : Memory Bool) (bs : List Bool) :
    Holds (putBits m bs) bs ∧ TailIs (putBits m bs) 32 bs.length false ∧ LaterKept m (putBits m bs) 32 bs.length :=
  holds_tailIs_laterKept_of_get (by omega) (get_putBits m bs)

theorem holds_tailIs_laterKept_putBytes (m : Memory Byte) (bs : List Byte) :
    Holds (putBytes m bs) bs ∧ TailIs (putBytes m bs) 4 bs.length 0 ∧ LaterKept m (putBytes m bs) 4 bs.length :=
  holds_tailIs_laterKept_of_get (by omega) (get_putBytes m bs)

/-! ## Bytes and bits -/

/-- Bit `t` of byte `k` is stream bit `8k + t` (44_bit_packing R184). -/
theorem getElem?_expandBytes {t : Nat} (ht : t < 8) (bytes : List Byte) (k : Nat) :
    (expandBytes bytes)[8 * k + t]? = bytes[k]?.map (·.getMsbD t) := by
  induction bytes generalizing k with
  | nil => rfl
  | cons v bytes ih =>
    have hcons : expandBytes (v :: bytes) = bitsOf v ++ expandBytes bytes := rfl
    cases k with
    | zero =>
      rw [hcons, Nat.mul_zero, Nat.zero_add, List.getElem?_append_left (by rwa [length_bitsOf]), getElem?_bitsOf v t ht]
      rfl
    | succ k =>
      rw [hcons, List.getElem?_append_right (by rw [length_bitsOf]; omega), length_bitsOf,
        show 8 * (k + 1) + t - 8 = 8 * k + t by omega, ih, List.getElem?_cons_succ]

theorem length_expandBytes (bytes : List Byte) : (expandBytes bytes).length = 8 * bytes.length := by
  simp [expandBytes, List.length_flatMap, mul_comm]

theorem streamOf_iff {bytes : List Byte} {bits : List Bool} :
    StreamOf bytes bits ↔ bits.length = 8 * bytes.length ∧
      ∀ k t : Nat, k < bytes.length → t < 8 → bits[8 * k + t]? = bytes[k]?.map (·.getMsbD t) := by
  have hmsb : ∀ (v : Byte) (t : Nat), t < 8 → v.getMsbD t = v.getLsbD (7 - t) := fun v t ht => by
    simp [BitVec.getMsbD, ht]
  unfold StreamOf
  simp +contextual only [hmsb]

/-- A stream has one list of bits, the expansion of its bytes. -/
theorem eq_expandBytes_of_streamOf {bytes : List Byte} {bits : List Bool} (h : StreamOf bytes bits) :
    bits = expandBytes bytes := by
  obtain ⟨hlen, hbit⟩ := streamOf_iff.mp h
  have hlen' := length_expandBytes bytes
  refine List.ext_getElem? fun i => ?_
  obtain hi | hi := Nat.lt_or_ge i bits.length
  · have ht : i % 8 < 8 := Nat.mod_lt i (by omega)
    rw [← Nat.div_add_mod i 8, hbit _ _ (by omega) ht, getElem?_expandBytes ht]
  · rw [List.getElem?_eq_none hi, List.getElem?_eq_none (by omega)]

/-- Bits that fill whole bytes are the bits of their packed bytes (44_bit_packing R180). -/
theorem streamOf_packBytes {x : List Bool} (hx : x.length = 8 * (x.length / 8)) : StreamOf (packBytes x) x := by
  rw [streamOf_iff, length_packBytes]
  refine ⟨hx, fun k t hk ht => ?_⟩
  have hbyte : (packBytes x)[k]? = some (streamByte x k) := by simp [packBytes, hk]
  have hin : 8 * k + t < x.length := by omega
  rw [hbyte, Option.map_some, getMsbD_streamByte x k t ht, List.getElem?_eq_getElem hin, List.getD_eq_getElem _ _ hin]

end Sys2Proof.Machine
end

section
/-! How PACK and UNPACK end (44_bit_packing R179 to R187): the padding marker, the checks of the two commands in order,
and that UNPACK inverts PACK. -/

namespace Sys2Proof.Machine

open Sys2Proof.Safety

/-! ## PACK -/

theorem packBits_of_bitsAre {b : Block} {bs : List Bool} (h : BitsAre b bs) :
    packBits b = .ok ⟨packCommit b (packBytes (padded bs)), BitVec.ofNat 32 (padLen bs.length),
      BitVec.ofNat 32 (packBytes (padded bs)).length⟩ := by
  obtain ⟨hlen, hcap, hholds⟩ := h
  exact (packBits_ok _ _).mpr ⟨hlen ▸ hcap, bs, readCells_of_holds _ hlen hholds, by rw [hlen]⟩

/-- Settles O32: the marker and its zeros fill the bitstring up to whole bytes. -/
theorem packPrependsTheMarker : Obligations.PackPrependsTheMarker := by
  intro s bs hbits
  have hbsLen : bs.length < 2 ^ 32 := by
    obtain ⟨hlen, -⟩ := hbits
    exact hlen ▸ s.blk.bitLen.isLt
  have hstream := streamOf_packBytes (x := padded bs) (by rw [length_padded]; omega)
  have hmarker : padded bs = List.replicate (7 - bs.length % 8) false ++ [true] ++ bs := by
    rw [padded, padLen, List.append_assoc, show 8 - bs.length % 8 - 1 = 7 - bs.length % 8 by omega]
    rfl
  have hbytes : (packBytes (padded bs)).length = (bs.length + 1 + 7) / 8 := by
    rw [length_packBytes, length_padded, padLen]
    omega
  obtain ⟨hholds, htail, hlater⟩ := holds_tailIs_laterKept_putBytes s.blk.pkbuf (packBytes (padded bs))
  exact ⟨_, packBytes (padded bs), exec_of_ok (by nofun) (packBits_of_bitsAre hbits), hmarker ▸ hstream, hbytes, hholds,
    htail, hlater, Nat.mod_eq_of_lt (length_packBytes_padded_lt hbsLen), rfl,
    Nat.mod_eq_of_lt (by unfold padLen; omega), rfl, rfl⟩

/-- Settles O33: BIT_LEN is checked before the bits are read. -/
theorem packStopsInOrder : Obligations.PackStopsInOrder := by
  refine fun s => ⟨fun hcap => exec_of_raise (by nofun) (if_pos hcap), fun i hcap hi hbelow hnone => ?_⟩
  refine exec_of_fault (by nofun) (show packBits s.blk = _ from ?_)
  simp only [packBits, if_neg hcap.not_gt, readCells_of_first_unwritten .bitbuf hi hbelow hnone]

/-! ## The padding marker -/

/-- A one at index `p` of the first 8 bits, with zeros before it, is the marker (44_bit_packing R184). -/
theorem unpad_of_marker {bits : List Bool} {p : Nat} (hp : p < 8) (hone : bits[p]? = some true)
    (hzero : ∀ j, j < p → bits[j]? = some false) : unpad bits = ⟨bits.drop (p + 1), false, p + 1⟩ := by
  obtain ⟨hlt, hval⟩ := List.getElem?_eq_some_iff.mp hone
  have hlen : (bits.take p).length = p := List.length_take_of_le hlt.le
  have hsplit : bits = bits.take p ++ true :: bits.drop (p + 1) := by
    rw [← hval, ← List.drop_eq_getElem_cons hlt, List.take_append_drop]
  have hpre : ∀ x ∈ bits.take p, x = false := fun x hx => by
    obtain ⟨j, hj, rfl⟩ := List.mem_take_iff_getElem.mp hx
    exact Option.some.inj ((List.getElem?_eq_getElem _).symm.trans (hzero j (by omega)))
  have h := unpad_marker (bits.take p) (bits.drop (p + 1)) (by omega) hpre
  rwa [← hsplit, hlen] at h

/-- With no one among the first 8 bits there is no marker (44_bit_packing R186). -/
theorem unpad_of_no_marker {bits : List Bool} (hnone : ∀ j, j < 8 → bits[j]? ≠ some true) :
    unpad bits = ⟨bits.drop 8, true, 0⟩ := by
  refine unpad_fallback bits fun x hx => ?_
  obtain ⟨j, hj, rfl⟩ := List.mem_take_iff_getElem.mp hx
  exact Bool.eq_false_iff.mpr fun h => hnone j (by omega) (List.getElem?_eq_some_iff.mpr ⟨by omega, h⟩)

/-! ## UNPACK -/

section
variable {b : Block} {bytes : List Byte} {bits : List Bool} {u : Unpadded} (hbytes : BytesAre b bytes)
  (hstream : StreamOf bytes bits) (hunpad : unpad bits = u)
include hbytes hstream hunpad

theorem unpackBytes_of_fits (hfit : u.out.length ≤ b.cfg.maxBits) :
    unpackBytes b = .ok ⟨{ bitsCommit b u.out with anomaly := u.anomaly }, BitVec.ofNat 32 u.pad,
      BitVec.ofNat 32 u.out.length⟩ := by
  obtain ⟨hlen, hcap, hholds⟩ := hbytes
  obtain rfl := eq_expandBytes_of_streamOf hstream
  subst hunpad
  exact (unpackBytes_ok _ _).mpr ⟨hlen ▸ hcap, bytes, readCells_of_holds _ hlen hholds, hfit, rfl⟩

theorem unpackBytes_of_overflow (hover : b.cfg.maxBits < u.out.length) :
    unpackBytes b = .error (.raise .capacity 0 0) := by
  obtain ⟨hlen, hcap, hholds⟩ := hbytes
  obtain rfl := eq_expandBytes_of_streamOf hstream
  subst hunpad
  simp only [unpackBytes, if_neg (hlen ▸ hcap).not_gt, readCells_of_holds .pkbuf hlen hholds, if_pos hover]

end

/-- Settles O34: the two cases are the two outcomes of the search for the marker. -/
theorem unpackStripsTheMarker : Obligations.UnpackStripsTheMarker := by
  intro s bytes bits out anomaly pad hcfg hbytes hstream hcase hfit
  obtain ⟨hunpad, hpad⟩ : unpad bits = ⟨out, anomaly, pad⟩ ∧ pad < 2 ^ 32 := by
    obtain ⟨p, hp, hone, hzero, rfl, rfl, rfl⟩ | ⟨hnone, rfl, rfl, rfl⟩ := hcase
    · exact ⟨unpad_of_marker hp hone hzero, by omega⟩
    · exact ⟨unpad_of_no_marker hnone, by omega⟩
  obtain ⟨hholds, htail, hlater⟩ := holds_tailIs_laterKept_putBits s.blk.bitbuf out
  exact ⟨_, exec_of_ok (by nofun) (unpackBytes_of_fits hbytes hstream hunpad hfit), hholds, htail, hlater,
    Nat.mod_eq_of_lt (lt_two_pow_of_le_maxBits hcfg hfit), rfl, rfl, Nat.mod_eq_of_lt hpad, rfl, rfl⟩

/-- Settles O35: PK_LEN is checked before the bytes are read, and the length of what is left after that. -/
theorem unpackStopsInOrder : Obligations.UnpackStopsInOrder := by
  intro s
  refine ⟨fun hcap => exec_of_raise (by nofun) (if_pos hcap), fun i hcap hi hbelow hnone => ?_, ?_, ?_⟩
  · refine exec_of_fault (by nofun) (show unpackBytes s.blk = _ from ?_)
    simp only [unpackBytes, if_neg hcap.not_gt, readCells_of_first_unwritten .pkbuf hi hbelow hnone]
  · rintro bytes bits hbytes hstream ⟨p, hp, hone, hzero, hover⟩
    exact exec_of_raise (by nofun) (unpackBytes_of_overflow hbytes hstream (unpad_of_marker hp hone hzero) hover)
  · intro bytes bits hbytes hstream hnone hover
    exact exec_of_raise (by nofun) (unpackBytes_of_overflow hbytes hstream (unpad_of_no_marker hnone) hover)

/-- The padding of PACK has its marker after its zeros, and the bitstring after the marker (44_bit_packing R179). -/
theorem marker_of_padding (n : Nat) (bs : List Bool) {bits : List Bool}
    (h : bits = List.replicate n false ++ [true] ++ bs) :
    bits[n]? = some true ∧ (∀ j, j < n → bits[j]? = some false) ∧ bs = bits.drop (n + 1) := by
  have hlen : (List.replicate n false).length = n := List.length_replicate
  subst h
  rw [List.append_assoc]
  refine ⟨?_, fun j hj => ?_, ?_⟩
  · rw [List.getElem?_append_right hlen.le, hlen, Nat.sub_self]
    rfl
  · rw [List.getElem?_append_left (by omega), List.getElem?_replicate_of_lt hj]
  · rw [List.drop_append, hlen, List.drop_eq_nil_of_le (by omega), Nat.add_sub_cancel_left]
    rfl

/-- Settles O36: PACK leaves a stream with the marker at index `7 - (L mod 8)`, and what follows it is the bitstring. -/
theorem unpackInvertsPack : Obligations.UnpackInvertsPack := by
  intro s bs hcfg hbits
  obtain ⟨-, hcap, -⟩ := id hbits
  obtain ⟨t, bytes, hpack, hstream, hlen, hholds, -, -, hpkLen, herr, hpad, -, hframe⟩ :=
    packPrependsTheMarker s bs hbits
  have htcfg : t.blk.cfg = s.blk.cfg := congrArg (·.blk.cfg) hframe
  have hbytes : BytesAre t.blk bytes := ⟨hpkLen, by rw [htcfg, maxPk]; omega, hholds⟩
  obtain ⟨hone, hzero, hrest⟩ := marker_of_padding (7 - bs.length % 8) bs rfl
  obtain ⟨u, hunpack, hout, -, -, hbitLen, hanomaly, herr', hpad', -, hframe'⟩ :=
    unpackStripsTheMarker t bytes _ bs false (7 - bs.length % 8 + 1) (htcfg ▸ hcfg) hbytes hstream
      (.inl ⟨7 - bs.length % 8, by omega, hone, hzero, hrest, rfl, rfl⟩) (htcfg ▸ hcap)
  have hucfg : u.blk.cfg = s.blk.cfg := (congrArg (·.blk.cfg) hframe').trans htcfg
  exact ⟨t, u, hpack, hunpack, herr, herr', ⟨hbitLen, hucfg ▸ hcap, hout⟩, hanomaly, congrArg (·.blk.pkLen) hframe',
    BitVec.eq_of_toNat_eq (by omega)⟩

end Sys2Proof.Machine
end

section
/-! How ENCODE ends (44_bit_packing R175, R176): the encoding loop over a run of symbols with codes, the checks that can
stop it at the next cell, and the bitstring it commits. -/

namespace Sys2Proof.Machine

open Sys2Proof.Safety

/-! ## One turn of the encoding loop -/

section
variable {b : Block} {i : Nat} {out : List Bool} {n : Nat}

theorem encodeLoop_of_readSym_error {e : Stop} (h : readSym b.inbuf i = .error e) :
    encodeLoop b i out (n + 1) = .error e := by
  simp only [encodeLoop, h]

variable {x : Sym} (hread : readSym b.inbuf i = .ok x)
include hread

theorem encodeLoop_of_unmapped (hvalid : (atSym b.code x).valid = false) :
    encodeLoop b i out (n + 1) = .error (.raise .unmappedSymbol (BitVec.ofNat 32 i) (x.setWidth 32)) := by
  simp only [encodeLoop, hread, if_pos hvalid]

variable (hvalid : (atSym b.code x).valid = true)
include hvalid

theorem encodeLoop_of_overflow (hover : b.cfg.maxBits < out.length + (atSym b.code x).len.toNat) :
    encodeLoop b i out (n + 1) = .error (.raise .capacity (BitVec.ofNat 32 i) (x.setWidth 32)) := by
  simp only [encodeLoop, hread, hvalid, Bool.true_eq_false, if_false, if_pos hover]

/-- A symbol whose code fits has it appended (44_bit_packing R175). -/
theorem encodeLoop_of_fits (hfit : out.length + (atSym b.code x).len.toNat ≤ b.cfg.maxBits) :
    encodeLoop b i out (n + 1) = encodeLoop b (i + 1) (out ++ (atSym b.code x).path) n := by
  simp only [encodeLoop, hread, hvalid, Bool.true_eq_false, if_false, if_neg hfit.not_gt]

end

/-! ## A run of symbols with codes -/

theorem codeString_cons (b : Block) (x : Sym) (ss : List Sym) :
    codeString b (x :: ss) = (atSym b.code x).path ++ codeString b ss := rfl

/-- The loop passes over a run of symbols with codes that stay within MAX_BITS together, and appends their codes. -/
theorem encodeLoop_run {b : Block} (n : Nat) (ss : List Sym) {i : Nat} {out : List Bool}
    (hread : ∀ j, (h : j < ss.length) → readSym b.inbuf (i + j) = .ok ss[j])
    (hvalid : ∀ x ∈ ss, (atSym b.code x).valid = true)
    (hfit : out.length + (codeString b ss).length ≤ b.cfg.maxBits) :
    encodeLoop b i out (ss.length + n) = encodeLoop b (i + ss.length) (out ++ codeString b ss) n := by
  induction ss generalizing i out with
  | nil => simp [codeString]
  | cons x ss ih =>
    rw [codeString_cons, List.length_append, length_path] at hfit
    have htail : ∀ j, (h : j < ss.length) → readSym b.inbuf (i + 1 + j) = .ok ss[j] := fun j hj => by
      rw [Nat.add_assoc, Nat.add_comm 1]
      exact hread (j + 1) (Nat.succ_lt_succ hj)
    calc encodeLoop b i out ((x :: ss).length + n) = encodeLoop b i out (ss.length + n + 1) := by
          rw [List.length_cons, Nat.add_right_comm]
      _ = encodeLoop b (i + 1) (out ++ (atSym b.code x).path) (ss.length + n) :=
          encodeLoop_of_fits (hread 0 (Nat.succ_pos _)) (hvalid x List.mem_cons_self) (by omega)
      _ = encodeLoop b (i + 1 + ss.length) (out ++ (atSym b.code x).path ++ codeString b ss) n :=
          ih htail (fun y hy => hvalid y (List.mem_cons_of_mem x hy)) (by rw [List.length_append, length_path]; omega)
      _ = _ := by rw [codeString_cons, List.append_assoc, List.length_cons, Nat.add_right_comm, Nat.add_assoc]

section
variable {b : Block} {ss : List Sym} (hholds : Holds b.inbuf (ss.map (fun x => x.setWidth 8)))
  (hvalid : ∀ x : Sym, x ∈ ss → (atSym b.code x).valid = true) (hfit : (codeString b ss).length ≤ b.cfg.maxBits)
include hholds hvalid hfit

/-- The loop over INBUF comes past the symbols it holds with their codes as its bitstring. -/
theorem encodeLoop_of_holds (n : Nat) :
    encodeLoop b 0 [] (ss.length + n) = encodeLoop b ss.length (codeString b ss) n := by
  have hread : ∀ j, (h : j < ss.length) → readSym b.inbuf (0 + j) = .ok ss[j] := fun j hj => by
    rw [Nat.zero_add, readSym_ok, hholds j (by rwa [List.length_map]), List.getElem?_map, List.getElem?_eq_getElem hj]
    rfl
  simpa using encodeLoop_run n ss hread hvalid (out := []) (by simpa using hfit)

/-- What stops the loop at the cell after the run is ENCODE's result if its first checks pass (44_bit_packing R176). -/
theorem encodeSyms_of_stop {e : Stop} (hcodes : b.codesValid = true) (hcap : b.inLen.toNat ≤ b.cfg.maxSyms)
    (hlt : ss.length < b.inLen.toNat) (hstop : ∀ n, encodeLoop b ss.length (codeString b ss) (n + 1) = .error e) :
    encodeSyms b = .error e := by
  obtain ⟨n, hn⟩ : ∃ n, b.inLen.toNat = ss.length + (n + 1) := ⟨b.inLen.toNat - ss.length - 1, by omega⟩
  have hloop : encodeLoop b 0 [] b.inLen.toNat = .error e := by
    rw [hn, encodeLoop_of_holds hholds hvalid hfit, hstop]
  simp only [encodeSyms, hcodes, Bool.true_eq_false, if_false, if_neg (Nat.ne_zero_of_lt hlt), if_neg hcap.not_gt,
    hloop]

end

/-- Settles O31: each check is reached when those before it pass, and the loop reaches cell `|ss|` past the run. -/
theorem encodeStopsInOrder : Obligations.EncodeStopsInOrder := by
  intro s
  refine ⟨fun hcodes => exec_of_raise (by nofun) (if_pos hcodes), fun hcodes hzero => exec_of_raise (by nofun) ?_,
    fun hcodes hne hcap => exec_of_raise (by nofun) ?_, fun ss hcodes hcap hlt hholds hvalid hfit => ?_⟩
  · exact (if_neg (by simp [hcodes])).trans (if_pos (congrArg BitVec.toNat hzero))
  · exact (if_neg (by simp [hcodes])).trans
      ((if_neg fun h => hne (BitVec.eq_of_toNat_eq h)).trans (if_pos hcap))
  have hstop {e : Stop} := encodeSyms_of_stop (e := e) hholds hvalid hfit hcodes hcap hlt
  refine ⟨fun hnone => ?_, fun v hget hv => ?_, fun x hget => ⟨fun hx => ?_, fun hx hover => ?_⟩⟩
  · exact exec_of_fault (by nofun) (hstop fun _ =>
      encodeLoop_of_readSym_error ((readSym_error _ _ _).mpr (.inl ⟨hnone, rfl⟩)))
  · exact exec_of_raise (by nofun) (hstop fun _ =>
      encodeLoop_of_readSym_error ((readSym_error _ _ _).mpr (.inr ⟨v, hget, hv, rfl⟩)))
  · exact exec_of_raise (by nofun) (hstop fun _ => encodeLoop_of_unmapped ((readSym_ok _ _ _).mpr hget) hx)
  · exact exec_of_raise (by nofun) (hstop fun _ => encodeLoop_of_overflow ((readSym_ok _ _ _).mpr hget) hx hover)

/-- Settles O30: the run is the whole stream. -/
theorem encodeConcatenatesCodes : Obligations.EncodeConcatenatesCodes := by
  intro s ss hcfg hcodes hinput hvalid hfit
  obtain ⟨hlen, hpos, hcap, hholds⟩ := hinput
  have hloop : encodeLoop s.blk 0 [] s.blk.inLen.toNat = .ok (codeString s.blk ss) := by
    rw [hlen]
    exact encodeLoop_of_holds hholds hvalid hfit 0
  have hok := (encodeSyms_ok _ _).mpr ⟨hcodes, by omega, by omega, codeString s.blk ss, hloop, rfl⟩
  obtain ⟨hout, htail, hlater⟩ := holds_tailIs_laterKept_putBits s.blk.bitbuf (codeString s.blk ss)
  refine ⟨_, exec_of_ok (by nofun) hok, hout, htail, hlater,
    Nat.mod_eq_of_lt (lt_two_pow_of_le_maxBits hcfg hfit), rfl, rfl, ?_, rfl⟩
  show (BitVec.ofNat 32 s.blk.inLen.toNat).toNat = ss.length
  rw [BitVec.ofNat_toNat, BitVec.setWidth_eq, hlen]

end Sys2Proof.Machine
end

section
/-! The walk of DECODE (45_decoder R196 to R199): one turn for each bit, the bits of a code and of a run of codes, and
where the walk stands when a code has begun and not ended. -/

namespace Sys2Proof.Machine

open Sys2Proof.Safety

/-! ## Paths by their first bit -/

theorem leadsTo_nil {nodes : Vector Node 256} {k : BitVec 8} {x : Sym} :
    leadsTo nodes k [] = some x ↔ (atNode nodes k).leaf = true ∧ (atNode nodes k).sym = x := by
  simp [leadsTo]

theorem leadsTo_cons {nodes : Vector Node 256} {k : BitVec 8} {bit : Bool} {path : List Bool} {x : Sym} :
    leadsTo nodes k (bit :: path) = some x ↔ (atNode nodes k).leaf = false ∧
      (atNode nodes (childOf (atNode nodes k) bit)).used = true ∧
      leadsTo nodes (childOf (atNode nodes k) bit) path = some x := by
  simp [leadsTo]

theorem leaf_eq_false_of_leadsTo {nodes : Vector Node 256} {k : BitVec 8} {path : List Bool} {x : Sym}
    (hne : path ≠ []) (h : leadsTo nodes k path = some x) : (atNode nodes k).leaf = false := by
  obtain ⟨bit, rest, rfl⟩ := List.exists_cons_of_ne_nil hne
  exact (leadsTo_cons.mp h).1

/-! ## The beginning of a written range -/

theorem holds_of_holds_append {α : Type} {m : Memory α} {vs ws : List α} (h : Holds m (vs ++ ws)) : Holds m vs := by
  intro i hi
  rw [h i (by rw [List.length_append]; omega), List.getElem?_append_left hi]

theorem holds_of_isPrefix {α : Type} {m : Memory α} {vs ws : List α} (h : Holds m ws) (hpre : vs <+: ws) :
    Holds m vs := by
  obtain ⟨rest, rfl⟩ := hpre
  exact holds_of_holds_append h

/-- The cell after the first values of a list holds the next one. -/
theorem get_length_of_holds {α : Type} {m : Memory α} {vs ws : List α} {v : α} (h : Holds m (vs ++ v :: ws)) :
    Memory.get m vs.length = some v := by
  rw [h vs.length (by simp)]
  simp

/-! ## Turns of the walk -/

section
variable {b : Block} {cnt : Nat} {cur : BitVec 8} {i : Nat} {out : List Sym} (hmore : out.length < cnt)
include hmore

/-- A bit takes the cursor to the child it selects; a leaf there emits its symbol and sends it back to the root
(45_decoder R197). -/
theorem decodeLoop_bit {bit : Bool} (hread : Memory.get b.bitbuf i = some bit)
    (hleaf : (atNode b.node cur).leaf = false)
    (hused : (atNode b.node (childOf (atNode b.node cur) bit)).used = true) (n : Nat) :
    decodeLoop b cnt cur i out (n + 1) =
      if (atNode b.node (childOf (atNode b.node cur) bit)).leaf then
        decodeLoop b cnt b.root (i + 1) (out ++ [(atNode b.node (childOf (atNode b.node cur) bit)).sym]) n
      else decodeLoop b cnt (childOf (atNode b.node cur) bit) (i + 1) out n := by
  simp only [decodeLoop, if_pos hmore, (readCell_ok _ _ _ _).mpr hread, hleaf, hused, Bool.false_eq_true,
    Bool.true_eq_false, if_false]

/-- A bit that is needed and unwritten is UNINIT (20_memory R79). -/
theorem decodeLoop_of_unwritten (hnone : Memory.get b.bitbuf i = none) (n : Nat) :
    decodeLoop b cnt cur i out (n + 1) = .error (.fault (.uninit .bitbuf i)) := by
  simp only [decodeLoop, if_pos hmore, (readCell_error _ _ _ _).mpr ⟨hnone, rfl⟩]

/-- A bit that is needed and beyond BIT_LEN is TRUNCATED_STREAM (45_decoder R199). -/
theorem decodeLoop_at_end : decodeLoop b cnt cur i out 0 =
    .error (.raise .truncatedStream (BitVec.ofNat 32 out.length) (BitVec.ofNat 32 i)) := if_pos hmore

/-- Bits that begin a path and do not end it leave the cursor where the rest of the path goes on, and emit nothing. -/
theorem exists_decodeLoop_of_path_begun {rest : List Bool} (hrest : rest ≠ []) {x : Sym} (pre : List Bool) :
    ∀ {cur : BitVec 8} {before : List Bool}, leadsTo b.node cur (pre ++ rest) = some x →
      Holds b.bitbuf (before ++ pre) →
      ∃ k, leadsTo b.node k rest = some x ∧ ∀ n, decodeLoop b cnt cur before.length out (pre.length + n) =
        decodeLoop b cnt k (before ++ pre).length out n := by
  induction pre with
  | nil => exact fun hlead _ => ⟨_, hlead, fun n => by simp⟩
  | cons bit pre ih =>
    intro cur before hlead hholds
    obtain ⟨hleaf, hused, hlead⟩ := leadsTo_cons.mp hlead
    have hchild := leaf_eq_false_of_leadsTo (by simp [hrest]) hlead
    obtain ⟨k, hk, hwalk⟩ := ih (before := before ++ [bit]) hlead (by simpa using hholds)
    refine ⟨k, hk, fun n => ?_⟩
    calc decodeLoop b cnt cur before.length out ((bit :: pre).length + n)
        = decodeLoop b cnt cur before.length out (pre.length + n + 1) := by
          rw [List.length_cons, Nat.add_right_comm]
      _ = decodeLoop b cnt (childOf (atNode b.node cur) bit) (before ++ [bit]).length out (pre.length + n) := by
          rw [decodeLoop_bit hmore (get_length_of_holds hholds) hleaf hused, if_neg (by simp [hchild]),
            List.length_append, List.length_singleton]
      _ = decodeLoop b cnt k (before ++ bit :: pre).length out n := by rw [hwalk, ← List.append_cons]

/-- The bits of a whole path emit its symbol: its last bit lands on the leaf (45_decoder R197). -/
theorem decodeLoop_code {path before : List Bool} {x : Sym} (hne : path ≠ [])
    (hlead : leadsTo b.node cur path = some x) (hholds : Holds b.bitbuf (before ++ path)) (n : Nat) :
    decodeLoop b cnt cur before.length out (path.length + n) =
      decodeLoop b cnt b.root (before ++ path).length (out ++ [x]) n := by
  obtain ⟨pre, bit, rfl⟩ := (List.eq_nil_or_concat' path).resolve_left hne
  rw [← List.append_assoc] at hholds
  obtain ⟨k, hk, hwalk⟩ :=
    exists_decodeLoop_of_path_begun hmore (List.cons_ne_nil bit []) pre hlead (holds_of_holds_append hholds)
  obtain ⟨hleaf, hused, hlast⟩ := leadsTo_cons.mp hk
  obtain ⟨hchild, hsym⟩ := leadsTo_nil.mp hlast
  rw [List.length_append, List.length_singleton, Nat.add_assoc, hwalk, Nat.add_comm 1,
    decodeLoop_bit hmore (get_length_of_holds hholds) hleaf hused, if_pos hchild, hsym, ← List.append_assoc,
    List.length_append (bs := [bit]), List.length_singleton]

end

/-! ## A run of codes -/

section
variable {b : Block} {cnt : Nat} (hroot : (atNode b.node b.root).leaf = false)
include hroot

/-- The walk passes over a run of codes, each a path from the root, and emits their symbols. -/
theorem decodeLoop_run (n : Nat) (ps : List (List Bool × Sym)) {before : List Bool} {out : List Sym}
    (hlead : ∀ p ∈ ps, leadsTo b.node b.root p.1 = some p.2) (hholds : Holds b.bitbuf (before ++ ps.flatMap Prod.fst))
    (hcnt : out.length + ps.length ≤ cnt) :
    decodeLoop b cnt b.root before.length out ((ps.flatMap Prod.fst).length + n) =
      decodeLoop b cnt b.root (before ++ ps.flatMap Prod.fst).length (out ++ ps.map Prod.snd) n := by
  induction ps generalizing before out with
  | nil => simp
  | cons p ps ih =>
    rw [List.length_cons] at hcnt
    rw [List.flatMap_cons, ← List.append_assoc] at hholds
    have hp := hlead p List.mem_cons_self
    have hne : p.1 ≠ [] := fun h => by simp [h, leadsTo_nil, hroot] at hp
    rw [List.flatMap_cons, List.length_append, Nat.add_assoc,
      decodeLoop_code (by omega) hne hp (holds_of_holds_append hholds),
      ih (fun q hq => hlead q (List.mem_cons_of_mem p hq)) hholds (by simp; omega)]
    simp

variable {ps : List (List Bool × Sym)} (hlead : ∀ p ∈ ps, leadsTo b.node b.root p.1 = some p.2)
include hlead

/-- The walk over BITBUF comes past the codes it begins with, with their symbols emitted. -/
theorem decodeLoop_of_holds (hholds : Holds b.bitbuf (ps.flatMap Prod.fst)) (hcnt : ps.length ≤ cnt) (n : Nat) :
    decodeLoop b cnt b.root 0 [] ((ps.flatMap Prod.fst).length + n) =
      decodeLoop b cnt b.root (ps.flatMap Prod.fst).length (ps.map Prod.snd) n := by
  simpa using decodeLoop_run hroot n ps (before := []) (out := []) hlead hholds (by simpa using hcnt)

end

/-- After a run of codes and bits that begin a further one and do not end it, the symbols of the run are emitted. -/
theorem exists_decodeLoop_of_code_begun {b : Block} {cnt : Nat} {ps : List (List Bool × Sym)}
    (hlead : ∀ p ∈ ps, leadsTo b.node b.root p.1 = some p.2) (hcnt : ps.length < cnt) {pre rest : List Bool} {x : Sym}
    (hrest : rest ≠ []) (hcode : leadsTo b.node b.root (pre ++ rest) = some x)
    (hholds : Holds b.bitbuf (ps.flatMap Prod.fst ++ pre)) :
    ∃ k, ∀ n, decodeLoop b cnt b.root 0 [] ((ps.flatMap Prod.fst ++ pre).length + n) =
      decodeLoop b cnt k (ps.flatMap Prod.fst ++ pre).length (ps.map Prod.snd) n := by
  have hroot := leaf_eq_false_of_leadsTo (by simp [hrest]) hcode
  obtain ⟨k, -, hwalk⟩ :=
    exists_decodeLoop_of_path_begun (out := ps.map Prod.snd) (by simpa using hcnt) hrest pre hcode hholds
  refine ⟨k, fun n => ?_⟩
  rw [List.length_append, Nat.add_assoc, decodeLoop_of_holds hroot hlead (holds_of_holds_append hholds) hcnt.le, hwalk,
    List.length_append]

end Sys2Proof.Machine
end

section
/-! How DECODE ends (45_decoder R196 to R202): its checks in order, the symbols it commits, and the truncated stream. -/

namespace Sys2Proof.Machine

open Sys2Proof.Safety

/-! ## From DECODE's result to its end -/

section
variable {s : State}

theorem exec_decode_of_ok {c : Commit} (h : decodeBits s.blk = .ok c) :
    exec .decode s = .next { s with blk := complete c.blk .none c.r0 c.r1 } := by
  rw [exec_decode_eq, commandResult, h]
  rfl

/-- A raised error also sets OUT_LEN to 0 (45_decoder R202). -/
theorem exec_decode_of_raise {code : ErrCode} {r0 r1 : Word} (h : decodeBits s.blk = .error (.raise code r0 r1)) :
    exec .decode s = decodeFailsWith s code r0 r1 := by
  rw [exec_decode_eq, commandResult, h]
  rfl

theorem exec_decode_of_fault {f : Fault} (h : decodeBits s.blk = .error (.fault f)) : exec .decode s = .fault f := by
  rw [exec_decode_eq, commandResult, h]
  rfl

end

/-- What stops the walk is DECODE's result if its first checks pass (45_decoder R196). -/
theorem decodeBits_of_stop {b : Block} {e : Stop} (hvalid : b.treeValid = true) (hcnt : b.arg.toNat ≤ b.cfg.maxSyms)
    (hlen : b.bitLen.toNat ≤ b.cfg.maxBits)
    (hstop : decodeLoop b b.arg.toNat b.root 0 [] b.bitLen.toNat = .error e) : decodeBits b = .error e := by
  simp only [decodeBits, hvalid, Bool.true_eq_false, if_false, if_neg hcnt.not_gt, if_neg hlen.not_gt, hstop]

/-- Settles O37: the walk passes over the run of codes, and then the count is reached. -/
theorem decodeEmitsCountedSymbols : Obligations.DecodeEmitsCountedSymbols := by
  intro s ps hvalid hroot harg hcap hbits hlead hholds hle
  obtain ⟨n, hn⟩ := Nat.exists_eq_add_of_le hle
  have hcntLt : ps.length < 2 ^ 32 := harg ▸ s.blk.arg.isLt
  have hloop : decodeLoop s.blk s.blk.arg.toNat s.blk.root 0 [] s.blk.bitLen.toNat =
      .ok ⟨ps.map Prod.snd, (ps.flatMap Prod.fst).length⟩ := by
    rw [hn, decodeLoop_of_holds hroot hlead hholds harg.ge, decodeLoop_done _ _ _ _ _ _ (by simp [harg])]
  have hok := (decodeBits_ok _ _).mpr ⟨hvalid, harg.trans_le hcap, hbits, _, hloop, rfl⟩
  obtain ⟨hout, htail, hlater⟩ :=
    holds_tailIs_laterKept_putBytes s.blk.outbuf ((ps.map Prod.snd).map fun x => x.setWidth 8)
  have hsyms : ps.map (fun p => p.2.setWidth 8) = (ps.map Prod.snd).map fun x => x.setWidth 8 := by
    rw [List.map_map]
    rfl
  rw [List.length_map, List.length_map] at htail hlater
  have hbitLen := s.blk.bitLen.isLt
  refine ⟨_, exec_decode_of_ok hok, hsyms ▸ hout, htail, hlater, BitVec.eq_of_toNat_eq ?_, rfl,
    Nat.mod_eq_of_lt (hle.trans_lt hbitLen), Nat.mod_eq_of_lt (by omega), rfl⟩
  simpa [decodeCommit_eq, harg] using hcntLt

/-- Settles O39: each check is reached when those before it pass, and the walk to the bit it then needs. -/
theorem decodeRefusesInOrder : Obligations.DecodeRefusesInOrder := by
  intro s
  refine ⟨fun hvalid => exec_decode_of_raise (if_pos hvalid), fun hvalid hcap => exec_decode_of_raise ?_,
    fun hvalid hcnt hcap => exec_decode_of_raise ?_, ?_⟩
  · exact (if_neg (by simp [hvalid])).trans (if_pos hcap)
  · exact (if_neg (by simp [hvalid])).trans ((if_neg hcnt.not_gt).trans (if_pos hcap))
  · intro ps pre rest x hvalid hcap hbits hcnt hlead hrest hcode hholds hlt hnone
    obtain ⟨n, hn⟩ := Nat.exists_eq_add_of_lt hlt
    obtain ⟨k, hwalk⟩ := exists_decodeLoop_of_code_begun hlead hcnt hrest hcode hholds
    refine exec_decode_of_fault (decodeBits_of_stop hvalid hcap hbits ?_)
    rw [hn, Nat.add_assoc, hwalk, decodeLoop_of_unwritten (by simpa using hcnt) hnone]

/-- Settles O40: an error is reported over the block as it was, but for DECODE's OUT_LEN. -/
theorem failuresChangeOnlyTheReport : Obligations.FailuresChangeOnlyTheReport := by
  intro i s t h herr
  obtain ⟨c, -, rfl⟩ | ⟨code, r0, r1, -, rfl⟩ := exec_next h
  · exact absurd rfl herr
  · cases i <;> rfl

/-! ## The end of the bitstring -/

section
variable {b : Block} (hnum : TreeNumbering b) (hstruct : TreeStructure b)
include hnum hstruct

/-- From every node of a sound tree some path leads on to a leaf: go left. -/
theorem exists_leadsTo_of_used {k : BitVec 8} (hused : (atNode b.node k).used = true) :
    ∃ path x, leadsTo b.node k path = some x := by
  cases hleaf : (atNode b.node k).leaf with
  | true => exact ⟨[], _, (leadsTo_leaf hleaf _ _).mpr ⟨rfl, rfl⟩⟩
  | false =>
    have hlt := childOf_lt hstruct hused hleaf false
    have hchild := childOf_used hnum hstruct hused hleaf false
    obtain ⟨path, x, h⟩ := exists_leadsTo_of_used hchild
    exact ⟨false :: path, x, leadsTo_cons.mpr ⟨hleaf, hchild, h⟩⟩
termination_by k.toNat

/-- In a sound tree bits begin with a path to a leaf, or begin such a path and do not end it. -/
theorem path_within_or_path_begun (bits : List Bool) : ∀ {k : BitVec 8}, (atNode b.node k).used = true →
    (∃ path x, leadsTo b.node k path = some x ∧ path <+: bits) ∨
    (∃ rest x, rest ≠ [] ∧ leadsTo b.node k (bits ++ rest) = some x) := by
  induction bits with
  | nil =>
    intro k hused
    obtain ⟨path, x, h⟩ := exists_leadsTo_of_used hnum hstruct hused
    by_cases hpath : path = []
    · exact .inl ⟨path, x, h, hpath ▸ List.prefix_rfl⟩
    · exact .inr ⟨path, x, hpath, h⟩
  | cons bit bits ih =>
    intro k hused
    cases hleaf : (atNode b.node k).leaf with
    | true => exact .inl ⟨[], _, (leadsTo_leaf hleaf _ _).mpr ⟨rfl, rfl⟩, List.nil_prefix⟩
    | false =>
      have hchild := childOf_used hnum hstruct hused hleaf bit
      obtain ⟨path, x, h, hpre⟩ | ⟨rest, x, hne, h⟩ := ih hchild
      · exact .inl ⟨bit :: path, x, leadsTo_cons.mpr ⟨hleaf, hchild, h⟩, (List.prefix_cons_inj bit).mpr hpre⟩
      · exact .inr ⟨rest, x, hne, leadsTo_cons.mpr ⟨hleaf, hchild, h⟩⟩

end

/-- The codes at the start of a bitstring, up to a count: as many as the count, or all there are. -/
theorem exists_maximal_codes (nodes : Vector Node 256) (root : BitVec 8) (bs : List Bool) (cnt : Nat) :
    ∃ ps : List (List Bool × Sym), ps.flatMap Prod.fst <+: bs ∧ (∀ p ∈ ps, leadsTo nodes root p.1 = some p.2) ∧
      (ps.length = cnt ∨ ps.length < cnt ∧ ∀ (code : List Bool) (x : Sym), leadsTo nodes root code = some x →
        ¬ ps.flatMap Prod.fst ++ code <+: bs) := by
  induction cnt with
  | zero => exact ⟨[], List.nil_prefix, by simp, .inl rfl⟩
  | succ cnt ih =>
    obtain ⟨ps, hpre, hlead, hlen | ⟨hlt, hmax⟩⟩ := ih
    · by_cases hmore : ∃ code x, leadsTo nodes root code = some x ∧ ps.flatMap Prod.fst ++ code <+: bs
      · obtain ⟨code, x, hcode, hext⟩ := hmore
        refine ⟨ps ++ [(code, x)], by simpa using hext, fun p hp => ?_, .inl (by simp [hlen])⟩
        obtain hp | hp := List.mem_append.mp hp
        · exact hlead p hp
        · exact List.mem_singleton.mp hp ▸ hcode
      · exact ⟨ps, hpre, hlead, .inr ⟨by omega, fun code x hcode hext => hmore ⟨code, x, hcode, hext⟩⟩⟩
    · exact ⟨ps, hpre, hlead, .inr ⟨by omega, hmax⟩⟩

/-- With no further code among its bits, and every bit written, DECODE runs out of bits inside a code or before it
(45_decoder R199). -/
theorem decodeBits_of_no_further_code {b : Block} {bs : List Bool} {ps : List (List Bool × Sym)} (htree : TreeInv b)
    (hvalid : b.treeValid = true) (hcap : b.arg.toNat ≤ b.cfg.maxSyms) (hbits : BitsAre b bs)
    (hcnt : ps.length < b.arg.toNat) (hpre : ps.flatMap Prod.fst <+: bs)
    (hlead : ∀ p ∈ ps, leadsTo b.node b.root p.1 = some p.2)
    (hmax : ∀ (code : List Bool) (x : Sym), leadsTo b.node b.root code = some x →
      ¬ ps.flatMap Prod.fst ++ code <+: bs) :
    decodeBits b = .error (.raise .truncatedStream (BitVec.ofNat 32 ps.length) b.bitLen) := by
  obtain ⟨hnum, hstruct, -⟩ := (treeInv_iff_of_treeValid hvalid).mp htree
  obtain ⟨hlen, hfit, hholds⟩ := hbits
  obtain ⟨pre, rfl⟩ := hpre
  obtain ⟨code, x, hcode, hbegins⟩ | ⟨rest, x, hrest, hcode⟩ :=
    path_within_or_path_begun hnum hstruct pre (root_internal_of_treeNumbering hnum).1
  · exact absurd ((List.prefix_append_right_inj _).mpr hbegins) (hmax code x hcode)
  · obtain ⟨k, hwalk⟩ := exists_decodeLoop_of_code_begun hlead hcnt hrest hcode hholds
    refine decodeBits_of_stop hvalid hcap (hlen ▸ hfit) ?_
    rw [hlen, ← Nat.add_zero (List.length _), hwalk, decodeLoop_at_end (by simpa using hcnt), ← hlen,
      BitVec.ofNat_toNat, BitVec.setWidth_eq, List.length_map]

/-- With every bit written DECODE succeeds where the bits begin with the codes of ARG symbols (45_decoder R199). -/
theorem exists_decode_success {s : State} {bs : List Bool} {ps : List (List Bool × Sym)}
    (hvalid : s.blk.treeValid = true) (hroot : (atNode s.blk.node s.blk.root).leaf = false)
    (hcap : s.blk.arg.toNat ≤ s.blk.cfg.maxSyms) (hbits : BitsAre s.blk bs) (hlen : ps.length = s.blk.arg.toNat)
    (hpre : ps.flatMap Prod.fst <+: bs) (hlead : ∀ p ∈ ps, leadsTo s.blk.node s.blk.root p.1 = some p.2) :
    ∃ t, exec .decode s = .next t ∧ t.blk.error = .none := by
  obtain ⟨hbitLen, hfit, hholds⟩ := hbits
  obtain ⟨t, ht, -, -, -, -, herr, -⟩ := decodeEmitsCountedSymbols s ps hvalid hroot hlen.symm (hlen.trans_le hcap)
    (hbitLen.trans_le hfit) hlead (holds_of_isPrefix hholds hpre) (hpre.length_le.trans hbitLen.ge)
  exact ⟨t, ht, herr⟩

/-- Settles O38: the codes at the start of the bits are as many as ARG, and DECODE succeeds, or they are all there are,
and the bits run out. -/
theorem decodeTruncatesExactlyWhenBitsRunOut : Obligations.DecodeTruncatesExactlyWhenBitsRunOut := by
  intro s bs _ htree hvalid hcap hbits
  obtain ⟨hnum, -⟩ := (treeInv_iff_of_treeValid hvalid).mp htree
  have hsuccess {ps : List (List Bool × Sym)} :=
    exists_decode_success (ps := ps) hvalid (root_internal_of_treeNumbering hnum).2 hcap hbits
  obtain ⟨ps, hpre, hlead, hlen | ⟨hlt, hmax⟩⟩ :=
    exists_maximal_codes s.blk.node s.blk.root bs s.blk.arg.toNat
  · obtain ⟨t, ht, herr⟩ := hsuccess hlen hpre hlead
    exact ⟨t, ht, iff_of_true herr ⟨ps, hlen, hpre, hlead⟩, absurd herr⟩
  · have hstop := exec_decode_of_raise (decodeBits_of_no_further_code htree hvalid hcap hbits hlt hpre hlead hmax)
    refine ⟨_, hstop, iff_of_false nofun ?_, fun _ => ⟨⟨ps, ?_, hlt, hpre, hlead, hmax⟩, rfl⟩⟩
    · rintro ⟨ps', hlen', hpre', hlead'⟩
      obtain ⟨t, ht, herr⟩ := hsuccess hlen' hpre' hlead'
      cases hstop.symm.trans ht
      exact nomatch herr
    · exact Nat.mod_eq_of_lt (hlt.trans s.blk.arg.isLt)

end Sys2Proof.Machine
end

section
/-! The whole pipeline (45_decoder R203): FREQ_SCAN, BUILD and GEN_CODES give every symbol of the stream a code, and
DECODE of the codes' concatenation gives the stream back. -/

namespace Sys2Proof.Machine

open Sys2Proof.Safety

/-! ## The codes of a scanned stream -/

theorem ndist_scanCommit_ne_zero (b : Block) {ss : List Sym} (hpos : 1 ≤ ss.length) : (scanCommit b ss).ndist ≠ 0 := by
  have hord := List.length_pos_of_mem ((mem_tally_ord ss _).mpr (List.getElem_mem hpos))
  rw [← toNat_ndist_scanCommit b ss] at hord
  exact fun hzero => hord.ne' (congrArg BitVec.toNat hzero)

/-- A sound code table has a code for every symbol of the frequency table (43_code_table R166). -/
theorem valid_of_mem_ordered {b : Block} (hcodes : CodesInv b) (hvalid : b.codesValid = true) {x : Sym}
    (hx : x ∈ ordered b) : (atSym b.code x).valid = true := by
  simp [valid_eq_isLeafSym hcodes hvalid, isLeafSym, hx]

/-- From a written stream FREQ_SCAN, BUILD and GEN_CODES complete, with a sound tree and a code for each of its symbols
(41_frequency R121, 42_tree_builder R141, 43_code_table R161). -/
theorem exists_codes_of_inputIs {s0 : State} {ss : List Sym} (hinput : InputIs s0.blk ss) :
    ∃ s1 s2 s3 : State,
      exec .freqScan s0 = .next s1 ∧ s1.blk.error = .none ∧
      exec .build s1 = .next s2 ∧ s2.blk.error = .none ∧
      exec .genCodes s2 = .next s3 ∧ s3.blk.error = .none ∧
      s3.blk.cfg = s0.blk.cfg ∧ InputIs s3.blk ss ∧ TreeInv s3.blk ∧ CodesInv s3.blk ∧ s3.blk.codesValid = true ∧
      ∀ x ∈ ss, (atSym s3.blk.code x).valid = true := by
  obtain ⟨hlen, hpos, -⟩ := id hinput
  have htable := tableInv_scanCommit s0.blk (ss := ss) (hlen ▸ s0.blk.inLen.isLt)
  obtain ⟨s1, r0, r1, hscan, hs1⟩ : ∃ s1 r0 r1, exec .freqScan s0 = .next s1 ∧
      s1 = { s0 with blk := complete (scanCommit s0.blk ss) .none r0 r1 } :=
    ⟨_, _, _, exec_of_ok (by nofun) (freqScan_of_inputIs hinput), rfl⟩
  have htable1 : TableInv s1.blk := hs1 ▸ htable
  have hne : s1.blk.ndist ≠ 0 := hs1 ▸ ndist_scanCommit_ne_zero s0.blk hpos
  obtain ⟨s2, q0, q1, hbuild, hs2⟩ : ∃ s2 q0 q1, exec .build s1 = .next s2 ∧
      s2 = { s1 with blk := complete (buildCommit s1.blk) .none q0 q1 } :=
    ⟨_, _, _, exec_of_ok (by nofun) ((buildTree_ok _ _).mpr ⟨hne, two_le_length_freqList hne, rfl⟩), rfl⟩
  have htree2 : TreeInv s2.blk := hs2 ▸ treeInv_buildCommit htable1 hne
  have hvalid2 : s2.blk.treeValid = true := hs2 ▸ rfl
  obtain ⟨acc, hwalk, hok⟩ := exists_genCodes_ok hvalid2 htree2
  have hcodes := codesInv_codesCommit hvalid2 htree2 hwalk
  have hord : ordered s2.blk = (tally ss).ord := by
    rw [← ordered_scanCommit s0.blk, hs2, hs1]
    rfl
  refine ⟨s1, s2, _, hscan, hs1 ▸ rfl, hbuild, hs2 ▸ rfl, exec_of_ok (by nofun) hok, rfl, ?_, ?_, htree2, hcodes, rfl,
    fun x hx => valid_of_mem_ordered hcodes rfl (hord ▸ (mem_tally_ord ss x).mpr hx)⟩
  · subst hs2 hs1
    rfl
  · subst hs2 hs1
    exact hinput

/-! ## What PACK and UNPACK keep -/

theorem tables_of_exec_pack_or_unpack {i : Instr} {s t : State} (hi : i = .pack ∨ i = .unpack)
    (h : exec i s = .next t) : t.blk.tables = s.blk.tables := by
  obtain ⟨b, ht, hb⟩ := commandsWriteOnlyTheirOwnState i s t h
  have htables : b.tables = s.blk.tables := by
    obtain rfl | rfl := hi
    · obtain ⟨hb, -⟩ := hb
      exact (congrArg Block.tables hb :)
    · obtain ⟨hb, -⟩ := hb
      exact (congrArg Block.tables hb :)
  exact (congrArg (·.blk.tables) ht).trans htables

/-! ## DECODE of a stream's bitstring -/

/-- The symbols of a stream with their codes. -/
def codedSyms (b : Block) (ss : List Sym) : List (List Bool × Sym) := ss.map fun x => ((atSym b.code x).path, x)

theorem length_codedSyms (b : Block) (ss : List Sym) : (codedSyms b ss).length = ss.length := List.length_map _

theorem flatMap_fst_codedSyms (b : Block) (ss : List Sym) : (codedSyms b ss).flatMap Prod.fst = codeString b ss :=
  List.flatMap_map ..

/-- On a sound tree DECODE of the bitstring of a stream gives the stream: its codes are paths from the root
(45_decoder R197, R203). -/
theorem decode_codeString {s : State} {ss : List Sym} (htree : TreeInv s.blk) (hcodes : CodesInv s.blk)
    (hvalid : s.blk.codesValid = true) (hcode : ∀ x ∈ ss, (atSym s.blk.code x).valid = true)
    (harg : s.blk.arg.toNat = ss.length) (hcap : ss.length ≤ s.blk.cfg.maxSyms)
    (hbits : BitsAre s.blk (codeString s.blk ss)) :
    ∃ t : State, exec .decode s = .next t ∧ t.blk.error = .none ∧ t.blk.outLen.toNat = ss.length ∧
      Holds t.blk.outbuf (ss.map (fun x => x.setWidth 8)) ∧ t.blk.result1 = 0 := by
  have htreeValid := ((codesInv_iff_of_codesValid hvalid).mp hcodes).1
  obtain ⟨hnum, -⟩ := (treeInv_iff_of_treeValid htreeValid).mp htree
  obtain ⟨hlen, hfit, hholds⟩ := hbits
  have hcodeString := flatMap_fst_codedSyms s.blk ss
  have hlength := length_codedSyms s.blk ss
  have hlead : ∀ p ∈ codedSyms s.blk ss, leadsTo s.blk.node s.blk.root p.1 = some p.2 := fun p hp => by
    obtain ⟨x, hx, rfl⟩ := List.mem_map.mp hp
    exact (leadsTo_root_iff htree hcodes hvalid).mpr ⟨hcode x hx, rfl⟩
  obtain ⟨t, ht, hout, -, -, houtLen, herr, -, hleft, -⟩ := decodeEmitsCountedSymbols s (codedSyms s.blk ss) htreeValid
    (root_internal_of_treeNumbering hnum).2 (harg.trans hlength.symm) (hlength.trans_le hcap) (hlen.trans_le hfit) hlead
    (hcodeString ▸ hholds) (hcodeString ▸ hlen.ge)
  refine ⟨t, ht, herr, houtLen ▸ harg, ?_, BitVec.eq_of_toNat_eq ?_⟩
  · rwa [codedSyms, List.map_map] at hout
  · rw [hleft, hcodeString, hlen, Nat.sub_self]
    rfl

/-- Settles O60: ENCODE writes the stream's bitstring, UNPACK restores it, and DECODE walks it back to the stream. -/
theorem decodeInvertsEncode : Obligations.DecodeInvertsEncode := by
  rintro s0 ss ⟨hcfg, -⟩ hinput
  obtain ⟨s1, s2, s3, hscan, herr1, hbuild, herr2, hgen, herr3, hcfg3, hinput3, htree, hcodes, hvalid, hcode⟩ :=
    exists_codes_of_inputIs hinput
  refine ⟨s1, s2, s3, hscan, herr1, hbuild, herr2, hgen, herr3, fun hfit => ?_⟩
  rw [← hcfg3] at hfit hcfg
  obtain ⟨s4, hencode, hholds, -, -, hlen, herr4, -, -, hframe⟩ :=
    encodeConcatenatesCodes s3 ss hcfg hvalid hinput3 hcode hfit
  have htables4 : s4.blk.tables = s3.blk.tables := congrArg (·.blk.tables) hframe
  have hcfg4 : s4.blk.cfg = s3.blk.cfg := (congrArg Block.cfg htables4 :)
  obtain ⟨s5, s6, hpack, hunpack, herr5, herr6, hbits, -⟩ :=
    unpackInvertsPack s4 (codeString s3.blk ss) (hcfg4 ▸ hcfg) ⟨hlen, hcfg4 ▸ hfit, hholds⟩
  have htables : s6.blk.tables = s3.blk.tables :=
    ((tables_of_exec_pack_or_unpack (.inr rfl) hunpack).trans
      (tables_of_exec_pack_or_unpack (.inl rfl) hpack)).trans htables4
  obtain ⟨hinLen, -, hcap, -⟩ := hinput3
  have hargFits : ss.length < 2 ^ 32 := hinLen ▸ s3.blk.inLen.isLt
  have hcode6 : s6.blk.code = s3.blk.code := (congrArg Block.code htables :)
  have hcfg6 : s6.blk.cfg = s3.blk.cfg := (congrArg Block.cfg htables :)
  have htree6 : TreeInv s6.blk := by rwa [← treeInv_tables, htables, treeInv_tables]
  have hcodes6 : CodesInv s6.blk := by rwa [← codesInv_tables, htables, codesInv_tables]
  have hvalid6 : s6.blk.codesValid = true := (congrArg Block.codesValid htables).trans hvalid
  have hbits6 : BitsAre s6.blk (codeString s6.blk ss) := by rwa [codeString, hcode6]
  obtain ⟨s7, hdecode, hend⟩ := decode_codeString
    (s := { s6 with blk := { s6.blk with arg := BitVec.ofNat 32 ss.length } }) htree6 hcodes6 hvalid6 (hcode6 ▸ hcode)
    (Nat.mod_eq_of_lt hargFits) (hcfg6 ▸ hcap) hbits6
  exact ⟨s4, s5, s6, s7, hencode, herr4, hpack, herr5, hunpack, herr6, hdecode, hend⟩

end Sys2Proof.Machine
end

section
/-! What cannot happen (60_exceptions R220, R231): the error codes no command reports from a sound table and tree, and the
moves that leave an idle machine as it is. -/

namespace Sys2Proof.Machine

open Sys2Proof.Safety

/-! ## The unreachable error codes -/

/-- From a sound tree every command ends with an error code that can be reported (60_exceptions R220). -/
theorem exec_errorInv {i : Instr} {s t : State} (htree : TreeInv s.blk) (h : exec i s = .next t) : ErrorInv t.blk := by
  obtain ⟨c, -, rfl⟩ | ⟨code, r0, r1, he, rfl⟩ := exec_next h
  · exact errorInv_complete_none _ _ _
  · exact errorInv_complete_of_raise htree he _

/-- BUILD reports success or EMPTY_INPUT: a table with an entry has a list of at least two (41_frequency R132). -/
theorem exec_build_error {s t : State} (h : exec .build s = .next t) :
    t.blk.error = .emptyInput ∨ t.blk.error = .none := by
  obtain ⟨hempty, hentry⟩ := buildFailsOnlyOnAnEmptyTable s
  by_cases hzero : s.blk.ndist = 0
  · cases h.symm.trans (hempty hzero)
    exact .inl rfl
  · obtain ⟨t', ht', herror⟩ := hentry hzero
    cases h.symm.trans ht'
    exact .inr herror

/-- Settles O44: no command raises the three codes on a sound tree, and BUILD's list is never too short. -/
theorem unreachableErrorsStayUnwritten : Obligations.UnreachableErrorsStayUnwritten := by
  intro i s t _ htree h
  refine ⟨exec_errorInv htree h, ?_⟩
  rintro rfl
  obtain herror | herror := exec_build_error h <;> simp [herror]

/-! ## Idleness -/

/-- With no command latched the engine has no step (40_control R112). -/
theorem engineStep_of_idle {s : State} (hidle : s.blk.pending = none) : engineStep s = .next s := by
  simp only [engineStep, hidle]

/-- A host that has executed its last statement has no access left to make (40_control R118). -/
theorem hostStep_of_prog_nil {s : State} (hprog : s.host.prog = []) : hostStep s = .next s := by
  simp only [hostStep, hprog]

/-- A run has ended when no statement is left and no command is latched (40_control R118). -/
theorem runEnded_iff (s : State) : runEnded s = true ↔ s.host.prog = [] ∧ s.blk.pending = none := by
  simp [runEnded, busy]

/-- Settles O6: an engine with no command and a host with no statement leave the state as the schedule's move found
it. -/
theorem idleBlockKeepsItsState : Obligations.IdleBlockKeepsItsState := by
  intro s
  have hengine (hidle : s.blk.pending = none) (hmove : nextMove s = .engine) : step s = .next (popMove s) := by
    rw [step, hmove]
    exact engineStep_of_idle hidle
  refine ⟨hengine, fun hended hnoReset => ?_⟩
  obtain ⟨hprog, hidle⟩ := (runEnded_iff s).mp hended
  cases hmove : nextMove s with
  | engine => exact hengine hidle hmove
  | host =>
    rw [step, hmove]
    exact hostStep_of_prog_nil hprog
  | reset => exact absurd hmove hnoReset

end Sys2Proof.Machine
end

section
/-! Reset (70_reset R242): the move that aborts what the block is doing and empties it. -/

namespace Sys2Proof.Machine

/-- A reset move asserts reset, whatever command is latched (70_reset R242). -/
theorem step_of_reset {s : State} (hmove : nextMove s = .reset) : step s = .next (assertReset (popMove s)) := by
  rw [step, hmove]

/-- Settles O7: a reset leaves the power-on block, whose registers and tables are zero and whose buffers are empty. -/
theorem resetAbortsAndEmptiesEverything : Obligations.ResetAbortsAndEmptiesEverything := by
  intro s hmove
  refine ⟨_, step_of_reset hmove, rfl, rfl, rfl, rfl, rfl, rfl, rfl, rfl, rfl, rfl, rfl, rfl, rfl, rfl, rfl, rfl, rfl,
    rfl, rfl, rfl, rfl, rfl, fun x => ⟨?_, ?_, ?_⟩, fun k => ?_, fun j => ?_⟩
  · exact atSym_replicate 0 x
  · exact atSym_replicate 0 x
  · exact atSym_replicate CodeEntry.absent x
  · exact atNode_replicate Node.zero k
  · exact ⟨Memory.get_nil j, Memory.get_nil j, Memory.get_nil j, Memory.get_nil j⟩

end Sys2Proof.Machine
end
